-- ==== Sys2Proof/Word.lean ====
section
/-!
DEFINITION. The word types of P256-CORE: a 256-bit register value (10_state R22), a 32-bit bus word
(20_memory R48), and a register number 0..15 (30_encoding R71).
-/
namespace Sys2Proof

/-- A 256-bit register value: an unsigned integer in [0, 2^256) (00_scope R7, 10_state R22). -/
abbrev Elem := BitVec 256

/-- A 32-bit bus word: a command word, a control register, one eighth of a register (20_memory R48). -/
abbrev Word32 := BitVec 32

/-- A register number 0..15 (10_state R22, 30_encoding R71). -/
abbrev RegIdx := Fin 16

/-- A byte offset from BASE inside the 4 KiB host window (20_memory R46). -/
abbrev Offset := BitVec 12

end Sys2Proof
end

