-- ==== Sys2Proof/Config.lean ====
section
/-!
DEFINITION. What is fixed for the machine: the curve constants (00_scope R8), the parameters of 00_scope R6 and the
identification values (10_state R31), the OPEN parameters BASE and LAT, and the free value that stands for UNSPEC (00_scope R12).
-/
namespace Sys2Proof.Config

/-- The field prime P (00_scope R8). PRESUMED by the spec itself (its K1): log 8. -/
def p : Nat := 0xFFFFFFFF00000001000000000000000000000000FFFFFFFFFFFFFFFFFFFFFFFF

/-- The group order N (00_scope R8). PRESUMED by the spec itself (its K1): log 8. -/
def n : Nat := 0xFFFFFFFF00000000FFFFFFFFFFFFFFFFBCE6FAADA7179E84F3B9CAC2FC632551

/-- The generator's plain x-coordinate Gx (00_scope R8). -/
def gx : Nat := 0x6B17D1F2E12C4247F8BCE6E563A440F277037D812DEB33A0F4A13945D898C296

/-- The generator's plain y-coordinate Gy (00_scope R8). -/
def gy : Nat := 0x4FE342E2FE1A7F9B8EE7EB4A7C0F9E162BCE33576B315ECECBB6406837BF51F5

/-- R = 2^256, the Montgomery radix (00_scope R6, R9). -/
def radix : Nat := 2 ^ 256

/-- REG_COUNT (00_scope R6). -/
def regCount : Nat := 16
/-- W_G, the base-point window width (00_scope R6). -/
def wG : Nat := 6
/-- NW_G, the number of base-point windows (00_scope R6). -/
def nwG : Nat := 43
/-- E_G, the entries of a base-point window (00_scope R6). -/
def eG : Nat := 32
/-- W_P, the arbitrary-point window width (00_scope R6). -/
def wP : Nat := 5
/-- NW_P, the number of arbitrary-point windows (00_scope R6). -/
def nwP : Nat := 52
/-- E_P, the entries of the arbitrary-point table (00_scope R6). -/
def eP : Nat := 16

/-- The ID register, "P256" in ASCII (10_state R31). -/
def idWord : Word32 := 0x50323536
/-- The VERSION register, 1.0 (10_state R31). -/
def versionWord : Word32 := 0x00010000

/-- The free values of the model: the `k`-th draw. UNSPEC of 00_scope R12, and the unspecified contents of a register
word never written (10_state R25). It has no body, so nothing can be proved of a value of it. DESIGN CHOICE, log 1. -/
opaque freeValue : Nat → Elem

/-- The 4 KiB page of the platform's address space at which the host window sits; OPEN (00_scope R6, spec/93 U19). Log 13. -/
opaque basePage : Nat

/-- BASE, the 4 KiB-aligned address of the host window (20_memory R46). -/
def base : Nat := 4096 * basePage

/-- LAT(op, m, TBLV): cycles from acceptance to completion, a function of the opcode, the modulus bit and whether the
command builds the table, and of nothing else; OPEN (70_reset R171, spec/93 U18). No step reads it. Log 14. -/
opaque lat : (op : BitVec 6) → (m : Bool) → (builds : Bool) → Nat

end Sys2Proof.Config
end

