-- ==== Sys2Proof/Syntax.lean ====
section
/-!
DEFINITION. The commands of P256-CORE as syntax: one constructor per row of the opcode table (30_encoding R64), with the
operand fields of formats R and T turned into register numbers, indices and flags (30_encoding R66, R67, R77).
-/
namespace Sys2Proof

/-- The modulus bit m of a field command: 0 selects P, 1 selects N (30_encoding R68). -/
inductive Modulus where
  | p
  | n
deriving DecidableEq, Repr

/-- A command. Operands stand in the order of the assembler syntax (30_encoding R75), the modulus suffix first. A point
operand is its base register. Which operand values a command admits is `Instr.WellFormed`. -/
inductive Instr where
  /-- NOP (40_field R97) -/
  | nop
  /-- FMUL.M rd, ra, rb (40_field R85) -/
  | fmul (m : Modulus) (rd ra rb : RegIdx)
  /-- FADD.M rd, ra, rb (40_field R87) -/
  | fadd (m : Modulus) (rd ra rb : RegIdx)
  /-- FSUB.M rd, ra, rb (40_field R89) -/
  | fsub (m : Modulus) (rd ra rb : RegIdx)
  /-- FHLV.M rd, ra (40_field R91) -/
  | fhlv (m : Modulus) (rd ra : RegIdx)
  /-- FSEL rd, ra, rb, rc (40_field R92) -/
  | fsel (rd ra rb rc : RegIdx)
  /-- FTOM.M rd, ra (40_field R93) -/
  | ftom (m : Modulus) (rd ra : RegIdx)
  /-- FFRM.M rd, ra (40_field R94) -/
  | ffrm (m : Modulus) (rd ra : RegIdx)
  /-- FINV.M rd, ra (42_inversion R114) -/
  | finv (m : Modulus) (rd ra : RegIdx)
  /-- LDC rd, cid (40_field R96) -/
  | ldc (rd : RegIdx) (cid : Fin 16)
  /-- PDBL rd, ra (41_point R102) -/
  | pdbl (rd ra : RegIdx)
  /-- PADD rd, ra, rb, sign, sel, zero (41_point R107) -/
  | padd (rd ra rb : RegIdx) (sign sel zero : Bool)
  /-- PJ2A rd, ra (41_point R109) -/
  | pj2a (rd ra : RegIdx)
  /-- PA2J rd, ra (41_point R110) -/
  | pa2j (rd ra : RegIdx)
  /-- TBLB (43_table R120) -/
  | tblb
  /-- TBLRD rd, win, ent (43_table R121) -/
  | tblrd (rd : RegIdx) (win : Fin 64) (ent : Fin 32)
  /-- SMULG rd, ra (44_scalar R132) -/
  | smulg (rd ra : RegIdx)
  /-- SMULP rd, ra, rb (44_scalar R136) -/
  | smulp (rd ra rb : RegIdx)
deriving DecidableEq, Repr

end Sys2Proof
end

