-- ==== Sys2Proof/Machine/Field.lean ====
section
/-!
DEFINITION. Modular arithmetic mod P and mod N on 256-bit values: the Montgomery product, add, subtract, halve, conversions and
inversion (40_field R84 to R94, 42_inversion R113), and the hardwired constants (40_field R95). Each is exact integer
arithmetic on the operands' values, narrowed once at the end (00_scope R7).
-/
namespace Sys2Proof.Machine

/-- The modulus M a modulus bit selects (30_encoding R68). -/
def modulus (m : Modulus) : Nat :=
  match m with
  | .p => Config.p
  | .n => Config.n

/-- R⁻¹ mod M, from 40_field R85 (P) and its vector in spec/95 section 2 row 6 (N). -/
def radixInv (m : Modulus) : Nat :=
  match m with
  | .p => 0xFFFFFFFE00000003FFFFFFFD0000000200000001FFFFFFFE0000000300000000
  | .n => 0x60D066334905C1E907F8B6041E607725BADEF3E243566FAFCE1BC8F79C197C79

/-- A value canonical for M: x < M (00_scope R10). -/
def canonical (m : Modulus) (a : Elem) : Bool := decide (a.toNat < modulus m)

/-- The Montgomery product a·b·R⁻¹ mod M (40_field R84). -/
def mm (m : Modulus) (a b : Elem) : Elem :=
  BitVec.ofNat 256 (a.toNat * b.toNat * radixInv m % modulus m)

/-- Modular addition with one conditional correction (40_field R86). -/
def addm (m : Modulus) (a b : Elem) : Elem :=
  let s := a.toNat + b.toNat
  BitVec.ofNat 256 (if modulus m ≤ s then s - modulus m else s)

/-- Modular subtraction with one conditional correction (40_field R88). -/
def subm (m : Modulus) (a b : Elem) : Elem :=
  BitVec.ofNat 256 (if b.toNat ≤ a.toNat then a.toNat - b.toNat else a.toNat + modulus m - b.toNat)

/-- a·2⁻¹ mod M: add M first when a is odd (40_field R90). -/
def halfm (m : Modulus) (a : Elem) : Elem :=
  BitVec.ofNat 256 (if a.toNat % 2 = 1 then (a.toNat + modulus m) / 2 else a.toNat / 2)

/-- x·R mod M (40_field R93). -/
def toMont (m : Modulus) (x : Elem) : Elem :=
  BitVec.ofNat 256 (x.toNat * Config.radix % modulus m)

/-- c·R⁻¹ mod M (40_field R94). -/
def fromMont (m : Modulus) (c : Elem) : Elem :=
  BitVec.ofNat 256 (c.toNat * radixInv m % modulus m)

/-- a^e mod M for e < 16^k, by k base-16 digits of e. -/
def powMod (a M : Nat) : (k e : Nat) → Nat
  | 0, _ => 1 % M
  | k + 1, e => powMod a M k (e / 16) ^ 16 * a ^ (e % 16) % M

/-- The Montgomery-domain inverse: the representation of val_M(a)^(M−2) (42_inversion R113); the addition chain is not
observable (R116). -/
def minv (m : Modulus) (a : Elem) : Elem :=
  toMont m (BitVec.ofNat 256 (powMod (fromMont m a).toNat (modulus m) 64 (modulus m - 2)))

/-! ### The hardwired constants (40_field R95) -/

/-- ONEP = R mod P = mont_P(1). -/
def onep : Elem := 0x00000000FFFFFFFEFFFFFFFFFFFFFFFFFFFFFFFF000000000000000000000001
/-- GXM = Gx·R mod P. -/
def gxm : Elem := 0x18905F76A53755C679FB732B7762251075BA95FC5FEDB60179E730D418A9143C
/-- GYM = Gy·R mod P. -/
def gym : Elem := 0x8571FF1825885D85D2E88688DD21F3258B4AB8E4BA19E45CDDF25357CE95560A

/-- CONST[cid]; none for a reserved index (40_field R95, 30_encoding R70). -/
def constant (cid : Nat) : Option Elem :=
  match cid with
  | 0 => some (BitVec.ofNat 256 Config.p)
  | 1 => some (BitVec.ofNat 256 Config.n)
  | 2 => some (BitVec.ofNat 256 Config.gx)
  | 3 => some (BitVec.ofNat 256 Config.gy)
  | 4 => some onep
  | 5 => some 0x00000000FFFFFFFF00000000000000004319055258E8617B0C46353D039CDAAF
  | 6 => some 0x00000004FFFFFFFDFFFFFFFFFFFFFFFEFFFFFFFBFFFFFFFF0000000000000003
  | 7 => some 0x66E12D94F3D956202845B2392B6BEC594699799C49BD6FA683244C95BE79EEA2
  | 8 => some gxm
  | 9 => some gym
  | 10 => some 0
  | _ => none

end Sys2Proof.Machine
end

