-- ==== Sys2Proof/WellFormed.lean ====
section
/-!
DEFINITION. The operand values a command admits: the range checks of the opcode table's last column (30_encoding R70, R71, R79).
Every other operand field admits all its values.
-/
namespace Sys2Proof

/-- The operand checks of the opcode table (30_encoding R79, "extra checks"), as a test. -/
def Instr.wellFormed (i : Instr) : Bool :=
  match i with
  | .nop => true
  | .fmul _ _ _ _ => true
  | .fadd _ _ _ _ => true
  | .fsub _ _ _ _ => true
  | .fhlv _ _ _ => true
  | .fsel _ _ _ _ => true
  | .ftom _ _ _ => true
  | .ffrm _ _ _ => true
  | .finv _ _ _ => true
  | .ldc _ cid => decide (cid.val ≤ 10)
  | .pdbl rd ra => decide (rd.val ≤ 13) && decide (ra.val ≤ 13)
  | .padd rd ra rb _ _ _ => decide (rd.val ≤ 13) && decide (ra.val ≤ 13) && decide (rb.val ≤ 14)
  | .pj2a rd ra => decide (rd.val ≤ 14) && decide (ra.val ≤ 13)
  | .pa2j rd ra => decide (rd.val ≤ 13) && decide (ra.val ≤ 14)
  | .tblb => true
  | .tblrd rd win _ => decide (rd.val ≤ 14) && decide (win.val ≤ 42)
  | .smulg rd _ => decide (rd.val ≤ 13)
  | .smulp rd _ rb => decide (rd.val ≤ 13) && decide (rb.val ≤ 14)

/-- A command whose operands are all in range. -/
abbrev Instr.WellFormed (i : Instr) : Prop := i.wellFormed = true

end Sys2Proof
end

