-- ==== Sys2Proof/Decode.lean ====
section
/-!
DEFINITION. Decoding a command word (30_encoding R65 to R80), total on all 32-bit words, with the error R72 names for each
word that is no command; then the encoder, written from the field layout of formats R and T.
-/
namespace Sys2Proof

/-! ### The fields of a command word (30_encoding R66, R67) -/

/-- op, bits 31:26. -/
def opField (w : Word32) : BitVec 6 := w.extractLsb 31 26
/-- rd, bits 25:22. -/
def rdField (w : Word32) : RegIdx := (w.extractLsb 25 22).toFin
/-- ra, bits 21:18. -/
def raField (w : Word32) : RegIdx := (w.extractLsb 21 18).toFin
/-- rb, bits 17:14. -/
def rbField (w : Word32) : RegIdx := (w.extractLsb 17 14).toFin
/-- rc, bits 13:10. -/
def rcField (w : Word32) : RegIdx := (w.extractLsb 13 10).toFin
/-- win, bits 21:16 of format T. -/
def winField (w : Word32) : Fin 64 := (w.extractLsb 21 16).toFin
/-- ent, bits 15:11 of format T. -/
def entField (w : Word32) : Fin 32 := (w.extractLsb 15 11).toFin
/-- cid = f[3:0] (30_encoding R70). -/
def cidField (w : Word32) : Fin 16 := (w.extractLsb 3 0).toFin
/-- m = f[0]: 0 selects P, 1 selects N (30_encoding R68). -/
def mField (w : Word32) : Modulus := if w.getLsbD 0 then .n else .p
/-- sign = f[2] (30_encoding R69). -/
def signField (w : Word32) : Bool := w.getLsbD 2
/-- sel = f[1] (30_encoding R69). -/
def selField (w : Word32) : Bool := w.getLsbD 1
/-- zero = f[0] (30_encoding R69). -/
def zeroField (w : Word32) : Bool := w.getLsbD 0

/-! ### The opcode table (30_encoding R79) -/

/-- One row of the opcode table: MATCH, MASK and the operands read from the word. -/
structure OpRow where
  mtch : Word32
  mask : Word32
  read : Word32 → Instr

/-- The row of each opcode; none for a reserved opcode (30_encoding R64, R73, R79). -/
def opRow (op : Nat) : Option OpRow :=
  match op with
  | 0x00 => some ⟨0x00000000, 0xFFFFFFFF, fun _ => .nop⟩
  | 0x01 => some ⟨0x04000000, 0xFC003FFE, fun w => .fmul (mField w) (rdField w) (raField w) (rbField w)⟩
  | 0x02 => some ⟨0x08000000, 0xFC003FFE, fun w => .fadd (mField w) (rdField w) (raField w) (rbField w)⟩
  | 0x03 => some ⟨0x0C000000, 0xFC003FFE, fun w => .fsub (mField w) (rdField w) (raField w) (rbField w)⟩
  | 0x04 => some ⟨0x10000000, 0xFC03FFFE, fun w => .fhlv (mField w) (rdField w) (raField w)⟩
  | 0x05 => some ⟨0x14000000, 0xFC0003FF, fun w => .fsel (rdField w) (raField w) (rbField w) (rcField w)⟩
  | 0x06 => some ⟨0x18000000, 0xFC03FFFE, fun w => .ftom (mField w) (rdField w) (raField w)⟩
  | 0x07 => some ⟨0x1C000000, 0xFC03FFFE, fun w => .ffrm (mField w) (rdField w) (raField w)⟩
  | 0x08 => some ⟨0x20000000, 0xFC03FFFE, fun w => .finv (mField w) (rdField w) (raField w)⟩
  | 0x09 => some ⟨0x24000000, 0xFC3FFFF0, fun w => .ldc (rdField w) (cidField w)⟩
  | 0x10 => some ⟨0x40000000, 0xFC03FFFF, fun w => .pdbl (rdField w) (raField w)⟩
  | 0x11 => some ⟨0x44000000, 0xFC003FF8, fun w =>
      .padd (rdField w) (raField w) (rbField w) (signField w) (selField w) (zeroField w)⟩
  | 0x12 => some ⟨0x48000000, 0xFC03FFFF, fun w => .pj2a (rdField w) (raField w)⟩
  | 0x13 => some ⟨0x4C000000, 0xFC03FFFF, fun w => .pa2j (rdField w) (raField w)⟩
  | 0x18 => some ⟨0x60000000, 0xFFFFFFFF, fun _ => .tblb⟩
  | 0x19 => some ⟨0x64000000, 0xFC0007FF, fun w => .tblrd (rdField w) (winField w) (entField w)⟩
  | 0x1C => some ⟨0x70000000, 0xFC03FFFF, fun w => .smulg (rdField w) (raField w)⟩
  | 0x1D => some ⟨0x74000000, 0xFC003FFF, fun w => .smulp (rdField w) (raField w) (rbField w)⟩
  | _ => none

/-! ### The checks after the mask (30_encoding R70 to R72) -/

/-- A base from which a Jacobian point fits: b ≤ 13 (10_state R23, 30_encoding R71). -/
def jacBaseOk (b : RegIdx) : Bool := decide (b.val ≤ 13)
/-- A base from which an affine point fits: b ≤ 14 (10_state R23, 30_encoding R71). -/
def affBaseOk (b : RegIdx) : Bool := decide (b.val ≤ 14)
/-- A defined constant index: cid ≤ 10 (30_encoding R70). -/
def cidOk (cid : Fin 16) : Bool := decide (cid.val ≤ 10)
/-- A window index of the table: win ≤ 42 (30_encoding R67, R72). -/
def winOk (win : Fin 64) : Bool := decide (win.val ≤ 42)

/-- The constant index is defined (30_encoding R72, third check). -/
def Instr.cidInRange : Instr → Bool
  | .ldc _ cid => cidOk cid
  | _ => true

/-- Every point operand fits in the register file (30_encoding R71; R72, fourth check). -/
def Instr.regsInRange : Instr → Bool
  | .pdbl rd ra => jacBaseOk rd && jacBaseOk ra
  | .padd rd ra rb _ _ _ => jacBaseOk rd && jacBaseOk ra && affBaseOk rb
  | .pj2a rd ra => affBaseOk rd && jacBaseOk ra
  | .pa2j rd ra => jacBaseOk rd && affBaseOk ra
  | .tblrd rd _ _ => affBaseOk rd
  | .smulg rd _ => jacBaseOk rd
  | .smulp rd _ rb => jacBaseOk rd && affBaseOk rb
  | _ => true

/-- The window index is in range (30_encoding R72, fifth check). -/
def Instr.winInRange : Instr → Bool
  | .tblrd _ win _ => winOk win
  | _ => true

/-! ### Decode (30_encoding R72) -/

/-- Why a word is no command: the decode errors of 60_exceptions R142. -/
inductive DecodeError where
  | illegal
  | regRange
  | tblRange
deriving DecidableEq, Repr

/-- The outcome of decoding. -/
inductive Decoded where
  | accept (i : Instr)
  | reject (e : DecodeError)
deriving DecidableEq, Repr

/-- The checks after the mask, in R72's order; the first that fails names the error. -/
def checkOperands (i : Instr) : Decoded :=
  if !i.cidInRange then .reject .illegal
  else if !i.regsInRange then .reject .regRange
  else if !i.winInRange then .reject .tblRange
  else .accept i

/-- Decode of a command word, in the order of 30_encoding R72. -/
def decode (w : Word32) : Decoded :=
  match opRow (opField w).toNat with
  | none => .reject .illegal
  | some row => if w &&& row.mask = row.mtch then checkOperands (row.read w) else .reject .illegal

/-- The command a word stands for, if it is one. -/
def Decoded.instr? : Decoded → Option Instr
  | .accept i => some i
  | .reject _ => none

/-- The command your decoder reads from a table word: the bits above `nbits` are 0, and a command is one 32-bit word
(30_encoding R65). -/
def decodeTableWord (nbits w : Nat) : Option Instr :=
  if w % 2 ^ nbits < 2 ^ 32 then (decode (BitVec.ofNat 32 (w % 2 ^ nbits))).instr? else none

/-! ### The encoder (30_encoding R66, R67, R75) -/

/-- A register number as a 4-bit field. -/
def regBits (r : RegIdx) : BitVec 4 := BitVec.ofFin r

/-- The modulus bit in the function field (30_encoding R68). -/
def Modulus.fBits : Modulus → BitVec 4
  | .p => 0
  | .n => 1

/-- Format R: op, rd, ra, rb, rc, res = 0, f, from bit 31 down (30_encoding R66). -/
def encodeR (op : BitVec 6) (rd ra rb rc : RegIdx) (f : BitVec 4) : Word32 :=
  op ++ regBits rd ++ regBits ra ++ regBits rb ++ regBits rc ++ 0#6 ++ f

/-- Format T: op, rd, win, ent, res = 0, from bit 31 down (30_encoding R67). -/
def encodeT (op : BitVec 6) (rd : RegIdx) (win : Fin 64) (ent : Fin 32) : Word32 :=
  op ++ regBits rd ++ (BitVec.ofFin win : BitVec 6) ++ (BitVec.ofFin ent : BitVec 5) ++ 0#11

/-- The word of a command; fields it does not use are 0 (30_encoding R74, R75). -/
def encode (i : Instr) : Word32 :=
  match i with
  | .nop => encodeR 0x00 0 0 0 0 0
  | .fmul m rd ra rb => encodeR 0x01 rd ra rb 0 m.fBits
  | .fadd m rd ra rb => encodeR 0x02 rd ra rb 0 m.fBits
  | .fsub m rd ra rb => encodeR 0x03 rd ra rb 0 m.fBits
  | .fhlv m rd ra => encodeR 0x04 rd ra 0 0 m.fBits
  | .fsel rd ra rb rc => encodeR 0x05 rd ra rb rc 0
  | .ftom m rd ra => encodeR 0x06 rd ra 0 0 m.fBits
  | .ffrm m rd ra => encodeR 0x07 rd ra 0 0 m.fBits
  | .finv m rd ra => encodeR 0x08 rd ra 0 0 m.fBits
  | .ldc rd cid => encodeR 0x09 rd 0 0 0 (BitVec.ofFin cid)
  | .pdbl rd ra => encodeR 0x10 rd ra 0 0 0
  | .padd rd ra rb sign sel zero =>
      encodeR 0x11 rd ra rb 0 (0#1 ++ BitVec.ofBool sign ++ BitVec.ofBool sel ++ BitVec.ofBool zero)
  | .pj2a rd ra => encodeR 0x12 rd ra 0 0 0
  | .pa2j rd ra => encodeR 0x13 rd ra 0 0 0
  | .tblb => encodeR 0x18 0 0 0 0 0
  | .tblrd rd win ent => encodeT 0x19 rd win ent
  | .smulg rd ra => encodeR 0x1C rd ra 0 0 0
  | .smulp rd ra rb => encodeR 0x1D rd ra rb 0 0

end Sys2Proof
end

