-- ==== Sys2Proof/Machine/State.lean ====
section
/-!
DEFINITION. The state of P256-CORE (10_state R21 to R40) as plain data, the reasons a step can stop, and the state after reset
(10_state R40, 70_reset R161). Three fields are the model's own and marked so: `port`, `reply`, `drawn`.
-/
namespace Sys2Proof.Machine

/-- A register of the file: its 256-bit value and its eight written bits W[i][t], bit t for word t (10_state R22, R25). -/
structure Reg where
  value : Elem
  written : BitVec 8
deriving DecidableEq, Repr

/-- The error codes of STATUS.ERRCODE (60_exceptions R142); codes 6 to 15 are never produced. -/
inductive ErrCode where
  /-- 0: no error since ERR was cleared -/
  | none
  /-- 1: reserved opcode, nonzero reserved or unused bit, LDC cid 11..15 -/
  | illegal
  /-- 2: a point base register out of range -/
  | regRange
  /-- 3: TBLRD win > 42 -/
  | tblRange
  /-- 4: a CMD or register-window write while BUSY = 1 -/
  | busy
  /-- 5: a bad width, misaligned or unmapped access -/
  | badAcc
deriving DecidableEq, Repr

/-- An affine point as stored: x and y in Montgomery form mod P (00_scope glossary, 43_table R118). -/
structure Aff where
  x : Elem
  y : Elem
deriving DecidableEq, Repr

/-- A Jacobian point: X, Y, Z in Montgomery form mod P (00_scope glossary, 41_point R100). -/
structure Jac where
  x : Elem
  y : Elem
  z : Elem
deriving DecidableEq, Repr

/-- A latched source register: its number and what it held at acceptance (10_state R38). -/
structure LatchedReg where
  idx : RegIdx
  reg : Reg
deriving DecidableEq, Repr

/-- The in-flight latch: the command word and every source register the command reads (10_state R38). -/
structure Latch where
  word : Word32
  sources : List LatchedReg
deriving DecidableEq, Repr

/-- The width of a host access; only 32 bits is a good access (20_memory R48). -/
inductive Width where
  | bits8
  | bits16
  | bits32
  | bits64
  | burst
deriving DecidableEq, Repr

/-- What a host access asks for. The value of a write that is not 32 bits wide is never looked at (20_memory R48). -/
inductive AccessKind where
  | read
  | write (v : Word32)
deriving DecidableEq, Repr

/-- A host access: its width, its offset from BASE and its kind (20_memory R46, R49). -/
structure HostAccess where
  width : Width
  off : Offset
  kind : AccessKind
deriving DecidableEq, Repr

/-- What moves next (the model's own; 10_state R21, R38, 70_reset R161). -/
inductive PortEvent where
  /-- a host access is served -/
  | access (a : HostAccess)
  /-- the engine completes the command in flight; nothing happens if none is -/
  | complete
  /-- the platform asserts the reset input -/
  | reset
deriving DecidableEq, Repr

/-- The machine's state. -/
structure State where
  /-- F0..F15 with their written bits (10_state R22, R25) -/
  regs : Vector Reg 16
  /-- CTRL.IE (10_state R29) -/
  ie : Bool
  /-- STATUS.BUSY (10_state R30) -/
  busy : Bool
  /-- STATUS.DONE (10_state R30) -/
  done : Bool
  /-- STATUS.ERR (10_state R30) -/
  err : Bool
  /-- STATUS.TBLV (10_state R33) -/
  tblv : Bool
  /-- STATUS.ERRCODE (10_state R30) -/
  errCode : ErrCode
  /-- the CMD read value (10_state R34) -/
  cmd : Word32
  /-- ERRINFO (10_state R35) -/
  errInfo : Word32
  /-- TBL[window][entry] (10_state R37) -/
  tbl : List (List Aff)
  /-- the in-flight latch; none when empty (10_state R38) -/
  latch : Option Latch
  /-- the model's own: what arrives at the port next, in order (log 6) -/
  port : List PortEvent
  /-- the model's own: the word the port returned in the latest step, if that step served a read (log 7) -/
  reply : Option Word32
  /-- the model's own: how many free values have been drawn (log 1) -/
  drawn : Nat
deriving DecidableEq, Repr

/-- What the spec's cautious model faults on (spec/93 U1 to U6). The hardware goes on in each case (60_exceptions R149). -/
inductive CautionFault where
  /-- a command reads a register that is not written (10_state R25, U6) -/
  | unwrittenSource
  /-- a field or point command, or SMULP, reads a value that is not canonical (40_field R82, 41_point R100, U1, U2) -/
  | nonCanonicalSource
  /-- FINV of 0 or PJ2A with Z = 0 (42_inversion R115, U3, U4) -/
  | inversionOfZero
  /-- SMULP whose small table has some Z = 0 (44_scalar R137, U5) -/
  | zeroInSmallTable
deriving DecidableEq, Repr

/-- Why the machine stops. The first two are raised only in states that no run reaches (log 12), and stopping there is safe; the third is
the spec's cautious model's and is never raised by the machine's own step. -/
inductive Fault where
  /-- raised by a meaning whose operand is outside the range decode enforces (30_encoding R71); safe: decode rejects such words -/
  | operandOutOfRange
  /-- raised by the completion step when the latched word is no command; safe: only accepted words are latched (10_state R34) -/
  | latchedWordIsNoCommand
  /-- raised by `checkedStep` only, never by `step`: the command in flight breaks a precondition (spec/93 U1 to U6; log 21); safe: the
  cautious model stops where the hardware goes on with UNSPEC -/
  | caution (c : CautionFault)
deriving DecidableEq, Repr

/-- Why an instruction has no meaning. -/
inductive Refusal where
  /-- raised by exec for an instruction not modelled yet; safe: the machine stops -/
  | notModelled (mnemonic : String)
deriving DecidableEq, Repr

/-- A register after reset: no word of it is written; the value is a DESIGN CHOICE that no read can see (10_state R25, R40; log 2). -/
def Reg.unwritten : Reg := ⟨0, 0⟩

/-- TBL after reset: unspecified by 10_state R40; every coordinate 0 is a DESIGN CHOICE that no read can see (log 3). -/
def tblAtReset : List (List Aff) := List.replicate 43 (List.replicate 32 ⟨0, 0⟩)

/-- The machine right after reset (10_state R40, 70_reset R161). -/
def State.reset : State where
  regs := Vector.replicate 16 Reg.unwritten
  ie := false
  busy := false
  done := false
  err := false
  tblv := false
  errCode := .none
  cmd := 0
  errInfo := 0
  tbl := tblAtReset
  latch := none
  port := []
  reply := none
  drawn := 0

end Sys2Proof.Machine
end

