-- ==== Sys2Proof/Machine/Curve.lean ====
section
/-!
DEFINITION. Point arithmetic: doubling (41_point R101), mixed addition and its selection (R104 to R106), conversions (R109,
R110), the multiples of an affine point (44_scalar R134) and the base-point table's content (43_table R118).
-/
namespace Sys2Proof.Machine

/-- The point (0, 0, 0): the uninitialized accumulator (44_scalar R130). -/
def Jac.zero : Jac := ⟨0, 0, 0⟩

/-- All three coordinates are canonical mod P (41_point R100). -/
def Jac.isCanonical (q : Jac) : Bool := canonical .p q.x && canonical .p q.y && canonical .p q.z

/-- Both coordinates are canonical mod P (41_point R100). -/
def Aff.isCanonical (q : Aff) : Bool := canonical .p q.x && canonical .p q.y

/-- The generator in Montgomery form (40_field R95). -/
def generator : Aff := ⟨gxm, gym⟩

/-- Affine to Jacobian: Z = mont_P(1) (41_point R110). -/
def Aff.toJac (q : Aff) : Jac := ⟨q.x, q.y, onep⟩

/-- The doubling sequence, step by step (41_point R101). -/
def pdbl (q : Jac) : Jac :=
  let t1 := mm .p q.z q.z
  let t2 := subm .p q.x t1
  let t1 := addm .p q.x t1
  let t2 := mm .p t2 t1
  let t2 := addm .p (addm .p t2 t2) t2
  let y3 := addm .p q.y q.y
  let z3 := mm .p y3 q.z
  let y3 := mm .p y3 y3
  let t3 := mm .p y3 q.x
  let y3 := mm .p y3 y3
  let y3 := halfm .p y3
  let x3 := mm .p t2 t2
  let t1 := addm .p t3 t3
  let x3 := subm .p x3 t1
  let t1 := subm .p t3 x3
  let t1 := mm .p t1 t2
  let y3 := subm .p t1 y3
  ⟨x3, y3, z3⟩

/-- The sign-adjusted y of P2 (41_point R104). -/
def signedY (sign : Bool) (y2 : Elem) : Elem := if sign then subm .p 0 y2 else y2

/-- The mixed-addition sequence, step by step (41_point R105); `q.y` is Y2s. -/
def paddSum (q1 : Jac) (q : Aff) : Jac :=
  let t1 := mm .p q1.z q1.z
  let t2 := mm .p t1 q1.z
  let t1 := mm .p t1 q.x
  let t2 := mm .p t2 q.y
  let t1 := subm .p t1 q1.x
  let t2 := subm .p t2 q1.y
  let z3 := mm .p q1.z t1
  let t3 := mm .p t1 t1
  let t4 := mm .p t3 t1
  let t3 := mm .p t3 q1.x
  let t1 := addm .p t3 t3
  let x3 := mm .p t2 t2
  let x3 := subm .p x3 t1
  let x3 := subm .p x3 t4
  let t3 := subm .p t3 x3
  let t3 := mm .p t3 t2
  let t4 := mm .p t4 q1.y
  let y3 := subm .p t3 t4
  ⟨x3, y3, z3⟩

/-- The PADD function: sign, then the sum, then the selection by sel and zero (41_point R104 to R106). -/
def padd (sign sel zero : Bool) (q1 : Jac) (q2 : Aff) : Jac :=
  let q2s : Aff := ⟨q2.x, signedY sign q2.y⟩
  if !sel then q1 else if !zero then q2s.toJac else paddSum q1 q2s

/-- Jacobian to affine, X·Z⁻² and Y·Z⁻³ (41_point R109). -/
def Jac.toAff (q : Jac) : Aff :=
  let zi := minv .p q.z
  let zi2 := mm .p zi zi
  let zi3 := mm .p zi2 zi
  ⟨mm .p q.x zi2, mm .p q.y zi3⟩

/-- `k` successive mixed additions of `q` to `j`, each result in order (44_scalar R134, third line). -/
def addChain (q : Aff) : (k : Nat) → (j : Jac) → List Jac
  | 0, _ => []
  | k + 1, j => paddSum j q :: addChain q k (paddSum j q)

/-- J_2 .. J_n of an affine point: one doubling, then mixed additions (44_scalar R134). -/
def jacMultiples (n : Nat) (q : Aff) : List Jac :=
  pdbl q.toJac :: addChain q (n - 2) (pdbl q.toJac)

/-- The affine multiples 1·q .. n·q (44_scalar R134, last line). -/
def affMultiples (n : Nat) (q : Aff) : List Aff :=
  q :: (jacMultiples n q).map Jac.toAff

/-- `k` successive doublings. -/
def pdblN : (k : Nat) → Jac → Jac
  | 0, q => q
  | k + 1, q => pdbl (pdblN k q)

/-- 2^w·q in affine form: the weight of the next table row. -/
def nextWeight (w : Nat) (q : Aff) : Aff := (pdblN w q.toJac).toAff

/-- `k` table rows of `n` multiples each, the first of `q`, each next one of 2^w times the row before. -/
def tableRows (w n : Nat) : (k : Nat) → (q : Aff) → List (List Aff)
  | 0, _ => []
  | k + 1, q => affMultiples n q :: tableRows w n k (nextWeight w q)

/-- The content of TBL when TBLV = 1: entry e of row i is (e + 1)·2^(6i)·G in affine Montgomery form (43_table R118). That
the repeated doublings and additions give these multiples is DEDUCED from 41_point R111 and 43_table R122: log 9. -/
def baseTable : List (List Aff) := tableRows Config.wG Config.eG Config.nwG generator

end Sys2Proof.Machine
end

