-- ==== Sys2Proof/Machine/Scalar.lean ====
section
/-!
DEFINITION. Scalar multiplication: Booth digits (44_scalar R127), scalar reduction (R128), window values (R129), the constant-time
lookup (43_table R126), the digit step (R130), SMULG's loop (R131) and SMULP's table and loop (R134, R135).
-/
namespace Sys2Proof.Machine

/-- A Booth digit: its magnitude and its sign bit (44_scalar R127). -/
structure Digit where
  mag : Nat
  sign : Bool
deriving DecidableEq, Repr

/-- booth_w(u) (44_scalar R127). -/
def booth (w u : Nat) : Digit :=
  if u / 2 ^ w % 2 = 0 then ⟨(u + 1) / 2, false⟩ else ⟨(2 ^ (w + 1) - u) / 2, true⟩

/-- k' = k mod N by one conditional subtraction (44_scalar R128). -/
def reduceScalar (k : Elem) : Nat := if Config.n ≤ k.toNat then k.toNat - Config.n else k.toNat

/-- The window value u_i of width w (44_scalar R129). -/
def window (w i k' : Nat) : Nat := 2 * k' / 2 ^ (w * i) % 2 ^ (w + 1)

/-- The constant-time lookup: every entry is read in order; (0, 0) for magnitude 0 (43_table R126). -/
def ctLookup (row : List Aff) (mag : Nat) : Aff :=
  row.zipIdx.foldl (fun acc entry => if mag = entry.2 + 1 then entry.1 else acc) ⟨0, 0⟩

/-- The accumulator of a scalar multiplication with its flag zf (10_state R27, 44_scalar R130). -/
structure Acc where
  point : Jac
  zf : Bool
deriving DecidableEq, Repr

/-- The uninitialized accumulator (44_scalar R130). -/
def Acc.init : Acc := ⟨Jac.zero, false⟩

/-- One PADD-step driven by a digit (44_scalar R130). -/
def digitStep (row : List Aff) (d : Digit) (acc : Acc) : Acc :=
  ⟨padd d.sign (d.mag != 0) acc.zf acc.point (ctLookup row d.mag), acc.zf || d.mag != 0⟩

/-- smulg(k) over the stored table: windows from the least significant, no doublings (44_scalar R131). -/
def smulg (tbl : List (List Aff)) (k : Elem) : Jac :=
  ((List.range Config.nwG).foldl
    (fun acc i => digitStep (tbl.getD i []) (booth Config.wG (window Config.wG i (reduceScalar k))) acc) Acc.init).point

/-- The SMULP small table T[0] .. T[15] (44_scalar R134); none if some Z of J_2 .. J_16 is 0 (R137). -/
def smallTable (q : Aff) : Option (List Aff) :=
  if (jacMultiples Config.eP q).all (fun j => j.z != 0) then some (affMultiples Config.eP q) else none

/-- smulp's loop over the small table: windows from the most significant, five doublings before every window but the first
(44_scalar R135). -/
def smulpLoop (t : List Aff) (k : Elem) : Jac :=
  ((List.range Config.nwP).reverse.foldl
    (fun acc i =>
      digitStep t (booth Config.wP (window Config.wP i (reduceScalar k)))
        ⟨if i = Config.nwP - 1 then acc.point else pdblN Config.wP acc.point, acc.zf⟩) Acc.init).point

/-- smulp(k, x, y); none where 44_scalar R136 gives UNSPEC. -/
def smulp (k : Elem) (q : Aff) : Option Jac :=
  if q.isCanonical then (smallTable q).map (fun t => smulpLoop t k) else none

end Sys2Proof.Machine
end

