-- ==== Sys2Proof/Machine/Operands.lean ====
section
/-!
DEFINITION. Operands: the words of a register (20_memory R50), the source registers each command reads and their latching at
acceptance (10_state R38), the value of a latched source, and the result of each operand shape, `none` standing for UNSPEC
(00_scope R12).
-/
namespace Sys2Proof.Machine

/-! ### Words of a register (20_memory R50) -/

/-- The position of bit 0 of word t: word t is bits [255 − 32t : 224 − 32t]. -/
def wordShift (t : Fin 8) : Nat := 224 - 32 * t.val

/-- Word t of a 256-bit value. -/
def wordOf (v : Elem) (t : Fin 8) : Word32 := v.extractLsb' (wordShift t) 32

/-- A 256-bit value with word t replaced; the other words stay. -/
def setWordOf (v : Elem) (t : Fin 8) (w : Word32) : Elem :=
  (v &&& ~~~((0xFFFFFFFF : Elem) <<< wordShift t)) ||| (w.setWidth 256 <<< wordShift t)

/-- The eight written bits of a register that is written (10_state R25). -/
def allWritten : BitVec 8 := BitVec.allOnes 8

/-- A register is written when all eight of its bits are set (10_state R25). -/
def Reg.isWritten (r : Reg) : Bool := r.written == allWritten

/-- Word t of a register, none if it was never written (10_state R25). -/
def Reg.word? (r : Reg) (t : Fin 8) : Option Word32 := if r.written.getLsbD t.val then some (wordOf r.value t) else none

/-! ### The sources of a command (10_state R38, 30_encoding R71) -/

/-- The registers of a Jacobian point at base b (10_state R23). -/
def jacRegs (b : RegIdx) : List RegIdx := [b, b + 1, b + 2]
/-- The registers of an affine point at base b (10_state R23). -/
def affRegs (b : RegIdx) : List RegIdx := [b, b + 1]

/-- Every source register a command reads (10_state R24, and the Operands line of each command's rule). -/
def sources : Instr → List RegIdx
  | .nop => []
  | .fmul _ _ ra rb => [ra, rb]
  | .fadd _ _ ra rb => [ra, rb]
  | .fsub _ _ ra rb => [ra, rb]
  | .fhlv _ _ ra => [ra]
  | .fsel _ ra rb rc => [ra, rb, rc]
  | .ftom _ _ ra => [ra]
  | .ffrm _ _ ra => [ra]
  | .finv _ _ ra => [ra]
  | .ldc _ _ => []
  | .pdbl _ ra => jacRegs ra
  | .padd _ ra rb _ _ _ => jacRegs ra ++ affRegs rb
  | .pj2a _ ra => jacRegs ra
  | .pa2j _ ra => affRegs ra
  | .tblb => []
  | .tblrd _ _ _ => []
  | .smulg _ ra => [ra]
  | .smulp _ ra rb => ra :: affRegs rb

/-- The sources as latched at acceptance (10_state R38). -/
def latchSources (i : Instr) (s : State) : List LatchedReg :=
  (sources i).map (fun r => ⟨r, s.regs[r]⟩)

/-- The latched register of a number; unwritten when the latch does not hold it, so that a result then is UNSPEC (log 11). -/
def findLatched (r : RegIdx) : List LatchedReg → Reg
  | [] => Reg.unwritten
  | l :: ls => if l.idx = r then l.reg else findLatched r ls

/-- The source register a command computes from: what the latch holds of it (10_state R38). -/
def State.source (s : State) (r : RegIdx) : Reg :=
  match s.latch with
  | some l => findLatched r l.sources
  | none => Reg.unwritten

/-! ### Results; `none` is UNSPEC -/

/-- The value of a source, none if the register is not written (40_field R83, 41_point R100, 60_exceptions R149; log 4). -/
def Reg.value? (r : Reg) : Option Elem := if r.isWritten then some r.value else none

/-- The value of a source that must be written and canonical mod M (40_field R82, R83). -/
def Reg.canonical? (m : Modulus) (r : Reg) : Option Elem :=
  if r.isWritten && canonical m r.value then some r.value else none

/-- The result of a one-source field command (40_field R82, R83). -/
def unaryResult (op : Modulus → Elem → Elem) (m : Modulus) (a : Reg) : Option Elem :=
  (a.canonical? m).map (op m)

/-- The result of a two-source field command (40_field R82, R83). -/
def binaryResult (op : Modulus → Elem → Elem → Elem) (m : Modulus) (a b : Reg) : Option Elem :=
  match a.canonical? m, b.canonical? m with
  | some x, some y => some (op m x y)
  | _, _ => none

/-- FSEL's result: a when c ≠ 0, else b; every source must be written (40_field R83, R92). -/
def selectResult (a b c : Reg) : Option Elem :=
  match a.value?, b.value?, c.value? with
  | some x, some y, some z => some (if z = 0 then y else x)
  | _, _, _ => none

/-- FINV's result: 0 has no inverse (42_inversion R114, R115). -/
def inverseResult (m : Modulus) (a : Reg) : Option Elem :=
  match a.canonical? m with
  | some x => if x = 0 then none else some (minv m x)
  | none => none

/-- The Jacobian point at base b among the sources, as words; none if a coordinate is not written (41_point R100). -/
def State.jacSource (s : State) (b : RegIdx) : Option Jac :=
  match (s.source b).value?, (s.source (b + 1)).value?, (s.source (b + 2)).value? with
  | some x, some y, some z => some ⟨x, y, z⟩
  | _, _, _ => none

/-- The affine point at base b among the sources, as words; none if a coordinate is not written (41_point R100). -/
def State.affSource (s : State) (b : RegIdx) : Option Aff :=
  match (s.source b).value?, (s.source (b + 1)).value? with
  | some x, some y => some ⟨x, y⟩
  | _, _ => none

/-- PDBL's result: every coordinate canonical (41_point R100, R102). -/
def pdblResult (q : Option Jac) : Option Jac :=
  match q with
  | some q => if q.isCanonical then some (pdbl q) else none
  | none => none

/-- PADD's result: all five coordinates canonical, for every flag combination (41_point R100, R107). -/
def paddResult (sign sel zero : Bool) (q1 : Option Jac) (q2 : Option Aff) : Option Jac :=
  match q1, q2 with
  | some q1, some q2 => if q1.isCanonical && q2.isCanonical then some (padd sign sel zero q1 q2) else none
  | _, _ => none

/-- PJ2A's result: every coordinate canonical and Z ≠ 0 (41_point R109). -/
def pj2aResult (q : Option Jac) : Option Aff :=
  match q with
  | some q => if q.isCanonical && q.z != 0 then some q.toAff else none
  | none => none

/-- SMULG's result over the stored table: the scalar is any 256-bit value, and must be written (44_scalar R132, 60_exceptions R149). -/
def smulgResult (tbl : List (List Aff)) (k : Reg) : Option Jac := k.value?.map (smulg tbl)

/-- SMULP's result: the scalar and the point written, the point canonical, and its small table free of Z = 0 (44_scalar R136, R137,
60_exceptions R149). -/
def smulpResult (k : Reg) (q : Option Aff) : Option Jac :=
  match k.value?, q with
  | some k, some q => smulp k q
  | _, _ => none

/-- Entry `ent` of window `win` of the stored table; none outside it (43_table R121). -/
def tableEntry (tbl : List (List Aff)) (win ent : Nat) : Option Aff :=
  (tbl.getD win [])[ent]?

end Sys2Proof.Machine
end

