-- ==== Sys2Proof/Machine/Flags.lean ====
section
/-!
DEFINITION. The status and control words: STATUS, CTRL and CAPS as the host reads them (10_state R29 to R32), their writes (R29, R30),
BUSY and DONE at acceptance and completion (R34, R38), and the interrupt output (R36). The engine has no condition codes (R26).
-/
namespace Sys2Proof.Machine

/-- The 4-bit value of an error code in STATUS bits 11:8 (60_exceptions R142). -/
def ErrCode.bits : ErrCode → BitVec 4
  | .none => 0
  | .illegal => 1
  | .regRange => 2
  | .tblRange => 3
  | .busy => 4
  | .badAcc => 5

/-- STATUS as read: reserved bits read 0 (10_state R30). -/
def State.statusWord (s : State) : Word32 :=
  0#20 ++ s.errCode.bits ++ 0#4 ++ BitVec.ofBool s.tblv ++ BitVec.ofBool s.err ++ BitVec.ofBool s.done ++ BitVec.ofBool s.busy

/-- CTRL as read: bits 31:1 read 0 (10_state R29). -/
def State.ctrlWord (s : State) : Word32 := 0#31 ++ BitVec.ofBool s.ie

/-- CAPS: NW_P, W_P, NW_G, W_G, NREG from bit 31 down (10_state R32). -/
def capsWord : Word32 :=
  BitVec.ofNat 8 Config.nwP ++ BitVec.ofNat 4 Config.wP ++ BitVec.ofNat 8 Config.nwG ++ BitVec.ofNat 4 Config.wG ++
    BitVec.ofNat 8 Config.regCount

/-- The interrupt output: IE ∧ (DONE ∨ ERR), a level (10_state R36, 60_exceptions R150). -/
def State.irq (s : State) : Bool := s.ie && (s.done || s.err)

/-- A write to CTRL sets IE from bit 0; the other bits are ignored (10_state R29, 20_memory R49). -/
def State.writeCtrl (s : State) (v : Word32) : State := { s with ie := v.getLsbD 0 }

/-- Clearing ERR clears ERRCODE and ERRINFO in the same write (10_state R30). -/
def State.clearErr (s : State) : State := { s with err := false, errCode := .none, errInfo := 0 }

/-- Clearing DONE (10_state R30). -/
def State.clearDone (s : State) : State := { s with done := false }

/-- A write to STATUS: a 1 in bit 1 clears DONE, a 1 in bit 2 clears the error record (10_state R30, 20_memory R49). This is the
return from an error or completion (60_exceptions R151, R152). -/
def State.writeStatus (s : State) (v : Word32) : State :=
  let s := if v.getLsbD 1 then s.clearDone else s
  if v.getLsbD 2 then s.clearErr else s

/-- The status side of a completion: BUSY ← 0, DONE ← 1, the latch emptied (10_state R38). -/
def State.complete (s : State) : State := { s with busy := false, done := true, latch := none }

/-- The status side of an acceptance: BUSY ← 1, the CMD read value, the latch (10_state R34, R38). -/
def State.accept (s : State) (i : Instr) (w : Word32) : State :=
  { s with busy := true, cmd := w, latch := some ⟨w, latchSources i s⟩ }

end Sys2Proof.Machine
end

