-- ==== Sys2Proof/Machine/Ops.lean ====
section
/-!
DEFINITION. The named operations over the state: register writes and free values (10_state R25, 00_scope R12), the one-time table
build (43_table R119), the error record, which is this hardware's one exception mechanism (60_exceptions R145), and the shared
ending of every command's meaning (10_state R38).
-/
namespace Sys2Proof.Machine

/-! ### Registers -/

/-- A command's write of a register: the value, and all eight written bits (10_state R25). -/
def State.setReg (s : State) (r : RegIdx) (v : Elem) : State :=
  { s with regs := s.regs.set r ⟨v, allWritten⟩ }

/-- Takes the next free value (log 1). -/
def State.drawNext (s : State) : State := { s with drawn := s.drawn + 1 }

/-- Writes a result to a register; UNSPEC writes a free value (00_scope R12; log 1). -/
def State.writeElem (s : State) (r : RegIdx) (o : Option Elem) : State :=
  match o with
  | some v => s.setReg r v
  | none => (s.setReg r (Config.freeValue s.drawn)).drawNext

/-- Writes an affine result at base b, x then y (10_state R23). -/
def State.writeAff (s : State) (b : RegIdx) (o : Option Aff) : State :=
  (s.writeElem b (o.map (·.x))).writeElem (b + 1) (o.map (·.y))

/-- Writes a Jacobian result at base b, X, Y, then Z (10_state R23). -/
def State.writeJac (s : State) (b : RegIdx) (o : Option Jac) : State :=
  ((s.writeElem b (o.map (·.x))).writeElem (b + 1) (o.map (·.y))).writeElem (b + 2) (o.map (·.z))

/-- A host write of word t of register i: those 32 bits and the bit W[i][t] (10_state R25, 20_memory R50). -/
def State.setRegWord (s : State) (i : RegIdx) (t : Fin 8) (w : Word32) : State :=
  { s with regs := s.regs.set i ⟨setWordOf s.regs[i].value t w, s.regs[i].written ||| (1#8 <<< t.val)⟩ }

/-! ### The base-point table -/

/-- The one-time build: TBL and TBLV are written only if TBLV = 0 (43_table R119, R120). -/
def State.ensureTable (s : State) : State :=
  if s.tblv then s else { s with tbl := baseTable, tblv := true }

/-! ### The error record -/

/-- `raise Error(code, info)`: the first error is kept; nothing else changes (60_exceptions R145). -/
def State.raiseError (s : State) (code : ErrCode) (info : Word32) : State :=
  if s.err then s else { s with err := true, errCode := code, errInfo := info }

/-- The error a rejected command word raises (60_exceptions R142). -/
def decodeErrCode : DecodeError → ErrCode
  | .illegal => .illegal
  | .regRange => .regRange
  | .tblRange => .tblRange

/-! ### Ending a meaning -/

/-- A command's one atomic completion step, for operands that decode lets through (10_state R38; log 12). -/
def finish (operandsOk : Bool) (s : State) : Host.Outcome State Fault Refusal :=
  if operandsOk then .next s.complete else .fault .operandOutOfRange

end Sys2Proof.Machine
end

