-- ==== Sys2Proof/Machine/FieldCommands.lean ====
section
/-!
DEFINITION. The meanings of the field commands NOP, FMUL, FADD, FSUB, FHLV, FSEL, FTOM, FFRM, LDC (40_field) and FINV
(42_inversion): each is the command's completion step (10_state R38), from its latched sources to its one destination (40_field R81).
-/
namespace Sys2Proof.Machine

/-- NOP (40_field R97). -/
def execNop (s : State) : Host.Outcome State Fault Refusal := finish true s

/-- FMUL.M rd, ra, rb (40_field R85). -/
def execFmul (m : Modulus) (rd ra rb : RegIdx) (s : State) : Host.Outcome State Fault Refusal :=
  finish true (s.writeElem rd (binaryResult mm m (s.source ra) (s.source rb)))

/-- FADD.M rd, ra, rb (40_field R87). -/
def execFadd (m : Modulus) (rd ra rb : RegIdx) (s : State) : Host.Outcome State Fault Refusal :=
  finish true (s.writeElem rd (binaryResult addm m (s.source ra) (s.source rb)))

/-- FSUB.M rd, ra, rb (40_field R89). -/
def execFsub (m : Modulus) (rd ra rb : RegIdx) (s : State) : Host.Outcome State Fault Refusal :=
  finish true (s.writeElem rd (binaryResult subm m (s.source ra) (s.source rb)))

/-- FHLV.M rd, ra (40_field R91). -/
def execFhlv (m : Modulus) (rd ra : RegIdx) (s : State) : Host.Outcome State Fault Refusal :=
  finish true (s.writeElem rd (unaryResult halfm m (s.source ra)))

/-- FSEL rd, ra, rb, rc (40_field R92). -/
def execFsel (rd ra rb rc : RegIdx) (s : State) : Host.Outcome State Fault Refusal :=
  finish true (s.writeElem rd (selectResult (s.source ra) (s.source rb) (s.source rc)))

/-- FTOM.M rd, ra (40_field R93). -/
def execFtom (m : Modulus) (rd ra : RegIdx) (s : State) : Host.Outcome State Fault Refusal :=
  finish true (s.writeElem rd (unaryResult toMont m (s.source ra)))

/-- FFRM.M rd, ra (40_field R94). -/
def execFfrm (m : Modulus) (rd ra : RegIdx) (s : State) : Host.Outcome State Fault Refusal :=
  finish true (s.writeElem rd (unaryResult fromMont m (s.source ra)))

/-- FINV.M rd, ra (42_inversion R114). -/
def execFinv (m : Modulus) (rd ra : RegIdx) (s : State) : Host.Outcome State Fault Refusal :=
  finish true (s.writeElem rd (inverseResult m (s.source ra)))

/-- LDC rd, cid (40_field R96). -/
def execLdc (rd : RegIdx) (cid : Fin 16) (s : State) : Host.Outcome State Fault Refusal :=
  finish (cidOk cid) (s.writeElem rd (constant cid.val))

end Sys2Proof.Machine
end

