-- ==== Sys2Proof/Machine/PointCommands.lean ====
section
/-!
DEFINITION. The meanings of the point commands PDBL, PADD, PJ2A, PA2J (41_point): each is the command's completion step (10_state R38),
from its latched sources to its destination point.
-/
namespace Sys2Proof.Machine

/-- PDBL rd, ra (41_point R102). -/
def execPdbl (rd ra : RegIdx) (s : State) : Host.Outcome State Fault Refusal :=
  finish (jacBaseOk rd && jacBaseOk ra) (s.writeJac rd (pdblResult (s.jacSource ra)))

/-- PADD rd, ra, rb, sign, sel, zero (41_point R107). -/
def execPadd (rd ra rb : RegIdx) (sign sel zero : Bool) (s : State) : Host.Outcome State Fault Refusal :=
  finish (jacBaseOk rd && jacBaseOk ra && affBaseOk rb)
    (s.writeJac rd (paddResult sign sel zero (s.jacSource ra) (s.affSource rb)))

/-- PJ2A rd, ra (41_point R109). -/
def execPj2a (rd ra : RegIdx) (s : State) : Host.Outcome State Fault Refusal :=
  finish (affBaseOk rd && jacBaseOk ra) (s.writeAff rd (pj2aResult (s.jacSource ra)))

/-- PA2J rd, ra (41_point R110): a move, with no canonical precondition; an unwritten coordinate makes all three words UNSPEC (R100). -/
def execPa2j (rd ra : RegIdx) (s : State) : Host.Outcome State Fault Refusal :=
  finish (jacBaseOk rd && affBaseOk ra) (s.writeJac rd ((s.affSource ra).map Aff.toJac))

end Sys2Proof.Machine
end

