-- ==== Sys2Proof/Machine/ScalarCommands.lean ====
section
/-!
DEFINITION. The meanings of the scalar-multiplication commands SMULG and SMULP (44_scalar), each the command's completion step
(10_state R38).
-/
namespace Sys2Proof.Machine

/-- SMULG rd, ra (44_scalar R132): the table is built first if TBLV = 0, and read from the store; an unwritten scalar makes all
three words UNSPEC (60_exceptions R149). -/
def execSmulg (rd ra : RegIdx) (s : State) : Host.Outcome State Fault Refusal :=
  finish (jacBaseOk rd)
    (s.ensureTable.writeJac rd (smulgResult s.ensureTable.tbl (s.source ra)))

/-- SMULP rd, ra, rb (44_scalar R136); it neither reads nor builds TBL. -/
def execSmulp (rd ra rb : RegIdx) (s : State) : Host.Outcome State Fault Refusal :=
  finish (jacBaseOk rd && affBaseOk rb)
    (s.writeJac rd (smulpResult (s.source ra) (s.affSource rb)))

end Sys2Proof.Machine
end

