-- ==== Sys2Proof/Machine/TableCommands.lean ====
section
/-!
DEFINITION. The meanings of the base-point table commands TBLB and TBLRD (43_table), each the command's completion step (10_state R38).
-/
namespace Sys2Proof.Machine

/-- TBLB (43_table R120). -/
def execTblb (s : State) : Host.Outcome State Fault Refusal := finish true s.ensureTable

/-- TBLRD rd, win, ent (43_table R121). -/
def execTblrd (rd : RegIdx) (win : Fin 64) (ent : Fin 32) (s : State) : Host.Outcome State Fault Refusal :=
  finish (affBaseOk rd && winOk win) (s.ensureTable.writeAff rd (tableEntry s.ensureTable.tbl win.val ent.val))

end Sys2Proof.Machine
end

