-- ==== Sys2Proof/Machine/Dispatch.lean ====
section
/-!
DEFINITION. The meaning of every command, one arm per row of the opcode table (30_encoding R64): its completion step (10_state R38).
-/
namespace Sys2Proof.Machine

def exec (i : Instr) (s : State) : Host.Outcome State Fault Refusal :=
  match i with
  | .nop => Sys2Proof.Machine.execNop s
  | .fmul m rd ra rb => Sys2Proof.Machine.execFmul m rd ra rb s
  | .fadd m rd ra rb => Sys2Proof.Machine.execFadd m rd ra rb s
  | .fsub m rd ra rb => Sys2Proof.Machine.execFsub m rd ra rb s
  | .fhlv m rd ra => Sys2Proof.Machine.execFhlv m rd ra s
  | .fsel rd ra rb rc => Sys2Proof.Machine.execFsel rd ra rb rc s
  | .ftom m rd ra => Sys2Proof.Machine.execFtom m rd ra s
  | .ffrm m rd ra => Sys2Proof.Machine.execFfrm m rd ra s
  | .finv m rd ra => Sys2Proof.Machine.execFinv m rd ra s
  | .ldc rd cid => Sys2Proof.Machine.execLdc rd cid s
  | .pdbl rd ra => Sys2Proof.Machine.execPdbl rd ra s
  | .padd rd ra rb sign sel zero => Sys2Proof.Machine.execPadd rd ra rb sign sel zero s
  | .pj2a rd ra => Sys2Proof.Machine.execPj2a rd ra s
  | .pa2j rd ra => Sys2Proof.Machine.execPa2j rd ra s
  | .tblb => Sys2Proof.Machine.execTblb s
  | .tblrd rd win ent => Sys2Proof.Machine.execTblrd rd win ent s
  | .smulg rd ra => Sys2Proof.Machine.execSmulg rd ra s
  | .smulp rd ra rb => Sys2Proof.Machine.execSmulp rd ra rb s

end Sys2Proof.Machine
end

