-- ==== Sys2Proof/Machine/HostPort.lean ====
section
/-!
DEFINITION. The host window: where an offset points (20_memory R47), which accesses are bad (R48, R55), what a read returns
(R49 to R55), what a write does (R49, R51, 10_state R28), and the issue of a command (10_state R34). Priority of errors: 60_exceptions R148.
-/
namespace Sys2Proof.Machine

/-- What an offset of the host window maps (20_memory R47). -/
inductive Target where
  | id
  | version
  | caps
  | ctrl
  | status
  | cmd
  | errInfo
  | regWord (i : RegIdx) (t : Fin 8)
  | unmapped
deriving DecidableEq, Repr

/-- The address map, for an offset that is a multiple of 4 (20_memory R47, R50, R55). -/
def targetOf (off : Offset) : Target :=
  if off = 0x000 then .id
  else if off = 0x004 then .version
  else if off = 0x008 then .caps
  else if off = 0x00C then .ctrl
  else if off = 0x010 then .status
  else if off = 0x014 then .cmd
  else if off = 0x018 then .errInfo
  else if 0x100 ≤ off.toNat ∧ off.toNat < 0x300 then
    .regWord (Fin.ofNat 16 ((off.toNat - 0x100) / 32)) (Fin.ofNat 8 (off.toNat / 4))
  else .unmapped

/-- The offset of word t of register i (20_memory R50). -/
def regOffset (i : RegIdx) (t : Fin 8) : Offset := BitVec.ofNat 12 (0x100 + 32 * i.val + 4 * t.val)

/-- What an access reaches: nothing (unmapped) when its width is not 32 bits or its offset no multiple of 4 (20_memory R48, R55). -/
def HostAccess.target (a : HostAccess) : Target :=
  if a.width = .bits32 ∧ a.off.toNat % 4 = 0 then targetOf a.off else .unmapped

/-- An offset zero-extended to 32 bits (10_state R35). -/
def offsetInfo (off : Offset) : Word32 := off.setWidth 32

/-- The access of a platform address, if the address lies in the window at BASE (20_memory R46; log 13). -/
def HostAccess.atAddress (addr : Nat) (width : Width) (kind : AccessKind) : Option HostAccess :=
  if Config.base ≤ addr ∧ addr < Config.base + 4096 then some ⟨width, BitVec.ofNat 12 (addr - Config.base), kind⟩ else none

/-- The port answers a read with a word (20_memory R49). -/
def State.answer (s : State) (w : Word32) : State := { s with reply := some w }

/-- A read of word t of register i: 0 while BUSY (20_memory R51), a free word if never written (10_state R25; log 5), else the word. -/
def State.readRegWord (s : State) (i : RegIdx) (t : Fin 8) : State :=
  if s.busy then s.answer 0
  else
    match s.regs[i].word? t with
    | some w => s.answer w
    | none => (s.answer (wordOf (Config.freeValue s.drawn) t)).drawNext

/-- A read access: no side effect, but that a bad or unmapped read raises BADACC and returns 0 (20_memory R48, R52, R54, R55). -/
def State.serveRead (s : State) (a : HostAccess) : State :=
  match a.target with
  | .id => s.answer Config.idWord
  | .version => s.answer Config.versionWord
  | .caps => s.answer capsWord
  | .ctrl => s.answer s.ctrlWord
  | .status => s.answer s.statusWord
  | .cmd => s.answer s.cmd
  | .errInfo => s.answer s.errInfo
  | .regWord i t => s.readRegWord i t
  | .unmapped => (s.raiseError .badAcc (offsetInfo a.off)).answer 0

/-- The issue of command word w by a CMD write: dropped while BUSY (60_exceptions R146), else decoded, and accepted or rejected
(10_state R34, 30_encoding R72). -/
def State.issue (s : State) (w : Word32) : State :=
  if s.busy then s.raiseError .busy w
  else match decode w with
    | .accept i => s.accept i w
    | .reject e => s.raiseError (decodeErrCode e) w

/-- A register-window write: dropped with a BUSY error while BUSY (20_memory R51, 60_exceptions R146). -/
def State.writeRegWord (s : State) (off : Offset) (i : RegIdx) (t : Fin 8) (v : Word32) : State :=
  if s.busy then s.raiseError .busy (offsetInfo off) else s.setRegWord i t v

/-- A write access (20_memory R49); a write to a read-only register is ignored (10_state R28). -/
def State.serveWrite (s : State) (a : HostAccess) (v : Word32) : State :=
  match a.target with
  | .id => s
  | .version => s
  | .caps => s
  | .ctrl => s.writeCtrl v
  | .status => s.writeStatus v
  | .cmd => s.issue v
  | .errInfo => s
  | .regWord i t => s.writeRegWord a.off i t v
  | .unmapped => s.raiseError .badAcc (offsetInfo a.off)

/-- One host access, served atomically (20_memory R53, R56). -/
def State.serve (s : State) (a : HostAccess) : State :=
  match a.kind with
  | .read => s.serveRead a
  | .write v => s.serveWrite a v

/-- The 32-bit write of a word to CMD. -/
def cmdWrite (w : Word32) : HostAccess := ⟨.bits32, 0x014, .write w⟩

end Sys2Proof.Machine
end

