-- ==== Sys2Proof/Machine/Engine.lean ====
section
/-!
DEFINITION. The agents' moves: the engine's completion of the command in flight (10_state R38), the reset input (70_reset R161), and
which of them a port event stands for; the latency parameter's arguments (70_reset R171); the end and the result of a run (70_reset
R174); a command placed as the next to run.
-/
namespace Sys2Proof.Machine

/-- The engine's completion of the command in flight, if there is one (10_state R38). -/
def completeInFlight (s : State) : Host.Outcome State Fault Refusal :=
  match s.latch with
  | none => .next s
  | some l =>
    match decode l.word with
    | .accept i => exec i s
    | .reject _ => .fault .latchedWordIsNoCommand

/-- The reset input: every piece of state at its reset value in one step; a command in flight is abandoned (70_reset R161,
spec/93 U24). What arrives at the port later, and the count of free values drawn, are the model's own and go on (log 7). -/
def State.resetInput (s : State) : State := { State.reset with port := s.port, drawn := s.drawn }

/-- One move, by the agent the event names. -/
def move (e : PortEvent) (s : State) : Host.Outcome State Fault Refusal :=
  match e with
  | .access a => .next (s.serve a)
  | .complete => completeInFlight s
  | .reset => .next s.resetInput

/-- The state as a step begins: `rest` is still to arrive, and no read has been answered in this step. -/
def State.begin (s : State) (rest : List PortEvent) : State := { s with port := rest, reply := none }

/-- One step: the next event of the port; when none is left, the engine alone may move (70_reset R171: every accepted command
eventually completes), and an idle engine waits (10_state R40). -/
def advance (s : State) : Host.Outcome State Fault Refusal :=
  match s.port with
  | [] => completeInFlight (s.begin [])
  | e :: rest => move e (s.begin rest)

/-- The modulus bit of a command, 0 where it has none (30_encoding R68). -/
def modulusBit : Instr → Bool
  | .fmul m _ _ _ => m == .n
  | .fadd m _ _ _ => m == .n
  | .fsub m _ _ _ => m == .n
  | .fhlv m _ _ => m == .n
  | .ftom m _ _ => m == .n
  | .ffrm m _ _ => m == .n
  | .finv m _ _ => m == .n
  | _ => false

/-- The command needs the base-point table (43_table R120, R123). -/
def needsTable : Instr → Bool
  | .tblb => true
  | .tblrd _ _ _ => true
  | .smulg _ _ => true
  | _ => false

/-- The cycles from acceptance to completion: LAT of the opcode, the modulus bit and whether the command builds the table
(70_reset R171). No step reads it (log 14). -/
def latency (i : Instr) (s : State) : Nat :=
  Config.lat (opField (encode i)) (modulusBit i) (needsTable i && !s.tblv)

/-- A host access is at the port. -/
def PortEvent.isAccess : PortEvent → Bool
  | .access _ => true
  | .complete => false
  | .reset => false

/-- The run of a host program has ended: the host has made its last access, BUSY = 0 and no command is in flight (70_reset R174; log 20). -/
def State.ended (s : State) : Bool := !s.port.any (·.isAccess) && !s.busy && s.latch.isNone

/-- The result of a run: the register file, STATUS and ERRINFO; nothing is said of a word never written (70_reset R174). -/
structure RunResult where
  regs : Vector (Vector (Option Word32) 8) 16
  status : Word32
  errInfo : Word32
deriving DecidableEq, Repr

/-- The words of the register file, none where never written. -/
def State.regWords (s : State) : Vector (Vector (Option Word32) 8) 16 :=
  Vector.ofFn fun i => Vector.ofFn fun t => s.regs[i].word? t

/-- The result of the run, none while it has not ended (70_reset R174). -/
def State.runResult (s : State) : Option RunResult :=
  if s.ended then some ⟨s.regWords, s.statusWord, s.errInfo⟩ else none

/-- The command word w placed as the next thing to run: accepted with its sources latched and the engine to move, as after the host's
write of w to CMD; a word that is no command stands as that write, still to be rejected (log 16). -/
def State.placeCommand (s : State) (w : Word32) : State :=
  match decode w with
  | .accept i => { s.accept i w with port := .complete :: s.port }
  | .reject _ => { s with busy := false, latch := none, port := .access (cmdWrite w) :: s.port }

end Sys2Proof.Machine
end

