-- ==== Sys2Proof/Machine/Step.lean ====
section
/-!
DEFINITION. One step of the machine, and the placing of a command word where the next step runs it.
-/
namespace Sys2Proof.Machine

/-- One step of P256-CORE: `advance`. -/
def step (s : State) : Host.Outcome State Fault Refusal := advance s

/-- `s` with the command word `w` (its bits above `nbits` zero) where the very next step runs it: `placeCommand` (log 16). -/
def State.withFetchWord (s : State) (nbits w : Nat) : State := s.placeCommand (BitVec.ofNat 32 (w % 2 ^ nbits))

end Sys2Proof.Machine
end

