-- ==== Sys2Proof/Safety.lean ====
section
/-!
DEFINITION. The terms in which claims about runs are stated: the machine's invariant, the destinations and the frame of a command, the
error-free change of an access, and what two states must share to be alike in public (60_exceptions R160).
-/
namespace Sys2Proof.Machine

/-! ### The invariant -/

/-- What holds in every state a run reaches. -/
structure State.Inv (s : State) : Prop where
  /-- the latch is empty exactly when BUSY = 0 (10_state R38) -/
  latch_busy : s.latch.isSome = s.busy
  /-- the latch holds an accepted command, whose word CMD reads, with its sources as the register file still has them (10_state R34,
  R38; the file cannot change while BUSY, 20_memory R51) -/
  latch_command : ∀ l, s.latch = some l →
    s.cmd = l.word ∧ ∃ i, decode l.word = .accept i ∧ l.sources = latchSources i s
  /-- the CMD read value is a command word: the last accepted one, or 0, the word of NOP (10_state R34) -/
  cmd_command : ∃ i, decode s.cmd = .accept i
  /-- TBLV = 1 only when TBL holds the base-point table (10_state R33) -/
  table_valid : s.tblv = true → s.tbl = baseTable
  /-- ERRCODE and ERRINFO read 0 when ERR = 0 (10_state R30, R35) -/
  err_clear : s.err = false → s.errCode = .none ∧ s.errInfo = 0
  /-- ERR = 1 comes with the code of an error (10_state R30, 60_exceptions R142) -/
  err_set : s.err = true → s.errCode ≠ .none

/-! ### Commands: destinations and frame -/

/-- The registers of a Jacobian point at base b (10_state R23). -/
def jacDest (b : RegIdx) : List RegIdx := [b, b + 1, b + 2]
/-- The registers of an affine point at base b (10_state R23). -/
def affDest (b : RegIdx) : List RegIdx := [b, b + 1]

/-- Every destination register of a command (10_state R24, and the Operands line of each command's rule). No meaning uses it. -/
def destinations : Instr → List RegIdx
  | .nop => []
  | .fmul _ rd _ _ => [rd]
  | .fadd _ rd _ _ => [rd]
  | .fsub _ rd _ _ => [rd]
  | .fhlv _ rd _ => [rd]
  | .fsel rd _ _ _ => [rd]
  | .ftom _ rd _ => [rd]
  | .ffrm _ rd _ => [rd]
  | .finv _ rd _ => [rd]
  | .ldc rd _ => [rd]
  | .pdbl rd _ => jacDest rd
  | .padd rd _ _ _ _ _ => jacDest rd
  | .pj2a rd _ => affDest rd
  | .pa2j rd _ => jacDest rd
  | .tblb => []
  | .tblrd rd _ _ => affDest rd
  | .smulg rd _ => jacDest rd
  | .smulp rd _ _ => jacDest rd

/-- Every register outside `ds`, value and written bits, is as before. -/
def RegsKept (ds : List RegIdx) (s t : State) : Prop := ∀ r : RegIdx, r ∉ ds → t.regs[r] = s.regs[r]

/-- A completion step's change of everything but the register file and the table: BUSY 0, DONE 1, the latch empty, and CTRL, the error
record, CMD and what arrives at the port as before (10_state R38, 40_field R81). -/
structure Completed (s t : State) : Prop where
  busy : t.busy = false
  done : t.done = true
  latch : t.latch = none
  ie : t.ie = s.ie
  err : t.err = s.err
  errCode : t.errCode = s.errCode
  errInfo : t.errInfo = s.errInfo
  cmd : t.cmd = s.cmd
  port : t.port = s.port
  reply : t.reply = s.reply

/-- The table store and its valid bit are as before. -/
def TableKept (s t : State) : Prop := t.tblv = s.tblv ∧ t.tbl = s.tbl

/-- A register holds a value and is written (10_state R25). -/
def Holds (s : State) (r : RegIdx) (v : Elem) : Prop := s.regs[r] = ⟨v, allWritten⟩

/-- A command's source register was latched written, with this value (10_state R25, R38). -/
def SourceHolds (s : State) (r : RegIdx) (v : Elem) : Prop := s.source r = ⟨v, allWritten⟩

/-! ### Public equality -/

/-- Two states alike in all but data: everything except the register file, the latched source values, TBL, the words the port answers
and the count of free values drawn. -/
structure SamePublic (s t : State) : Prop where
  ie : s.ie = t.ie
  busy : s.busy = t.busy
  done : s.done = t.done
  err : s.err = t.err
  tblv : s.tblv = t.tblv
  errCode : s.errCode = t.errCode
  cmd : s.cmd = t.cmd
  errInfo : s.errInfo = t.errInfo
  port : s.port = t.port
  latchWord : s.latch.map (·.word) = t.latch.map (·.word)

/-- Two outcomes alike in all but data. -/
def SamePublicOutcome : Host.Outcome State Fault Refusal → Host.Outcome State Fault Refusal → Prop
  | .next s, .next t => SamePublic s t
  | .fault f, .fault g => f = g
  | .refused r, .refused q => r = q
  | _, _ => False

end Sys2Proof.Machine
end

