-- ==== Sys2Proof/Certificates/Slice0/Obligations.lean ====
section
/-!
DEFINITION. The statements about the model, from the numbered rules of spec/. First the terms they share: values read as residues, the
textbook affine group law, the opcode table as a list of numbers, results, and which commands a statement names.
-/
namespace Sys2Proof.Claims
open Sys2Proof Sys2Proof.Machine

/-- val_P(c) = c·R⁻¹ mod P, as a residue (00_scope R9). -/
def valP (c : Elem) : ZMod (modulus .p) := (c.toNat : ZMod (modulus .p)) * (2 ^ 256 : ZMod (modulus .p))⁻¹

/-- `(x3, y3)` is the third point of the line of slope `dy/dx` through `(x1, y1)` and a point with x-coordinate `x2`, reflected: the
affine sum, with denominators cleared (general knowledge, spec/93 K6). -/
def LineSum (dx dy x1 y1 x2 x3 y3 : ZMod (modulus .p)) : Prop :=
  dx ≠ 0 ∧ (x3 + x1 + x2) * dx ^ 2 = dy ^ 2 ∧ (y3 + y1) * dx = dy * (x1 - x3)

/-- Affine addition of two points with different x-coordinates: the chord. -/
def ChordSum (x1 y1 x2 y2 x3 y3 : ZMod (modulus .p)) : Prop := LineSum (x2 - x1) (y2 - y1) x1 y1 x2 x3 y3

/-- Affine doubling on a curve with a = −3: the tangent. -/
def TangentSum (x1 y1 x3 y3 : ZMod (modulus .p)) : Prop := LineSum (2 * y1) (3 * x1 ^ 2 - 3) x1 y1 x1 x3 y3

/-- The Jacobian point `q` represents the affine point `(x, y)` (41_point R100). -/
def Represents (q : Jac) (x y : ZMod (modulus .p)) : Prop :=
  valP q.z ≠ 0 ∧ x * valP q.z ^ 2 = valP q.x ∧ y * valP q.z ^ 3 = valP q.y

/-- The three registers of a Jacobian point at base `b` hold `q`, written. -/
def HoldsJac (s : State) (b : RegIdx) (q : Jac) : Prop := Holds s b q.x ∧ Holds s (b + 1) q.y ∧ Holds s (b + 2) q.z

/-- The two registers of an affine point at base `b` hold `q`, written. -/
def HoldsAff (s : State) (b : RegIdx) (q : Aff) : Prop := Holds s b q.x ∧ Holds s (b + 1) q.y

/-- The latched registers of a Jacobian point at base `b` hold `q`, written. -/
def SourceJac (s : State) (b : RegIdx) (q : Jac) : Prop :=
  SourceHolds s b q.x ∧ SourceHolds s (b + 1) q.y ∧ SourceHolds s (b + 2) q.z

/-- The latched registers of an affine point at base `b` hold `q`, written. -/
def SourceAff (s : State) (b : RegIdx) (q : Aff) : Prop := SourceHolds s b q.x ∧ SourceHolds s (b + 1) q.y

/-- All coordinates below P. -/
def CanonicalJac (q : Jac) : Prop := q.x.toNat < modulus .p ∧ q.y.toNat < modulus .p ∧ q.z.toNat < modulus .p
/-- Both coordinates below P. -/
def CanonicalAff (q : Aff) : Prop := q.x.toNat < modulus .p ∧ q.y.toNat < modulus .p

/-- A register got UNSPEC: it is written, with a free value of which nothing is known (00_scope R12). -/
def HoldsUnspec (s : State) (r : RegIdx) : Prop := ∃ k, Holds s r (Config.freeValue k)

/-- MATCH and MASK of every command, in the order of 30_encoding R79. -/
def specRows : List (Word32 × Word32) := [
  (0x00000000, 0xFFFFFFFF), (0x04000000, 0xFC003FFE), (0x08000000, 0xFC003FFE), (0x0C000000, 0xFC003FFE), (0x10000000, 0xFC03FFFE),
  (0x14000000, 0xFC0003FF), (0x18000000, 0xFC03FFFE), (0x1C000000, 0xFC03FFFE), (0x20000000, 0xFC03FFFE), (0x24000000, 0xFC3FFFF0),
  (0x40000000, 0xFC03FFFF), (0x44000000, 0xFC003FF8), (0x48000000, 0xFC03FFFF), (0x4C000000, 0xFC03FFFF), (0x60000000, 0xFFFFFFFF),
  (0x64000000, 0xFC0007FF), (0x70000000, 0xFC03FFFF), (0x74000000, 0xFC003FFF)]

/-- The constants of LDC by their definitions (40_field R95). -/
def constValue (cid : Nat) : Nat :=
  [Config.p, Config.n, Config.gx, Config.gy, 2 ^ 256 % Config.p, 2 ^ 256 % Config.n, 2 ^ 512 % Config.p, 2 ^ 512 % Config.n,
    Config.gx * 2 ^ 256 % Config.p, Config.gy * 2 ^ 256 % Config.p, 0].getD cid 0

/-- The signed value of a Booth digit (44_scalar R127). -/
def digitValue (d : Digit) : Int := if d.sign then -(d.mag : Int) else d.mag

/-- The signed digit δ of window `i` of width `w` of the scalar `k'` (44_scalar R127, R129), as an integer. -/
def signedDigit (w i k' : Nat) : Int :=
  let u := 2 * k' / 2 ^ (w * i) % 2 ^ (w + 1)
  ((u + 1) / 2 : Nat) - (if 2 ^ w ≤ u then 2 ^ w else 0)

/-- One window: nothing for digit 0, else the |δ|-th entry of the row, negated when δ < 0, is loaded with Z = R mod P into an accumulator
that holds no point yet, or added to it (44_scalar R130). -/
def addDigit (row : List Aff) (d : Int) (acc : Option Jac) : Option Jac :=
  if d = 0 then acc
  else
    let e := row.getD (d.natAbs - 1) ⟨0, 0⟩
    let y := if d < 0 then BitVec.ofNat 256 ((modulus .p - e.y.toNat) % modulus .p) else e.y
    match acc with
    | none => some ⟨e.x, y, BitVec.ofNat 256 (2 ^ 256 % modulus .p)⟩
    | some j => some (paddSum j ⟨e.x, y⟩)

/-- The value of SMULG for the reduced scalar `k'`: 43 windows of width 6, least significant first, no doublings (44_scalar R131). -/
def tableProduct (k' : Nat) : Jac :=
  ((List.range 43).foldl (fun acc i => addDigit (baseTable.getD i []) (signedDigit 6 i k') acc) none).getD ⟨0, 0, 0⟩

/-- The value of SMULP over the small table `t` for the reduced scalar `k'`: 52 windows of width 5, most significant first, an accumulator
that holds a point doubled five times before each (44_scalar R135). -/
def windowProduct (t : List Aff) (k' : Nat) : Jac :=
  ((List.range 52).reverse.foldl (fun acc i => addDigit t (signedDigit 5 i k') (acc.map (pdblN 5))) none).getD ⟨0, 0, 0⟩

/-- Entry `e` of window `i` of the base-point table. -/
def entry (i e : Nat) : Aff := (baseTable.getD i []).getD e ⟨0, 0⟩

/-- The offset is mapped by the host window (20_memory R47). -/
def Mapped (off : Offset) : Prop := off.toNat < 0x01C ∨ (0x100 ≤ off.toNat ∧ off.toNat < 0x300)

/-- A bad access: not 32 bits wide, or at an offset that is no multiple of 4, or at an unmapped offset (60_exceptions R147). -/
def BadAccess (a : HostAccess) : Prop := a.width ≠ .bits32 ∨ a.off.toNat % 4 ≠ 0 ∨ ¬ Mapped a.off

/-- The state in which the next step serves the access `a`, and then `rest` is still to arrive. -/
def arriving (s : State) (a : HostAccess) (rest : List PortEvent) : State := { s with port := .access a :: rest }

/-- `t` is `s` with the error record of `raise Error(code, info)` and nothing else changed, but for what the port holds and answers. -/
def OnlyError (code : ErrCode) (info : Word32) (s t : State) : Prop :=
  t.err = true ∧
  (s.err = false → t.errCode = code ∧ t.errInfo = info) ∧
  (s.err = true → t.errCode = s.errCode ∧ t.errInfo = s.errInfo) ∧
  t.regs = s.regs ∧ t.ie = s.ie ∧ t.busy = s.busy ∧ t.done = s.done ∧ t.tblv = s.tblv ∧ t.tbl = s.tbl ∧ t.cmd = s.cmd ∧
  t.latch = s.latch ∧ t.drawn = s.drawn

/-- Nothing of the machine changed between `s` and `t`, but for what the port holds and answers and the count of free values drawn. -/
def NothingChanged (s t : State) : Prop :=
  t.regs = s.regs ∧ t.ie = s.ie ∧ t.busy = s.busy ∧ t.done = s.done ∧ t.err = s.err ∧ t.tblv = s.tblv ∧ t.errCode = s.errCode ∧
  t.errInfo = s.errInfo ∧ t.tbl = s.tbl ∧ t.cmd = s.cmd ∧ t.latch = s.latch

end Sys2Proof.Claims

open Sys2Proof Sys2Proof.Machine Sys2Proof.Claims

/-! ### Encoding -/

/-- Words of 30_encoding R75 and spec/95 section 7, one or more of every family, decode to their commands. -/
def Obligations.SpecWordsDecodeToTheirCommands : Prop :=
  decode 0x04804000 = .accept (.fmul .p 2 0 1) ∧ decode 0x0C804001 = .accept (.fsub .n 2 0 1) ∧
  decode 0x14C04800 = .accept (.fsel 3 0 1 2) ∧ decode 0x2400000A = .accept (.ldc 0 10) ∧
  decode 0x20400000 = .accept (.finv .p 1 0) ∧ decode 0x45100003 = .accept (.padd 4 4 0 false true true) ∧
  decode 0x642AF800 = .accept (.tblrd 0 42 31) ∧ decode 0x75008000 = .accept (.smulp 4 0 2)

/-- Decode gives back every well-formed command from its word, at every value of every operand. -/
def Obligations.DecodeOfEncodeIsTheCommand : Prop :=
  ∀ i : Instr, i.WellFormed → decode (encode i) = .accept i

/-- A word decodes to a command only if it is that command's one word, and the command is then well-formed: no bit of a command word is
ignored (30_encoding R74). -/
def Obligations.AcceptedWordIsTheEncoding : Prop :=
  ∀ (w : Word32) (i : Instr), decode w = .accept i → encode i = w ∧ i.WellFormed

/-- 60_exceptions R143: ILLEGAL for exactly the words that match no row of 30_encoding R79, and LDC with cid ≥ 11. -/
def Obligations.IllegalWordsAreThoseOfNoRow : Prop :=
  ∀ w : Word32, decode w = .reject .illegal ↔
    (∀ row ∈ specRows, w &&& row.2 ≠ row.1) ∨ (w &&& 0xFC3FFFF0 = 0x24000000 ∧ 11 ≤ (w &&& 0xF).toNat)

/-- 60_exceptions R144: REG_RANGE for a Jacobian base above 13 or an affine base above 14, TBL_RANGE for win > 42 after that, and
neither unless the word passed the ILLEGAL checks. -/
def Obligations.RangeErrorsAreThoseOfBasesAndWindows : Prop :=
  (∀ rd ra, decode (encode (.pdbl rd ra)) = .reject .regRange ↔ 13 < rd.val ∨ 13 < ra.val) ∧
  (∀ rd ra rb sign sel zero, decode (encode (.padd rd ra rb sign sel zero)) = .reject .regRange ↔
    13 < rd.val ∨ 13 < ra.val ∨ 14 < rb.val) ∧
  (∀ rd ra, decode (encode (.pj2a rd ra)) = .reject .regRange ↔ 14 < rd.val ∨ 13 < ra.val) ∧
  (∀ rd ra, decode (encode (.pa2j rd ra)) = .reject .regRange ↔ 13 < rd.val ∨ 14 < ra.val) ∧
  (∀ rd ra, decode (encode (.smulg rd ra)) = .reject .regRange ↔ 13 < rd.val) ∧
  (∀ rd ra rb, decode (encode (.smulp rd ra rb)) = .reject .regRange ↔ 13 < rd.val ∨ 14 < rb.val) ∧
  (∀ rd win ent, decode (encode (.tblrd rd win ent)) = .reject .regRange ↔ 14 < rd.val) ∧
  (∀ rd win ent, decode (encode (.tblrd rd win ent)) = .reject .tblRange ↔ rd.val ≤ 14 ∧ 42 < win.val) ∧
  (∀ w, decode w = .reject .regRange ∨ decode w = .reject .tblRange →
    ∃ i : Instr, encode i = w ∧ ¬ i.WellFormed ∧ (∀ rd cid, i ≠ .ldc rd cid))

/-! ### Field commands -/

/-- 40_field R84: FMUL writes the unique c in [0, M) with c·R ≡ a·b (mod M). -/
def Obligations.FmulWritesTheMontgomeryProduct : Prop :=
  ∀ (m : Modulus) (rd ra rb : RegIdx) (a b : Elem) (s : State),
    SourceHolds s ra a → SourceHolds s rb b → a.toNat < modulus m → b.toNat < modulus m →
    ∃ t c, exec (.fmul m rd ra rb) s = .next t ∧ Holds t rd c ∧ c.toNat < modulus m ∧
      c.toNat * 2 ^ 256 % modulus m = a.toNat * b.toNat % modulus m

/-- 40_field R86: FADD writes (a + b) mod M. -/
def Obligations.FaddWritesTheModularSum : Prop :=
  ∀ (m : Modulus) (rd ra rb : RegIdx) (a b : Elem) (s : State),
    SourceHolds s ra a → SourceHolds s rb b → a.toNat < modulus m → b.toNat < modulus m →
    ∃ t c, exec (.fadd m rd ra rb) s = .next t ∧ Holds t rd c ∧ c.toNat = (a.toNat + b.toNat) % modulus m

/-- 40_field R88: FSUB writes (a − b) mod M. -/
def Obligations.FsubWritesTheModularDifference : Prop :=
  ∀ (m : Modulus) (rd ra rb : RegIdx) (a b : Elem) (s : State),
    SourceHolds s ra a → SourceHolds s rb b → a.toNat < modulus m → b.toNat < modulus m →
    ∃ t c, exec (.fsub m rd ra rb) s = .next t ∧ Holds t rd c ∧
      (c.toNat : Int) = ((a.toNat : Int) - (b.toNat : Int)) % (modulus m : Int)

/-- 40_field R90: FHLV writes a·2⁻¹ mod M, adding M before the shift when a is odd. -/
def Obligations.FhlvWritesTheHalf : Prop :=
  ∀ (m : Modulus) (rd ra : RegIdx) (a : Elem) (s : State), SourceHolds s ra a → a.toNat < modulus m →
    ∃ t c, exec (.fhlv m rd ra) s = .next t ∧ Holds t rd c ∧ c.toNat < modulus m ∧
      2 * c.toNat % modulus m = a.toNat ∧
      c.toNat = (if a.toNat % 2 = 1 then (a.toNat + modulus m) >>> 1 else a.toNat >>> 1)

/-- 40_field R92: FSEL writes F[ra] if F[rc] ≠ 0, else F[rb], all 256 bits, whatever the values. -/
def Obligations.FselWritesTheSelectedValue : Prop :=
  ∀ (rd ra rb rc : RegIdx) (a b c : Elem) (s : State), SourceHolds s ra a → SourceHolds s rb b → SourceHolds s rc c →
    ∃ t, exec (.fsel rd ra rb rc) s = .next t ∧ Holds t rd (if c ≠ 0 then a else b)

/-- 40_field R93, R94: FTOM writes x·R mod M, and FFRM writes the c·R⁻¹ mod M. -/
def Obligations.ConversionsWriteTheirRepresentations : Prop :=
  ∀ (m : Modulus) (rd ra : RegIdx) (a : Elem) (s : State), SourceHolds s ra a → a.toNat < modulus m →
    (∃ t c, exec (.ftom m rd ra) s = .next t ∧ Holds t rd c ∧ c.toNat = a.toNat * 2 ^ 256 % modulus m) ∧
    (∃ t c, exec (.ffrm m rd ra) s = .next t ∧ Holds t rd c ∧ c.toNat < modulus m ∧ c.toNat * 2 ^ 256 % modulus m = a.toNat)

/-- Property S7 of spec/95, through two commands: FFRM of what FTOM wrote gives x back, for every x < M. -/
def Obligations.FfrmUndoesFtom : Prop :=
  ∀ (m : Modulus) (rd ra re : RegIdx) (x c : Elem) (s t u : State), x.toNat < modulus m → SourceHolds s ra x →
    exec (.ftom m rd ra) s = .next t → Holds t rd c → SourceHolds u rd c →
    ∃ v, exec (.ffrm m re rd) u = .next v ∧ Holds v re x

/-- 42_inversion R113: FINV of a nonzero a < M writes the c < M with c ≡ a⁻¹·R² (mod M), so that its Montgomery product with a is ONE_M. -/
def Obligations.FinvWritesTheInverse : Prop :=
  ∀ (m : Modulus) (rd ra : RegIdx) (a : Elem) (s : State), SourceHolds s ra a → a.toNat < modulus m → a ≠ 0 →
    ∃ t c, exec (.finv m rd ra) s = .next t ∧ Holds t rd c ∧ c.toNat < modulus m ∧
      c.toNat * a.toNat % modulus m = 2 ^ 512 % modulus m ∧ (mm m c a).toNat = 2 ^ 256 % modulus m

/-- 40_field R95, R96: LDC writes the constant of its index, each the number its definition gives. -/
def Obligations.LdcWritesTheConstant : Prop :=
  ∀ (rd : RegIdx) (cid : Fin 16) (s : State), cid.val ≤ 10 →
    ∃ t, exec (.ldc rd cid) s = .next t ∧ Holds t rd (BitVec.ofNat 256 (constValue cid.val))

/-- 40_field R97: NOP completes and does nothing else. -/
def Obligations.NopOnlyCompletes : Prop :=
  ∀ s : State, exec .nop s = .next { s with busy := false, done := true, latch := none }

/-- 40_field R82, R83, 42_inversion R115: a source that is not canonical or not written, or a zero to invert, makes the destination
UNSPEC; the command completes and raises no error. -/
def Obligations.FieldPreconditionViolationsGiveUnspec : Prop :=
  ∀ (m : Modulus) (rd ra rb rc : RegIdx) (s : State),
    let bad := fun r => (s.source r).written ≠ allWritten ∨ modulus m ≤ (s.source r).value.toNat
    let unspec := fun i => ∃ t, exec i s = .next t ∧ HoldsUnspec t rd ∧ Completed s t
    (bad ra ∨ bad rb → unspec (.fmul m rd ra rb) ∧ unspec (.fadd m rd ra rb) ∧ unspec (.fsub m rd ra rb)) ∧
    (bad ra → unspec (.fhlv m rd ra) ∧ unspec (.ftom m rd ra) ∧ unspec (.ffrm m rd ra)) ∧
    (bad ra ∨ (s.source ra).value = 0 → unspec (.finv m rd ra)) ∧
    ((s.source ra).written ≠ allWritten ∨ (s.source rb).written ≠ allWritten ∨ (s.source rc).written ≠ allWritten →
      unspec (.fsel rd ra rb rc))

/-! ### Every command -/

/-- 10_state R38, 60_exceptions R141: every command completes in one step from every state: BUSY 0, DONE 1, latch empty, every destination
written; CTRL, the error record, CMD and the port as before. -/
def Obligations.EveryCommandCompletes : Prop :=
  ∀ (i : Instr) (s : State), i.WellFormed →
    ∃ t, exec i s = .next t ∧ Completed s t ∧ ∀ r ∈ destinations i, (t.regs[r]).written = allWritten

/-- 10_state R24, R37, R38, 40_field R81, 43_table R123: a command that answers a next state changes no register but its destinations,
changes the control state only as its completion does, and no command but TBLB, TBLRD and SMULG touches TBL or TBLV; those three build the
table if TBLV = 0 and leave it alone otherwise. -/
def Obligations.CommandsKeepWhatTheyDoNotName : Prop :=
  ∀ (i : Instr) (s t : State), exec i s = .next t →
    RegsKept (destinations i) s t ∧ Completed s t ∧
    ((i = .tblb ∨ (∃ rd win ent, i = .tblrd rd win ent) ∨ (∃ rd ra, i = .smulg rd ra)) →
      t.tblv = true ∧ t.tbl = (if s.tblv then s.tbl else baseTable)) ∧
    (i ≠ .tblb → (∀ rd win ent, i ≠ .tblrd rd win ent) → (∀ rd ra, i ≠ .smulg rd ra) → TableKept s t)

/-! ### Point commands -/

/-- 41_point R101, R102: PDBL writes the a = −3 Jacobian doubling of its source, each coordinate canonical: with A = 3(X − Z²)(X + Z²),
X3 = A² − 8XY², Y3 = A(4XY² − X3) − 8Y⁴, Z3 = 2YZ as residues. -/
def Obligations.PdblWritesTheJacobianDoubling : Prop :=
  ∀ (rd ra : RegIdx) (q : Jac) (s : State), rd.val ≤ 13 → ra.val ≤ 13 → SourceJac s ra q → CanonicalJac q →
    ∃ t q3, exec (.pdbl rd ra) s = .next t ∧ HoldsJac t rd q3 ∧ CanonicalJac q3 ∧
      let x := valP q.x; let y := valP q.y; let z := valP q.z
      let a := 3 * (x - z ^ 2) * (x + z ^ 2)
      valP q3.x = a ^ 2 - 8 * x * y ^ 2 ∧ valP q3.y = a * (4 * x * y ^ 2 - valP q3.x) - 8 * y ^ 4 ∧ valP q3.z = 2 * y * z

/-- 41_point R111: for a source that represents (x, y) with y ≠ 0, PDBL's result represents the tangent's point 2·(x, y). -/
def Obligations.PdblDoublesThePoint : Prop :=
  ∀ (rd ra : RegIdx) (q : Jac) (x y : ZMod (modulus .p)) (s : State), rd.val ≤ 13 → ra.val ≤ 13 → SourceJac s ra q → CanonicalJac q →
    Represents q x y → y ≠ 0 →
    ∃ t q3 x3 y3, exec (.pdbl rd ra) s = .next t ∧ HoldsJac t rd q3 ∧ Represents q3 x3 y3 ∧ TangentSum x y x3 y3

/-- 41_point R104 to R107: PADD writes P1 if sel = 0, else (X2, Y2s, ONEP) if zero = 0, else the mixed sum, with Y2s = (P − Y2) mod P when
sign = 1: with H = X2·Z1² − X1 and W = Y2s·Z1³ − Y1, X3 = W² − H³ − 2X1H², Y3 = W(X1H² − X3) − Y1H³, Z3 = Z1·H as residues. -/
def Obligations.PaddWritesTheSelectedPoint : Prop :=
  ∀ (rd ra rb : RegIdx) (sign sel zero : Bool) (q1 : Jac) (q2 : Aff) (s : State), rd.val ≤ 13 → ra.val ≤ 13 → rb.val ≤ 14 →
    SourceJac s ra q1 → SourceAff s rb q2 → CanonicalJac q1 → CanonicalAff q2 →
    ∃ t q3, exec (.padd rd ra rb sign sel zero) s = .next t ∧ HoldsJac t rd q3 ∧ CanonicalJac q3 ∧
      let y2s : Elem := if sign then BitVec.ofNat 256 ((modulus .p - q2.y.toNat) % modulus .p) else q2.y
      (sel = false → q3 = q1) ∧
      (sel = true → zero = false → q3 = ⟨q2.x, y2s, BitVec.ofNat 256 (2 ^ 256 % modulus .p)⟩) ∧
      (sel = true → zero = true →
        let h := valP q2.x * valP q1.z ^ 2 - valP q1.x
        let w := valP y2s * valP q1.z ^ 3 - valP q1.y
        valP q3.x = w ^ 2 - h ^ 3 - 2 * valP q1.x * h ^ 2 ∧
        valP q3.y = w * (valP q1.x * h ^ 2 - valP q3.x) - valP q1.y * h ^ 3 ∧ valP q3.z = valP q1.z * h)

/-- 41_point R111: for P1 representing (x1, y1) and P2 with another x-coordinate, PADD with sel = zero = 1 represents the chord's sum
of P1 and P2, of P1 and −P2 when sign = 1. -/
def Obligations.PaddAddsThePoints : Prop :=
  ∀ (rd ra rb : RegIdx) (sign : Bool) (q1 : Jac) (q2 : Aff) (x1 y1 : ZMod (modulus .p)) (s : State),
    rd.val ≤ 13 → ra.val ≤ 13 → rb.val ≤ 14 → SourceJac s ra q1 → SourceAff s rb q2 → CanonicalJac q1 → CanonicalAff q2 →
    Represents q1 x1 y1 → valP q2.x ≠ x1 →
    ∃ t q3 x3 y3, exec (.padd rd ra rb sign true true) s = .next t ∧ HoldsJac t rd q3 ∧ Represents q3 x3 y3 ∧
      ChordSum x1 y1 (valP q2.x) (if sign then -valP q2.y else valP q2.y) x3 y3

/-- 41_point R107, R108: the exact formula values on exceptional inputs: PDBL of (0, 0, 0) and PADD to it give (0, 0, 0); PADD of a point to
itself gives (0, 0, 0), of its negation a point with Z = 0. -/
def Obligations.ExceptionalPointInputsGiveTheFormulaValues : Prop :=
  ∀ (rd ra rb : RegIdx) (s : State), rd.val ≤ 13 → ra.val ≤ 13 → rb.val ≤ 14 →
    (SourceJac s ra ⟨0, 0, 0⟩ → ∃ t, exec (.pdbl rd ra) s = .next t ∧ HoldsJac t rd ⟨0, 0, 0⟩) ∧
    (∀ (sign : Bool) (q : Aff), SourceJac s ra ⟨0, 0, 0⟩ → SourceAff s rb q → CanonicalAff q →
      ∃ t, exec (.padd rd ra rb sign true true) s = .next t ∧ HoldsJac t rd ⟨0, 0, 0⟩) ∧
    (∀ q : Aff, SourceJac s ra ⟨q.x, q.y, BitVec.ofNat 256 (2 ^ 256 % modulus .p)⟩ → SourceAff s rb q → CanonicalAff q →
      (∃ t, exec (.padd rd ra rb false true true) s = .next t ∧ HoldsJac t rd ⟨0, 0, 0⟩) ∧
      (∃ t q3, exec (.padd rd ra rb true true true) s = .next t ∧ HoldsJac t rd q3 ∧ q3.z = 0))

/-- 41_point R109: PJ2A writes the canonical pair with val(x)·val(Z)² = val(X) and val(y)·val(Z)³ = val(Y). -/
def Obligations.Pj2aWritesTheAffinePoint : Prop :=
  ∀ (rd ra : RegIdx) (q : Jac) (s : State), rd.val ≤ 14 → ra.val ≤ 13 → SourceJac s ra q → CanonicalJac q → q.z ≠ 0 →
    ∃ t q3, exec (.pj2a rd ra) s = .next t ∧ HoldsAff t rd q3 ∧ CanonicalAff q3 ∧
      valP q3.x * valP q.z ^ 2 = valP q.x ∧ valP q3.y * valP q.z ^ 3 = valP q.y

/-- 41_point R110: PA2J moves any two words and sets Z to R mod P. -/
def Obligations.Pa2jMovesAndSetsZ : Prop :=
  ∀ (rd ra : RegIdx) (q : Aff) (s : State), rd.val ≤ 13 → ra.val ≤ 14 → SourceAff s ra q →
    ∃ t, exec (.pa2j rd ra) s = .next t ∧ HoldsJac t rd ⟨q.x, q.y, BitVec.ofNat 256 (2 ^ 256 % modulus .p)⟩

/-- 41_point R100, R109: a coordinate that is not written, or (but for PA2J) not canonical, or PJ2A's Z = 0, makes every destination
UNSPEC, at every base the command admits and for every flag combination of PADD; the command completes and raises no error. -/
def Obligations.PointPreconditionViolationsGiveUnspec : Prop :=
  ∀ (rd ra rb : RegIdx) (sign sel zero : Bool) (s : State),
    let unwritten := fun r => (s.source r).written ≠ allWritten
    let bad := fun r => unwritten r ∨ modulus .p ≤ (s.source r).value.toNat
    let unspec3 := fun i => ∃ t, exec i s = .next t ∧ HoldsUnspec t rd ∧ HoldsUnspec t (rd + 1) ∧ HoldsUnspec t (rd + 2) ∧ Completed s t
    (rd.val ≤ 13 → ra.val ≤ 13 → bad ra ∨ bad (ra + 1) ∨ bad (ra + 2) → unspec3 (.pdbl rd ra)) ∧
    (rd.val ≤ 13 → ra.val ≤ 13 → rb.val ≤ 14 → bad ra ∨ bad (ra + 1) ∨ bad (ra + 2) ∨ bad rb ∨ bad (rb + 1) →
      unspec3 (.padd rd ra rb sign sel zero)) ∧
    (rd.val ≤ 13 → ra.val ≤ 14 → unwritten ra ∨ unwritten (ra + 1) → unspec3 (.pa2j rd ra)) ∧
    (rd.val ≤ 14 → ra.val ≤ 13 → bad ra ∨ bad (ra + 1) ∨ bad (ra + 2) ∨ (s.source (ra + 2)).value = 0 →
      ∃ t, exec (.pj2a rd ra) s = .next t ∧ HoldsUnspec t rd ∧ HoldsUnspec t (rd + 1) ∧ Completed s t)

/-! ### Table commands -/

/-- 43_table R120: TBLB builds the table and sets TBLV if TBLV = 0, and otherwise only completes. -/
def Obligations.TblbBuildsOnce : Prop :=
  ∀ s : State, ∃ t, exec .tblb s = .next t ∧ Completed s t ∧ t.regs = s.regs ∧ t.drawn = s.drawn ∧ t.tblv = true ∧
    (s.tblv = false → t.tbl = baseTable) ∧ (s.tblv = true → t.tbl = s.tbl)

/-- 43_table R121: TBLRD writes the entry of the base-point table, building the table first if TBLV = 0. -/
def Obligations.TblrdWritesTheEntry : Prop :=
  ∀ (rd : RegIdx) (win : Fin 64) (ent : Fin 32) (s : State), rd.val ≤ 14 → win.val ≤ 42 → (s.tblv = true → s.tbl = baseTable) →
    ∃ t, exec (.tblrd rd win ent) s = .next t ∧ HoldsAff t rd (entry win.val ent.val) ∧ t.tblv = true ∧ t.tbl = baseTable

/-- 10_state R37, 43_table R118: the table is 43 rows of 32 canonical points. -/
def Obligations.BaseTableIsCanonicalAndFull : Prop :=
  baseTable.length = 43 ∧ ∀ row ∈ baseTable, row.length = 32 ∧ ∀ q ∈ row, CanonicalAff q

/-- 43_table R118: the table holds the multiples (e + 1)·2^(6i) of G in Montgomery affine form: entry 0 of row 0 is G; entry 1 of a row is its
entry 0 doubled and every later entry is the one before plus entry 0; entry 0 of the next row is twice entry 31, by the affine group law. -/
def Obligations.BaseTableHoldsTheMultiplesOfTheGenerator : Prop :=
  (valP (entry 0 0).x = (Config.gx : ZMod (modulus .p)) ∧ valP (entry 0 0).y = (Config.gy : ZMod (modulus .p))) ∧
  (∀ i < 43, TangentSum (valP (entry i 0).x) (valP (entry i 0).y) (valP (entry i 1).x) (valP (entry i 1).y)) ∧
  (∀ i < 43, ∀ e, 1 ≤ e → e < 31 →
    ChordSum (valP (entry i e).x) (valP (entry i e).y) (valP (entry i 0).x) (valP (entry i 0).y)
      (valP (entry i (e + 1)).x) (valP (entry i (e + 1)).y)) ∧
  (∀ i < 42, TangentSum (valP (entry i 31).x) (valP (entry i 31).y) (valP (entry (i + 1) 0).x) (valP (entry (i + 1) 0).y))

/-! ### Scalar commands -/

/-- 44_scalar R127: the Booth digit is ⌈u/2⌉ − 2^w·u[w], its magnitude is at most 2^(w−1), and its sign bit is u[w]. -/
def Obligations.BoothDigitIsTheSignedDigit : Prop :=
  ∀ w u : Nat, 1 ≤ w → u < 2 ^ (w + 1) →
    digitValue (booth w u) = ((u + 1) / 2 : Nat) - 2 ^ w * ((u / 2 ^ w % 2 : Nat) : Int) ∧ (booth w u).mag ≤ 2 ^ (w - 1) ∧
    ((booth w u).sign = true ↔ u / 2 ^ w % 2 = 1)

/-- 44_scalar R128, R129: the reduction is k mod N, and the digits of both window widths add up to it. -/
def Obligations.BoothDigitsSumToTheScalar : Prop :=
  ∀ k : Elem,
    reduceScalar k = k.toNat % Config.n ∧
    ((List.range 43).map (fun i => digitValue (booth 6 (window 6 i (reduceScalar k))) * 2 ^ (6 * i))).sum =
      ((k.toNat % Config.n : Nat) : Int) ∧
    ((List.range 52).map (fun i => digitValue (booth 5 (window 5 i (reduceScalar k))) * 2 ^ (5 * i))).sum =
      ((k.toNat % Config.n : Nat) : Int)

/-- 43_table R126: the lookup returns row[m − 1], and (0, 0) for m = 0. -/
def Obligations.CtLookupReturnsTheEntry : Prop :=
  ∀ row : List Aff, ctLookup row 0 = ⟨0, 0⟩ ∧ ∀ (m : Nat) (h : m < row.length), ctLookup row (m + 1) = row[m]

/-- 44_scalar R128 to R132: SMULG writes the digit-by-digit sum of the table entries of k mod N, for every written k, canonical or not, and
builds the table first if TBLV = 0. -/
def Obligations.SmulgWritesTheTableProduct : Prop :=
  ∀ (rd ra : RegIdx) (k : Elem) (s : State), rd.val ≤ 13 → SourceHolds s ra k → (s.tblv = true → s.tbl = baseTable) →
    ∃ t, exec (.smulg rd ra) s = .next t ∧ HoldsJac t rd (tableProduct (k.toNat % Config.n)) ∧ t.tblv = true ∧ t.tbl = baseTable

/-- 44_scalar R132, 60_exceptions R149: for a multiple of N SMULG writes (0, 0, 0), for a scalar j·2^(6i) with one nonzero digit the table
entry with Z = R mod P, and for a scalar not fully written UNSPEC in all three destinations, the table built all the same. -/
def Obligations.SmulgOnSpecialScalars : Prop :=
  ∀ (rd ra : RegIdx) (s : State), rd.val ≤ 13 → (s.tblv = true → s.tbl = baseTable) →
    (∀ k : Elem, SourceHolds s ra k → k.toNat % Config.n = 0 → ∃ t, exec (.smulg rd ra) s = .next t ∧ HoldsJac t rd ⟨0, 0, 0⟩) ∧
    (∀ (k : Elem) (i j : Nat), SourceHolds s ra k → 1 ≤ j → j < 32 → j * 2 ^ (6 * i) < Config.n → k.toNat = j * 2 ^ (6 * i) →
      ∃ t, exec (.smulg rd ra) s = .next t ∧
        HoldsJac t rd ⟨(entry i (j - 1)).x, (entry i (j - 1)).y, BitVec.ofNat 256 (2 ^ 256 % modulus .p)⟩) ∧
    ((s.source ra).written ≠ allWritten →
      ∃ t, exec (.smulg rd ra) s = .next t ∧ HoldsUnspec t rd ∧ HoldsUnspec t (rd + 1) ∧ HoldsUnspec t (rd + 2) ∧ Completed s t ∧
        t.tblv = true ∧ t.tbl = baseTable)

/-- 44_scalar R134 to R137, 60_exceptions R149: SMULP writes the digit-by-digit value over its table of 16 multiples when the scalar and
the point are written, the point is canonical and every J_2 .. J_16 has Z ≠ 0, and UNSPEC in all three destinations (log 1) when the scalar
or the point is not written, the point is not canonical or some Z is 0; it completes in every case. -/
def Obligations.SmulpWritesTheProductOrUnspec : Prop :=
  ∀ (rd ra rb : RegIdx) (s : State), rd.val ≤ 13 → rb.val ≤ 14 →
    (∀ (k : Elem) (q : Aff), SourceHolds s ra k → SourceAff s rb q → CanonicalAff q → (∀ j ∈ jacMultiples 16 q, j.z ≠ 0) →
      ∃ t, exec (.smulp rd ra rb) s = .next t ∧ HoldsJac t rd (windowProduct (affMultiples 16 q) (k.toNat % Config.n))) ∧
    ((s.source ra).written ≠ allWritten ∨
        (∀ q : Aff, SourceAff s rb q → CanonicalAff q → ∃ j ∈ jacMultiples 16 q, j.z = 0) →
      ∃ t, exec (.smulp rd ra rb) s = .next t ∧ HoldsUnspec t rd ∧ HoldsUnspec t (rd + 1) ∧ HoldsUnspec t (rd + 2) ∧ Completed s t)

/-- 44_scalar R134, 41_point R111: the small table of SMULP holds the multiples of its point: entry 0 is the point, entry 1 its double and
every later entry the one before plus the point, by the affine group law. -/
def Obligations.SmallTableHoldsTheMultiples : Prop :=
  ∀ (q : Aff) (n : Nat), 2 ≤ n → CanonicalAff q → (∀ j ∈ jacMultiples n q, j.z ≠ 0) →
    let m := fun e => (affMultiples n q).getD e ⟨0, 0⟩
    (affMultiples n q).length = n ∧ m 0 = q ∧ TangentSum (valP q.x) (valP q.y) (valP (m 1).x) (valP (m 1).y) ∧
    ∀ e, 1 ≤ e → e + 1 < n →
      ChordSum (valP (m e).x) (valP (m e).y) (valP q.x) (valP q.y) (valP (m (e + 1)).x) (valP (m (e + 1)).y)

/-- 44_scalar R136: where its table exists, SMULP writes (0, 0, 0) for a multiple of N and (x, y, R mod P) for k ≡ 1 (mod N). -/
def Obligations.SmulpOnZeroAndOne : Prop :=
  ∀ (rd ra rb : RegIdx) (k : Elem) (q : Aff) (s : State), rd.val ≤ 13 → rb.val ≤ 14 → SourceHolds s ra k → SourceAff s rb q →
    CanonicalAff q → (∀ j ∈ jacMultiples 16 q, j.z ≠ 0) →
    (k.toNat % Config.n = 0 → ∃ t, exec (.smulp rd ra rb) s = .next t ∧ HoldsJac t rd ⟨0, 0, 0⟩) ∧
    (k.toNat % Config.n = 1 →
      ∃ t, exec (.smulp rd ra rb) s = .next t ∧ HoldsJac t rd ⟨q.x, q.y, BitVec.ofNat 256 (2 ^ 256 % modulus .p)⟩)

/-! ### Reset and steps -/

/-- 70_reset R161 with the values of 10_state R40: the reset input, in one step from every state, abandons a command in flight and leaves
CTRL, STATUS, CMD, ERRINFO, TBLV and IRQ at 0, the latch empty and every written bit clear; `State.reset` is such a state. -/
def Obligations.ResetInputClearsTheMachine : Prop :=
  let cleared := fun t : State =>
    t.ctrlWord = 0 ∧ t.statusWord = 0 ∧ t.cmd = 0 ∧ t.errInfo = 0 ∧ t.busy = false ∧ t.done = false ∧ t.err = false ∧
      t.tblv = false ∧ t.latch = none ∧ t.irq = false ∧ ∀ r : RegIdx, (t.regs[r]).written = 0
  cleared State.reset ∧
  ∀ (s : State) (rest : List PortEvent), ∃ t, step { s with port := .reset :: rest } = .next t ∧ cleared t ∧ t.port = rest

/-- 10_state R38: when it is the engine's turn and the latch holds a word that decodes to a command, the step is that command's meaning at
the state with the turn taken from the port. -/
def Obligations.StepRunsTheLatchedCommand : Prop :=
  ∀ (s : State) (l : Latch) (i : Instr) (rest : List PortEvent), s.latch = some l → decode l.word = .accept i →
    step { s with port := .complete :: rest } = exec i { s with port := rest, reply := none } ∧
    step { s with port := [] } = exec i { s with port := [], reply := none }

/-- The host's placing of a word (log 16): the very next step after `withFetchWord` is the command's meaning, its sources latched from the
register file. -/
def Obligations.PlacedWordRunsNext : Prop :=
  ∀ (s : State) (w : Nat) (i : Instr), decodeTableWord 32 w = some i →
    ∃ u, step (s.withFetchWord 32 w) = exec i u ∧ u.regs = s.regs ∧ u.tbl = s.tbl ∧ u.tblv = s.tblv ∧ u.port = s.port ∧
      ∀ r ∈ sources i, u.source r = s.regs[r]

/-- The invariant holds after reset. -/
def Obligations.InvariantHoldsAtReset : Prop := State.reset.Inv

/-- Every step keeps the invariant: the latch is empty exactly when BUSY = 0 and holds an accepted command with its sources; TBLV = 1 means
TBL holds the base-point table; ERRCODE and ERRINFO are 0 when ERR = 0. -/
def Obligations.EveryStepKeepsTheInvariant : Prop :=
  ∀ s t : State, s.Inv → step s = .next t → t.Inv

/-- 60_exceptions R141: from every state that meets the invariant, every step goes on: no access, no command and no reset stops the machine. -/
def Obligations.NoStepStops : Prop :=
  ∀ s : State, s.Inv → ∃ t, step s = .next t

/-- 70_reset R171 as the model takes it (log 6), 10_state R38: in a state of the invariant with a command in flight, the engine's turn, or an
empty port, completes it. -/
def Obligations.CommandInFlightCompletes : Prop :=
  ∀ (s : State) (rest : List PortEvent), s.Inv → s.busy = true → s.port = [] ∨ s.port = .complete :: rest →
    ∃ t, step s = .next t ∧ t.busy = false ∧ t.done = true ∧ t.latch = none

/-! ### Host accesses -/

/-- 10_state R34, R38: a word that decodes, written to CMD while BUSY = 0, is accepted: BUSY, CMD and the latch, which holds every source as
the register file has it; nothing else changes. -/
def Obligations.CmdWriteIssuesTheCommand : Prop :=
  ∀ (s : State) (w : Word32) (i : Instr) (rest : List PortEvent), s.busy = false → decode w = .accept i →
    ∃ t l, step (arriving s ⟨.bits32, 0x014, .write w⟩ rest) = .next t ∧ t.busy = true ∧ t.cmd = w ∧ t.latch = some l ∧ l.word = w ∧
      (∀ r ∈ sources i, t.source r = s.regs[r]) ∧
      t.regs = s.regs ∧ t.ie = s.ie ∧ t.done = s.done ∧ t.err = s.err ∧ t.errCode = s.errCode ∧ t.errInfo = s.errInfo ∧
      t.tblv = s.tblv ∧ t.tbl = s.tbl ∧ t.port = rest

/-- 60_exceptions R145, 10_state R34: a word that fails decode is rejected with the error decode names and its word, the first error is kept,
and nothing else changes. -/
def Obligations.CmdWriteRejectsOtherWords : Prop :=
  ∀ (s : State) (w : Word32) (e : DecodeError) (rest : List PortEvent), s.busy = false → decode w = .reject e →
    ∃ t, step (arriving s ⟨.bits32, 0x014, .write w⟩ rest) = .next t ∧ t.port = rest ∧
      OnlyError (match e with | .illegal => .illegal | .regRange => .regRange | .tblRange => .tblRange) w s t

/-- 60_exceptions R146, 20_memory R51: while BUSY = 1 a CMD write is dropped with a BUSY error and its word, a register-window write with a
BUSY error and its offset; writes to CTRL and STATUS raise no error; a register-window read returns 0; no read raises a BUSY error. -/
def Obligations.BusyDropsWrites : Prop :=
  ∀ (s : State) (v : Word32) (i : RegIdx) (t : Fin 8) (rest : List PortEvent), s.busy = true →
    let off : Offset := BitVec.ofNat 12 (0x100 + 32 * i.val + 4 * t.val)
    (∃ u, step (arriving s ⟨.bits32, 0x014, .write v⟩ rest) = .next u ∧ OnlyError .busy v s u) ∧
    (∃ u, step (arriving s ⟨.bits32, off, .write v⟩ rest) = .next u ∧
      OnlyError .busy (BitVec.ofNat 32 (0x100 + 32 * i.val + 4 * t.val)) s u) ∧
    (∃ u, step (arriving s ⟨.bits32, off, .read⟩ rest) = .next u ∧ u.reply = some 0 ∧ NothingChanged s u) ∧
    (∃ u, step (arriving s ⟨.bits32, 0x00C, .write v⟩ rest) = .next u ∧ u.ie = v.getLsbD 0 ∧ u.err = s.err ∧ u.errCode = s.errCode ∧
      u.errInfo = s.errInfo) ∧
    (∃ u, step (arriving s ⟨.bits32, 0x010, .write v⟩ rest) = .next u ∧ (s.err = false → u.err = false)) ∧
    (∀ a : HostAccess, a.kind = .read →
      ∃ u, step (arriving s a rest) = .next u ∧ (u.errCode = .busy → s.errCode = .busy) ∧ u.regs = s.regs)

/-- 60_exceptions R147, R148, 20_memory R48, R55: an access not 32 bits wide, at an offset that is no multiple of 4 or at an unmapped
offset raises BADACC with the offset, BUSY or not; a read returns 0; nothing else changes. -/
def Obligations.BadAccessesRaiseBadacc : Prop :=
  ∀ (s : State) (a : HostAccess) (rest : List PortEvent), BadAccess a →
    ∃ t, step (arriving s a rest) = .next t ∧ OnlyError .badAcc (BitVec.ofNat 32 a.off.toNat) s t ∧
      (a.kind = .read → t.reply = some 0) ∧ t.port = rest

/-- 20_memory R52: a good read has no side effect, and is answered with a word. -/
def Obligations.GoodReadsHaveNoSideEffect : Prop :=
  ∀ (s : State) (a : HostAccess) (rest : List PortEvent), a.kind = .read → ¬ BadAccess a →
    ∃ t w, step (arriving s a rest) = .next t ∧ NothingChanged s t ∧ t.reply = some w ∧ t.port = rest

/-- 20_memory R54, 10_state R29 to R35: what the control and status registers read, BUSY or not: the hard-wired words, IE in bit 0 of CTRL, the fields
of STATUS at their places, the last accepted command, ERRINFO. -/
def Obligations.ControlRegistersRead : Prop :=
  ∀ (s : State) (rest : List PortEvent),
    let word := fun off w => ∃ t, step (arriving s ⟨.bits32, off, .read⟩ rest) = .next t ∧ t.reply = some w
    let bit := fun b : Bool => if b then 1 else 0
    let code := match s.errCode with | .none => 0 | .illegal => 1 | .regRange => 2 | .tblRange => 3 | .busy => 4 | .badAcc => 5
    word 0x000 0x50323536 ∧ word 0x004 0x00010000 ∧ word 0x008 0x3452B610 ∧ word 0x00C (BitVec.ofNat 32 (bit s.ie)) ∧
    word 0x010 (BitVec.ofNat 32 (bit s.busy + 2 * bit s.done + 4 * bit s.err + 8 * bit s.tblv + 256 * code)) ∧
    word 0x014 s.cmd ∧ word 0x018 s.errInfo

/-- 20_memory R50, 10_state R25: with BUSY = 0 a 32-bit write of word t of F[i] sets bits [255 − 32t : 224 − 32t] and W[i][t], and no other
word or written bit of any register; a read of the word then returns what was written. -/
def Obligations.RegisterWindowWordsAreBigEndian : Prop :=
  ∀ (s : State) (i : RegIdx) (t : Fin 8) (v : Word32) (rest : List PortEvent), s.busy = false →
    let off : Offset := BitVec.ofNat 12 (0x100 + 32 * i.val + 4 * t.val)
    ∃ u, step (arriving s ⟨.bits32, off, .write v⟩ rest) = .next u ∧
      (u.regs[i]).value.extractLsb' (224 - 32 * t.val) 32 = v ∧ (u.regs[i]).written.getLsbD t.val = true ∧
      (∀ j : RegIdx, j ≠ i → u.regs[j] = s.regs[j]) ∧
      (∀ t' : Fin 8, t' ≠ t →
        (u.regs[i]).value.extractLsb' (224 - 32 * t'.val) 32 = (s.regs[i]).value.extractLsb' (224 - 32 * t'.val) 32 ∧
        (u.regs[i]).written.getLsbD t'.val = (s.regs[i]).written.getLsbD t'.val) ∧
      u.busy = s.busy ∧ u.done = s.done ∧ u.err = s.err ∧ u.errCode = s.errCode ∧ u.errInfo = s.errInfo ∧ u.tblv = s.tblv ∧
      u.tbl = s.tbl ∧ u.cmd = s.cmd ∧ u.ie = s.ie ∧ u.latch = s.latch ∧
      ∀ rest', ∃ x, step (arriving u ⟨.bits32, off, .read⟩ rest') = .next x ∧ x.reply = some v

/-- 10_state R28, R29, 20_memory R49: a write to ID, VERSION, CAPS or ERRINFO is ignored and is no error; a write to CTRL sets IE from bit 0
and changes nothing else; BUSY or not. -/
def Obligations.ReadOnlyAndControlWrites : Prop :=
  ∀ (s : State) (v : Word32) (rest : List PortEvent),
    let ignored := fun off => ∃ t, step (arriving s ⟨.bits32, off, .write v⟩ rest) = .next t ∧ NothingChanged s t ∧ t.port = rest
    ignored 0x000 ∧ ignored 0x004 ∧ ignored 0x008 ∧ ignored 0x018 ∧
    ∃ t, step (arriving s ⟨.bits32, 0x00C, .write v⟩ rest) = .next t ∧ t.port = rest ∧ NothingChanged { s with ie := v.getLsbD 0 } t

/-- 10_state R30: a write to STATUS clears DONE where bit 1 is 1 and ERR, ERRCODE and ERRINFO together where bit 2 is 1, and changes nothing
else, BUSY or not. -/
def Obligations.StatusWritesOneToClear : Prop :=
  ∀ (s : State) (v : Word32) (rest : List PortEvent),
    ∃ t, step (arriving s ⟨.bits32, 0x010, .write v⟩ rest) = .next t ∧
      t.done = (s.done && !v.getLsbD 1) ∧ t.err = (s.err && !v.getLsbD 2) ∧
      t.errCode = (if v.getLsbD 2 then .none else s.errCode) ∧ t.errInfo = (if v.getLsbD 2 then 0 else s.errInfo) ∧
      t.regs = s.regs ∧ t.ie = s.ie ∧ t.busy = s.busy ∧ t.tblv = s.tblv ∧ t.tbl = s.tbl ∧ t.cmd = s.cmd ∧ t.latch = s.latch

/-- 60_exceptions R150, R151: IRQ = IE ∧ (DONE ∨ ERR); a write of 1 to both STATUS.DONE and STATUS.ERR drops it in the same step, and a write of 0 to
CTRL.IE masks it and clears neither DONE nor ERR. -/
def Obligations.InterruptIsALevelAndClears : Prop :=
  (∀ s : State, s.irq = true ↔ s.ie = true ∧ (s.done = true ∨ s.err = true)) ∧
  (∀ (s : State) (v : Word32) (rest : List PortEvent), v.getLsbD 1 = true → v.getLsbD 2 = true →
    ∃ t, step (arriving s ⟨.bits32, 0x010, .write v⟩ rest) = .next t ∧ t.irq = false) ∧
  (∀ (s : State) (v : Word32) (rest : List PortEvent), v.getLsbD 0 = false →
    ∃ t, step (arriving s ⟨.bits32, 0x00C, .write v⟩ rest) = .next t ∧ t.irq = false ∧ t.done = s.done ∧ t.err = s.err)

/-! ### Rules about every step -/

/-- 60_exceptions R145, R152, 10_state R35: while ERR stays 1 no step changes the first error's code and information. -/
def Obligations.FirstErrorIsKept : Prop :=
  ∀ s t : State, step s = .next t → s.err = true → t.err = true → t.errCode = s.errCode ∧ t.errInfo = s.errInfo

/-- 43_table R124, 10_state R33: once TBLV = 1, no step but a reset changes TBL or clears TBLV. -/
def Obligations.TableIsImmutableOnceValid : Prop :=
  ∀ s t : State, step s = .next t → s.tblv = true → (∀ rest, s.port ≠ .reset :: rest) → t.tblv = true ∧ t.tbl = s.tbl

/-- 10_state R24: a register changes only by a host write of one of its words while BUSY = 0, by the completion of a command of which
it is a destination, or by reset. -/
def Obligations.RegistersChangeOnlyByTheirWriters : Prop :=
  ∀ (s t : State) (r : RegIdx), step s = .next t → t.regs[r] ≠ s.regs[r] →
    (s.busy = false ∧ ∃ (w : Fin 8) (v : Word32) (rest : List PortEvent),
      s.port = .access ⟨.bits32, BitVec.ofNat 12 (0x100 + 32 * r.val + 4 * w.val), .write v⟩ :: rest) ∨
    (∃ (l : Latch) (i : Instr), s.latch = some l ∧ decode l.word = .accept i ∧ r ∈ destinations i ∧
      (s.port = [] ∨ ∃ rest, s.port = .complete :: rest)) ∨
    (∃ rest, s.port = .reset :: rest)

/-- 10_state R38, 60_exceptions R146: while BUSY = 1 no host access changes a register, TBL, TBLV, BUSY, the latch or the CMD read value, or sets
DONE: between acceptance and completion there is no partial result. -/
def Obligations.NoAccessTouchesTheCommandInFlight : Prop :=
  ∀ (s t : State) (a : HostAccess) (rest : List PortEvent), s.busy = true → step (arriving s a rest) = .next t →
    t.regs = s.regs ∧ t.tbl = s.tbl ∧ t.tblv = s.tblv ∧ t.busy = true ∧ t.latch = s.latch ∧ t.cmd = s.cmd ∧
    (t.done = true → s.done = true)

/-- CTRL, STATUS, CMD, ERRINFO and the command in flight never depend on data: two states alike in all but register contents, latched
values, TBL and free values stay so in every step, or stop alike. From 60_exceptions R160, the spec's own inference from R142 and R149: no
error depends on register contents. -/
def Obligations.ControlStateIsIndependentOfData : Prop :=
  ∀ s t : State, SamePublic s t → SamePublicOutcome (step s) (step t)
end

