-- ==== Sys2Proof/Laws/Field.lean ====
section
/-!
SUPPORT. What each operation of modular arithmetic computes, as a number: one lemma per operation, and the bounds that make its narrowing
to 256 bits harmless.
-/
namespace Sys2Proof.Machine

theorem modulus_pos (m : Modulus) : 0 < modulus m := by cases m <;> decide

theorem modulus_gt_one (m : Modulus) : 1 < modulus m := by cases m <;> decide

theorem modulus_odd (m : Modulus) : modulus m % 2 = 1 := by cases m <;> decide

theorem modulus_lt_radix (m : Modulus) : modulus m < 2 ^ 256 := by cases m <;> decide

theorem radix_lt_two_moduli (m : Modulus) : 2 ^ 256 < 2 * modulus m := by cases m <;> decide

/-- `radixInv` inverts R (00_scope R9). -/
theorem radixInv_spec (m : Modulus) : 2 ^ 256 * radixInv m % modulus m = 1 := by cases m <;> decide +kernel

/-- A number below a modulus is narrowed to 256 bits without change. -/
theorem toNat_ofNat_of_lt {x : Nat} {m : Modulus} (h : x < modulus m) : (BitVec.ofNat 256 x).toNat = x := by
  rw [BitVec.toNat_ofNat, Nat.mod_eq_of_lt (Nat.lt_trans h (modulus_lt_radix m))]

@[simp] theorem canonical_iff (m : Modulus) (a : Elem) : canonical m a = true ↔ a.toNat < modulus m := by simp [canonical]

theorem mm_toNat (m : Modulus) (a b : Elem) : (mm m a b).toNat = a.toNat * b.toNat * radixInv m % modulus m :=
  toNat_ofNat_of_lt (Nat.mod_lt _ (modulus_pos m))

theorem mm_lt (m : Modulus) (a b : Elem) : (mm m a b).toNat < modulus m := by
  rw [mm_toNat]; exact Nat.mod_lt _ (modulus_pos m)

theorem toMont_toNat (m : Modulus) (a : Elem) : (toMont m a).toNat = a.toNat * 2 ^ 256 % modulus m :=
  toNat_ofNat_of_lt (Nat.mod_lt _ (modulus_pos m))

theorem fromMont_toNat (m : Modulus) (a : Elem) : (fromMont m a).toNat = a.toNat * radixInv m % modulus m :=
  toNat_ofNat_of_lt (Nat.mod_lt _ (modulus_pos m))

theorem addm_toNat {m : Modulus} {a b : Elem} (ha : a.toNat < modulus m) (hb : b.toNat < modulus m) :
    (addm m a b).toNat = (a.toNat + b.toNat) % modulus m := by
  simp only [addm]
  split
  · rw [toNat_ofNat_of_lt (m := m) (by omega), Nat.mod_eq_sub_mod (by omega), Nat.mod_eq_of_lt (by omega)]
  · rw [toNat_ofNat_of_lt (m := m) (by omega), Nat.mod_eq_of_lt (by omega)]

theorem subm_toNat {m : Modulus} {a b : Elem} (ha : a.toNat < modulus m) (hb : b.toNat < modulus m) :
    (subm m a b).toNat = (a.toNat + modulus m - b.toNat) % modulus m := by
  unfold subm
  split
  · rw [toNat_ofNat_of_lt (m := m) (by omega), show a.toNat + modulus m - b.toNat = a.toNat - b.toNat + modulus m by omega,
      Nat.add_mod_right, Nat.mod_eq_of_lt (by omega)]
  · rw [toNat_ofNat_of_lt (m := m) (by omega), Nat.mod_eq_of_lt (by omega)]

theorem halfm_toNat {m : Modulus} {a : Elem} (ha : a.toNat < modulus m) :
    (halfm m a).toNat = if a.toNat % 2 = 1 then (a.toNat + modulus m) / 2 else a.toNat / 2 := by
  unfold halfm
  split <;> exact toNat_ofNat_of_lt (m := m) (by omega)

theorem addm_lt {m : Modulus} {a b : Elem} (ha : a.toNat < modulus m) (hb : b.toNat < modulus m) :
    (addm m a b).toNat < modulus m := by
  rw [addm_toNat ha hb]; exact Nat.mod_lt _ (modulus_pos m)

theorem subm_lt {m : Modulus} {a b : Elem} (ha : a.toNat < modulus m) (hb : b.toNat < modulus m) :
    (subm m a b).toNat < modulus m := by
  rw [subm_toNat ha hb]; exact Nat.mod_lt _ (modulus_pos m)

theorem halfm_lt {m : Modulus} {a : Elem} (ha : a.toNat < modulus m) : (halfm m a).toNat < modulus m := by
  rw [halfm_toNat ha]; split <;> omega

/-- Doubling undoes halving (40_field R91). -/
theorem two_mul_halfm {m : Modulus} {a : Elem} (ha : a.toNat < modulus m) : 2 * (halfm m a).toNat % modulus m = a.toNat := by
  have hodd := modulus_odd m
  rw [halfm_toNat ha]
  split
  · rw [show 2 * ((a.toNat + modulus m) / 2) = a.toNat + modulus m by omega, Nat.add_mod_right, Nat.mod_eq_of_lt ha]
  · rw [show 2 * (a.toNat / 2) = a.toNat by omega, Nat.mod_eq_of_lt ha]

/-- Multiplying a Montgomery product by R gives the plain product (40_field R84). -/
theorem mm_mul_radix (m : Modulus) (a b : Elem) :
    (mm m a b).toNat * 2 ^ 256 % modulus m = a.toNat * b.toNat % modulus m := by
  rw [mm_toNat, Nat.mul_mod, Nat.mod_mod, ← Nat.mul_mod,
    show a.toNat * b.toNat * radixInv m * 2 ^ 256 = a.toNat * b.toNat * (2 ^ 256 * radixInv m) by
      rw [Nat.mul_assoc, Nat.mul_comm (radixInv m)],
    Nat.mul_mod, radixInv_spec, Nat.mul_one, Nat.mod_mod]

/-- `powMod` is modular exponentiation. -/
theorem powMod_eq (a M k e : Nat) (h : e < 16 ^ k) : powMod a M k e = a ^ e % M := by
  induction k generalizing e with
  | zero => obtain rfl : e = 0 := by simpa using h
            rfl
  | succ k ih =>
    have hd : e / 16 < 16 ^ k := by rw [Nat.pow_succ] at h; omega
    rw [powMod, ih _ hd, Nat.mul_mod, ← Nat.pow_mod, ← Nat.mul_mod, ← Nat.pow_mul, ← Nat.pow_add,
      show e / 16 * 16 + e % 16 = e by omega]

theorem minv_toNat (m : Modulus) (a : Elem) :
    (minv m a).toNat = (a.toNat * radixInv m % modulus m) ^ (modulus m - 2) % modulus m * 2 ^ 256 % modulus m := by
  have h2 : modulus m - 2 < 16 ^ 64 := by
    have := modulus_lt_radix m
    rw [show (16 : Nat) ^ 64 = 2 ^ 256 by decide]; omega
  rw [minv, toMont_toNat, fromMont_toNat, powMod_eq _ _ _ _ h2, toNat_ofNat_of_lt (Nat.mod_lt _ (modulus_pos m))]

theorem minv_lt (m : Modulus) (a : Elem) : (minv m a).toNat < modulus m := by
  rw [minv, toMont_toNat]; exact Nat.mod_lt _ (modulus_pos m)

end Sys2Proof.Machine
end

