-- ==== Sys2Proof/Laws/Prime.lean ====
section
/-!
SUPPORT. P and N are prime (general knowledge the rules rest on: 42_inversion R113 uses that 0 is the one element without an inverse), by
Lucas certificates: each prime comes with the factors of one less and a primitive root.
-/
namespace Sys2Proof.Machine

/-- Lucas's test with the factors of p − 1 given. -/
theorem prime_of_certificate (p a k : Nat) (l : List Nat) (hk : p < 16 ^ k) (hp : 1 < p) (hl : ∀ q ∈ l, q.Prime)
    (hprod : l.prod = p - 1) (h1 : powMod a p k (p - 1) = 1) (hq : l.all (fun q => powMod a p k ((p - 1) / q) != 1) = true) :
    p.Prime := by
  have hcast : ∀ e < 16 ^ k, ((a : ZMod p)) ^ e = ((powMod a p k e : Nat) : ZMod p) := by
    intro e he
    rw [powMod_eq _ _ _ _ he, ZMod.natCast_mod, Nat.cast_pow]
  refine lucas_primality p (a : ZMod p) (by rw [hcast _ (by omega), h1, Nat.cast_one]) ?_
  intro q hqp hqd hone
  obtain ⟨x, hx, hqx⟩ := (Nat.Prime.prime hqp).dvd_prod_iff.1 (hprod ▸ hqd)
  obtain rfl := (Nat.prime_dvd_prime_iff_eq hqp (hl x hx)).1 hqx
  have hne : powMod a p k ((p - 1) / q) ≠ 1 := by simpa using List.all_eq_true.1 hq q hx
  have hle : (p - 1) / q ≤ p - 1 := Nat.div_le_self ..
  rw [hcast _ (by omega)] at hone
  apply hne
  have hlt : powMod a p k ((p - 1) / q) < p := by rw [powMod_eq _ _ _ _ (by omega)]; exact Nat.mod_lt _ (by omega)
  have := (ZMod.natCast_eq_natCast_iff' _ 1 p).1 (by rw [hone, Nat.cast_one])
  rwa [Nat.mod_eq_of_lt hlt, Nat.mod_eq_of_lt hp] at this

theorem prime_factor_0 : Nat.Prime 6700417 := by
  refine prime_of_certificate 6700417 5 6 [2, 2, 2, 2, 2, 2, 2, 3, 17449] (by decide +kernel) (by decide +kernel) ?_ (by decide +kernel) (by decide +kernel)
    (by decide +kernel)
  simp only [List.forall_mem_cons, List.not_mem_nil, false_imp_iff, implies_true, and_true]
  refine ⟨?_, ?_, ?_, ?_, ?_, ?_, ?_, ?_, ?_⟩
  · norm_num
  · norm_num
  · norm_num
  · norm_num
  · norm_num
  · norm_num
  · norm_num
  · norm_num
  · norm_num

theorem prime_factor_1 : Nat.Prime 204061199 := by
  refine prime_of_certificate 204061199 11 7 [2, 11, 23, 107, 3769] (by decide +kernel) (by decide +kernel) ?_ (by decide +kernel) (by decide +kernel)
    (by decide +kernel)
  simp only [List.forall_mem_cons, List.not_mem_nil, false_imp_iff, implies_true, and_true]
  refine ⟨?_, ?_, ?_, ?_, ?_⟩
  · norm_num
  · norm_num
  · norm_num
  · norm_num
  · norm_num

theorem prime_factor_2 : Nat.Prime 34282281433 := by
  refine prime_of_certificate 34282281433 17 9 [2, 2, 2, 3, 7, 204061199] (by decide +kernel) (by decide +kernel) ?_ (by decide +kernel) (by decide +kernel)
    (by decide +kernel)
  simp only [List.forall_mem_cons, List.not_mem_nil, false_imp_iff, implies_true, and_true]
  refine ⟨?_, ?_, ?_, ?_, ?_, ?_⟩
  · norm_num
  · norm_num
  · norm_num
  · norm_num
  · norm_num
  · exact prime_factor_1

theorem prime_factor_3 : Nat.Prime 66417393611 := by
  refine prime_of_certificate 66417393611 6 9 [2, 5, 53, 173, 197, 3677] (by decide +kernel) (by decide +kernel) ?_ (by decide +kernel) (by decide +kernel)
    (by decide +kernel)
  simp only [List.forall_mem_cons, List.not_mem_nil, false_imp_iff, implies_true, and_true]
  refine ⟨?_, ?_, ?_, ?_, ?_, ?_⟩
  · norm_num
  · norm_num
  · norm_num
  · norm_num
  · norm_num
  · norm_num

theorem prime_factor_4 : Nat.Prime 11290956913871 := by
  refine prime_of_certificate 11290956913871 13 11 [2, 5, 17, 66417393611] (by decide +kernel) (by decide +kernel) ?_ (by decide +kernel) (by decide +kernel)
    (by decide +kernel)
  simp only [List.forall_mem_cons, List.not_mem_nil, false_imp_iff, implies_true, and_true]
  refine ⟨?_, ?_, ?_, ?_⟩
  · norm_num
  · norm_num
  · norm_num
  · exact prime_factor_3

theorem prime_factor_5 : Nat.Prime 46076956964474543 := by
  refine prime_of_certificate 46076956964474543 5 14 [2, 23, 18169, 78283, 704251] (by decide +kernel) (by decide +kernel) ?_ (by decide +kernel) (by decide +kernel)
    (by decide +kernel)
  simp only [List.forall_mem_cons, List.not_mem_nil, false_imp_iff, implies_true, and_true]
  refine ⟨?_, ?_, ?_, ?_, ?_⟩
  · norm_num
  · norm_num
  · norm_num
  · norm_num
  · norm_num

theorem prime_factor_6 : Nat.Prime 774023187263532362759620327192479577272145303 := by
  refine prime_of_certificate 774023187263532362759620327192479577272145303 3 38 [2, 3, 3, 2411, 34282281433, 11290956913871, 46076956964474543] (by decide +kernel) (by decide +kernel) ?_ (by decide +kernel) (by decide +kernel)
    (by decide +kernel)
  simp only [List.forall_mem_cons, List.not_mem_nil, false_imp_iff, implies_true, and_true]
  refine ⟨?_, ?_, ?_, ?_, ?_, ?_, ?_⟩
  · norm_num
  · norm_num
  · norm_num
  · norm_num
  · exact prime_factor_2
  · exact prime_factor_4
  · exact prime_factor_5

theorem prime_factor_7 : Nat.Prime 835945042244614951780389953367877943453916927241 := by
  refine prime_of_certificate 835945042244614951780389953367877943453916927241 11 40 [2, 2, 2, 3, 3, 3, 5, 774023187263532362759620327192479577272145303] (by decide +kernel) (by decide +kernel) ?_ (by decide +kernel) (by decide +kernel)
    (by decide +kernel)
  simp only [List.forall_mem_cons, List.not_mem_nil, false_imp_iff, implies_true, and_true]
  refine ⟨?_, ?_, ?_, ?_, ?_, ?_, ?_, ?_⟩
  · norm_num
  · norm_num
  · norm_num
  · norm_num
  · norm_num
  · norm_num
  · norm_num
  · exact prime_factor_6

/-- P is prime. -/
theorem prime_p : Nat.Prime Config.p := by
  refine prime_of_certificate Config.p 6 64 [2, 3, 5, 5, 17, 257, 641, 1531, 65537, 490463, 6700417, 835945042244614951780389953367877943453916927241] (by decide +kernel) (by decide +kernel) ?_ (by decide +kernel) (by decide +kernel)
    (by decide +kernel)
  simp only [List.forall_mem_cons, List.not_mem_nil, false_imp_iff, implies_true, and_true]
  refine ⟨?_, ?_, ?_, ?_, ?_, ?_, ?_, ?_, ?_, ?_, ?_, ?_⟩
  · norm_num
  · norm_num
  · norm_num
  · norm_num
  · norm_num
  · norm_num
  · norm_num
  · norm_num
  · norm_num
  · norm_num
  · exact prime_factor_0
  · exact prime_factor_7

theorem prime_factor_9 : Nat.Prime 9350987 := by
  refine prime_of_certificate 9350987 2 6 [2, 17, 229, 1201] (by decide +kernel) (by decide +kernel) ?_ (by decide +kernel) (by decide +kernel)
    (by decide +kernel)
  simp only [List.forall_mem_cons, List.not_mem_nil, false_imp_iff, implies_true, and_true]
  refine ⟨?_, ?_, ?_, ?_⟩
  · norm_num
  · norm_num
  · norm_num
  · norm_num

theorem prime_factor_10 : Nat.Prime 187019741 := by
  refine prime_of_certificate 187019741 2 7 [2, 2, 5, 9350987] (by decide +kernel) (by decide +kernel) ?_ (by decide +kernel) (by decide +kernel)
    (by decide +kernel)
  simp only [List.forall_mem_cons, List.not_mem_nil, false_imp_iff, implies_true, and_true]
  refine ⟨?_, ?_, ?_, ?_⟩
  · norm_num
  · norm_num
  · norm_num
  · exact prime_factor_9

theorem prime_factor_11 : Nat.Prime 311245691 := by
  refine prime_of_certificate 311245691 2 8 [2, 5, 7, 17, 29, 29, 311] (by decide +kernel) (by decide +kernel) ?_ (by decide +kernel) (by decide +kernel)
    (by decide +kernel)
  simp only [List.forall_mem_cons, List.not_mem_nil, false_imp_iff, implies_true, and_true]
  refine ⟨?_, ?_, ?_, ?_, ?_, ?_, ?_⟩
  · norm_num
  · norm_num
  · norm_num
  · norm_num
  · norm_num
  · norm_num
  · norm_num

theorem prime_factor_12 : Nat.Prime 622491383 := by
  refine prime_of_certificate 622491383 5 8 [2, 311245691] (by decide +kernel) (by decide +kernel) ?_ (by decide +kernel) (by decide +kernel)
    (by decide +kernel)
  simp only [List.forall_mem_cons, List.not_mem_nil, false_imp_iff, implies_true, and_true]
  refine ⟨?_, ?_⟩
  · norm_num
  · exact prime_factor_11

theorem prime_factor_13 : Nat.Prime 3969899 := by
  refine prime_of_certificate 3969899 2 6 [2, 19, 104471] (by decide +kernel) (by decide +kernel) ?_ (by decide +kernel) (by decide +kernel)
    (by decide +kernel)
  simp only [List.forall_mem_cons, List.not_mem_nil, false_imp_iff, implies_true, and_true]
  refine ⟨?_, ?_, ?_⟩
  · norm_num
  · norm_num
  · norm_num

theorem prime_factor_14 : Nat.Prime 1002328039319 := by
  refine prime_of_certificate 1002328039319 19 10 [2, 126241, 3969899] (by decide +kernel) (by decide +kernel) ?_ (by decide +kernel) (by decide +kernel)
    (by decide +kernel)
  simp only [List.forall_mem_cons, List.not_mem_nil, false_imp_iff, implies_true, and_true]
  refine ⟨?_, ?_, ?_⟩
  · norm_num
  · norm_num
  · exact prime_factor_13

theorem prime_factor_15 : Nat.Prime 191039911 := by
  refine prime_of_certificate 191039911 3 7 [2, 3, 5, 41, 155317] (by decide +kernel) (by decide +kernel) ?_ (by decide +kernel) (by decide +kernel)
    (by decide +kernel)
  simp only [List.forall_mem_cons, List.not_mem_nil, false_imp_iff, implies_true, and_true]
  refine ⟨?_, ?_, ?_, ?_, ?_⟩
  · norm_num
  · norm_num
  · norm_num
  · norm_num
  · norm_num

theorem prime_factor_16 : Nat.Prime 208150935158385979 := by
  refine prime_of_certificate 208150935158385979 2 15 [2, 3, 11, 43, 127, 3023, 191039911] (by decide +kernel) (by decide +kernel) ?_ (by decide +kernel) (by decide +kernel)
    (by decide +kernel)
  simp only [List.forall_mem_cons, List.not_mem_nil, false_imp_iff, implies_true, and_true]
  refine ⟨?_, ?_, ?_, ?_, ?_, ?_, ?_⟩
  · norm_num
  · norm_num
  · norm_num
  · norm_num
  · norm_num
  · norm_num
  · exact prime_factor_15

theorem prime_factor_17 : Nat.Prime 2624747550333869278416773953 := by
  refine prime_of_certificate 2624747550333869278416773953 7 23 [2, 2, 2, 2, 2, 2, 3, 3, 1297, 16879, 208150935158385979] (by decide +kernel) (by decide +kernel) ?_ (by decide +kernel) (by decide +kernel)
    (by decide +kernel)
  simp only [List.forall_mem_cons, List.not_mem_nil, false_imp_iff, implies_true, and_true]
  refine ⟨?_, ?_, ?_, ?_, ?_, ?_, ?_, ?_, ?_, ?_, ?_⟩
  · norm_num
  · norm_num
  · norm_num
  · norm_num
  · norm_num
  · norm_num
  · norm_num
  · norm_num
  · norm_num
  · norm_num
  · exact prime_factor_16

/-- N is prime. -/
theorem prime_n : Nat.Prime Config.n := by
  refine prime_of_certificate Config.n 7 64 [2, 2, 2, 2, 3, 71, 131, 373, 3407, 17449, 38189, 187019741, 622491383, 1002328039319, 2624747550333869278416773953] (by decide +kernel) (by decide +kernel) ?_ (by decide +kernel) (by decide +kernel)
    (by decide +kernel)
  simp only [List.forall_mem_cons, List.not_mem_nil, false_imp_iff, implies_true, and_true]
  refine ⟨?_, ?_, ?_, ?_, ?_, ?_, ?_, ?_, ?_, ?_, ?_, ?_, ?_, ?_, ?_⟩
  · norm_num
  · norm_num
  · norm_num
  · norm_num
  · norm_num
  · norm_num
  · norm_num
  · norm_num
  · norm_num
  · norm_num
  · norm_num
  · exact prime_factor_10
  · exact prime_factor_12
  · exact prime_factor_14
  · exact prime_factor_17

theorem modulus_prime (m : Modulus) : (modulus m).Prime := by
  cases m
  · exact prime_p
  · exact prime_n

end Sys2Proof.Machine
end

