-- ==== Sys2Proof/Laws/Residue.lean ====
section
/-!
SUPPORT. The Montgomery domain as residues: val_M turns each operation of modular arithmetic into the one of ZMod M, and it is one to one on
canonical values (00_scope R9, R10).
-/
namespace Sys2Proof.Machine

/-- val_M(c) = c·R⁻¹ mod M, as a residue (00_scope R9). -/
def val (m : Modulus) (c : Elem) : ZMod (modulus m) := (c.toNat : ZMod (modulus m)) * (2 ^ 256 : ZMod (modulus m))⁻¹

variable {m : Modulus} {a b c : Elem}

theorem radix_mul_radixInv (m : Modulus) : (2 ^ 256 : ZMod (modulus m)) * (radixInv m : ZMod (modulus m)) = 1 := by
  have h := (ZMod.natCast_eq_natCast_iff' (2 ^ 256 * radixInv m) 1 (modulus m)).2
    (by rw [radixInv_spec, Nat.mod_eq_of_lt (modulus_gt_one m)])
  rwa [Nat.cast_mul, Nat.cast_pow, Nat.cast_ofNat, Nat.cast_one] at h

theorem radix_inv (m : Modulus) : (2 ^ 256 : ZMod (modulus m))⁻¹ = (radixInv m : ZMod (modulus m)) :=
  ZMod.inv_eq_of_mul_eq_one _ _ _ (radix_mul_radixInv m)

theorem val_eq (m : Modulus) (c : Elem) : val m c = (c.toNat : ZMod (modulus m)) * (radixInv m : ZMod (modulus m)) := by
  rw [val, radix_inv]

theorem val_mul_radix (m : Modulus) (c : Elem) : val m c * 2 ^ 256 = (c.toNat : ZMod (modulus m)) := by
  rw [val_eq, mul_assoc, mul_comm (radixInv m : ZMod (modulus m)), radix_mul_radixInv, mul_one]

/-- Canonical values with one residue are one value. -/
theorem val_inj (ha : a.toNat < modulus m) (hb : b.toNat < modulus m) : val m a = val m b ↔ a = b := by
  refine ⟨fun h => ?_, fun h => by rw [h]⟩
  have h := congrArg (· * (2 ^ 256 : ZMod (modulus m))) h
  simp only [val_mul_radix] at h
  have h := (ZMod.natCast_eq_natCast_iff' _ _ _).1 h
  rw [Nat.mod_eq_of_lt ha, Nat.mod_eq_of_lt hb] at h
  exact BitVec.eq_of_toNat_eq h

@[simp] theorem val_zero (m : Modulus) : val m 0 = 0 := by simp [val_eq]

theorem val_eq_zero_iff (ha : a.toNat < modulus m) : val m a = 0 ↔ a = 0 := by
  rw [← val_zero m, val_inj ha (by simpa using modulus_pos m)]

@[simp] theorem val_mm (m : Modulus) (a b : Elem) : val m (mm m a b) = val m a * val m b := by
  rw [val_eq, mm_toNat, ZMod.natCast_mod, val_eq, val_eq]
  push_cast
  ring

theorem val_addm (ha : a.toNat < modulus m) (hb : b.toNat < modulus m) : val m (addm m a b) = val m a + val m b := by
  rw [val_eq, addm_toNat ha hb, ZMod.natCast_mod, val_eq, val_eq]
  push_cast
  ring

theorem val_subm (ha : a.toNat < modulus m) (hb : b.toNat < modulus m) : val m (subm m a b) = val m a - val m b := by
  rw [val_eq, subm_toNat ha hb, ZMod.natCast_mod, val_eq, val_eq, Nat.cast_sub (by omega)]
  push_cast
  rw [ZMod.natCast_self]
  ring

theorem two_mul_val_halfm (ha : a.toNat < modulus m) : 2 * val m (halfm m a) = val m a := by
  have h := (ZMod.natCast_eq_natCast_iff' (2 * (halfm m a).toNat) a.toNat (modulus m)).2
    (by rw [two_mul_halfm ha, Nat.mod_eq_of_lt ha])
  push_cast at h
  rw [val_eq, val_eq, ← mul_assoc, h]

theorem fact_prime (m : Modulus) : Fact (modulus m).Prime := ⟨modulus_prime m⟩

theorem val_toMont (m : Modulus) (a : Elem) : val m (toMont m a) = (a.toNat : ZMod (modulus m)) := by
  rw [val_eq, toMont_toNat, ZMod.natCast_mod, Nat.cast_mul, Nat.cast_pow, Nat.cast_ofNat, mul_assoc, radix_mul_radixInv, mul_one]

theorem fromMont_cast (m : Modulus) (a : Elem) : ((fromMont m a).toNat : ZMod (modulus m)) = val m a := by
  rw [fromMont_toNat, ZMod.natCast_mod, val_eq]; push_cast; rfl

/-- FINV's function inverts residues (42_inversion R113). -/
theorem val_minv (ha : val m a ≠ 0) : val m (minv m a) * val m a = 1 := by
  have := fact_prime m
  have h2 : modulus m - 2 < 16 ^ 64 := by
    have := modulus_lt_radix m
    rw [show (16 : Nat) ^ 64 = 2 ^ 256 by decide]; omega
  have hm := modulus_gt_one m
  rw [minv, val_toMont, powMod_eq _ _ _ _ h2, toNat_ofNat_of_lt (Nat.mod_lt _ (modulus_pos m)), ZMod.natCast_mod]
  push_cast
  rw [fromMont_cast, ← pow_succ, show modulus m - 2 + 1 = modulus m - 1 by omega]
  exact ZMod.pow_card_sub_one_eq_one ha

theorem val_onep : val .p onep = 1 := by
  have h : onep.toNat * radixInv .p % modulus .p = 1 % modulus .p := by decide +kernel
  rw [val_eq, ← Nat.cast_mul, (ZMod.natCast_eq_natCast_iff' _ _ _).2 h, Nat.cast_one]

theorem onep_lt : onep.toNat < modulus .p := by decide +kernel

end Sys2Proof.Machine
end

