-- ==== Sys2Proof/Laws/Curve.lean ====
section
/-!
SUPPORT. The point functions as residues: each result is canonical when its sources are, and its coordinates are the formulas of 41_point R101 and
R105 in ZMod P.
-/
namespace Sys2Proof.Machine

/-- The coordinates of a Jacobian point are below P. -/
def Jac.Below (q : Jac) : Prop := q.x.toNat < modulus .p ∧ q.y.toNat < modulus .p ∧ q.z.toNat < modulus .p

/-- The coordinates of an affine point are below P. -/
def Aff.Below (q : Aff) : Prop := q.x.toNat < modulus .p ∧ q.y.toNat < modulus .p

@[simp] theorem Jac.isCanonical_iff (q : Jac) : q.isCanonical = true ↔ q.Below := by
  simp [Jac.isCanonical, Jac.Below, and_assoc]

@[simp] theorem Aff.isCanonical_iff (q : Aff) : q.isCanonical = true ↔ q.Below := by simp [Aff.isCanonical, Aff.Below]

theorem zero_below : (0 : Elem).toNat < modulus .p := by decide

theorem jacZero_below : Jac.zero.Below := ⟨zero_below, zero_below, zero_below⟩

theorem generator_below : generator.Below := by constructor <;> decide +kernel

theorem Aff.toJac_below {q : Aff} (h : q.Below) : q.toJac.Below := ⟨h.1, h.2, onep_lt⟩

theorem pdbl_below (q : Jac) : (pdbl q).Below :=
  have lt : ∀ {a b : Elem}, (mm .p a b).toNat < modulus .p := mm_lt _ _ _
  ⟨subm_lt lt (addm_lt lt lt), subm_lt lt (halfm_lt lt), lt⟩

theorem paddSum_below (q1 : Jac) (q : Aff) : (paddSum q1 q).Below :=
  have lt : ∀ {a b : Elem}, (mm .p a b).toNat < modulus .p := mm_lt _ _ _
  ⟨subm_lt (subm_lt lt (addm_lt lt lt)) lt, subm_lt lt lt, lt⟩

theorem signedY_lt {y : Elem} (h : y.toNat < modulus .p) (sign : Bool) : (signedY sign y).toNat < modulus .p := by
  cases sign
  · exact h
  · exact subm_lt zero_below h

theorem val_signedY {y : Elem} (h : y.toNat < modulus .p) (sign : Bool) :
    val .p (signedY sign y) = if sign then -val .p y else val .p y := by
  cases sign
  · rfl
  · rw [signedY, if_pos rfl, if_pos rfl, val_subm zero_below h, val_zero, zero_sub]

theorem padd_below {q1 : Jac} {q2 : Aff} (h1 : q1.Below) (h2 : q2.Below) (sign sel zero : Bool) :
    (padd sign sel zero q1 q2).Below := by
  unfold padd
  split
  · exact h1
  · split
    · exact Aff.toJac_below ⟨h2.1, signedY_lt h2.2 sign⟩
    · exact paddSum_below ..

theorem toAff_below (q : Jac) : q.toAff.Below := ⟨mm_lt .., mm_lt ..⟩

theorem addChain_below (q : Aff) : ∀ (k : Nat) (j : Jac), ∀ p ∈ addChain q k j, p.Below
  | 0, _, _, hp => by cases hp
  | k + 1, j, p, hp => by
    have h := paddSum_below j q
    rcases List.mem_cons.1 hp with rfl | hp
    · exact h
    · exact addChain_below q k _ p hp

theorem addChain_succ (q : Aff) (k : Nat) (j : Jac) : addChain q (k + 1) j = paddSum j q :: addChain q k (paddSum j q) := rfl

/-- The first result of a chain of additions. -/
theorem addChain_getElem?_zero (q : Aff) (k : Nat) (j : Jac) : (addChain q (k + 1) j)[0]? = some (paddSum j q) := by
  rw [addChain_succ, List.getElem?_cons_zero]

/-- Each later result of a chain is the one before plus `q`. -/
theorem addChain_getElem?_succ (q : Aff) : ∀ (k : Nat) (j : Jac) (e : Nat), e + 1 < k →
    (addChain q k j)[e + 1]? = (addChain q k j)[e]?.map (fun p => paddSum p q)
  | 0, _, _, h => absurd h (by omega)
  | 1, _, _, h => absurd h (by omega)
  | k + 2, j, 0, _ => by
    rw [addChain_succ, List.getElem?_cons_succ, addChain_getElem?_zero, List.getElem?_cons_zero, Option.map_some]
  | k + 2, j, e + 1, h => by
    rw [addChain_succ, List.getElem?_cons_succ, List.getElem?_cons_succ, addChain_getElem?_succ q (k + 1) _ e (by omega)]

theorem pdblN_succ (k : Nat) (q : Jac) : pdblN (k + 1) q = pdbl (pdblN k q) := by rw [pdblN]

/-- Doubling the uninitialized accumulator leaves it (41_point R102). -/
theorem pdbl_zero : pdbl Jac.zero = Jac.zero := by decide +kernel

theorem pdblN_zero (k : Nat) : pdblN k Jac.zero = Jac.zero := by
  induction k with
  | zero => rfl
  | succ k ih => rw [pdblN_succ, ih, pdbl_zero]

theorem addChain_length (q : Aff) : ∀ (k : Nat) (j : Jac), (addChain q k j).length = k
  | 0, _ => rfl
  | k + 1, j => by simp [addChain, addChain_length q k]

theorem jacMultiples_below (q : Aff) (n : Nat) : ∀ j ∈ jacMultiples n q, j.Below := by
  have hd := pdbl_below q.toJac
  intro j hj
  rcases List.mem_cons.1 hj with rfl | hj
  · exact hd
  · exact addChain_below q _ _ j hj

theorem affMultiples_below {q : Aff} (h : q.Below) (n : Nat) : ∀ a ∈ affMultiples n q, a.Below := by
  intro a ha
  rcases List.mem_cons.1 ha with rfl | ha
  · exact h
  · obtain ⟨j, -, rfl⟩ := List.mem_map.1 ha
    exact toAff_below j

theorem affMultiples_length {n : Nat} (hn : 2 ≤ n) (q : Aff) : (affMultiples n q).length = n := by
  simp [affMultiples, jacMultiples, addChain_length]; omega

theorem affMultiples_eq (n : Nat) (q : Aff) : affMultiples n q = q :: (jacMultiples n q).map Jac.toAff := by rw [affMultiples]

theorem jacMultiples_eq (n : Nat) (q : Aff) : jacMultiples n q = pdbl q.toJac :: addChain q (n - 2) (pdbl q.toJac) := by
  rw [jacMultiples]

theorem nextWeight_below (w : Nat) (q : Aff) : (nextWeight w q).Below := toAff_below _

theorem tableRows_succ (w n k : Nat) (q : Aff) : tableRows w n (k + 1) q = affMultiples n q :: tableRows w n k (nextWeight w q) := by
  rw [tableRows]

theorem tableRows_length (w n : Nat) : ∀ (k : Nat) (q : Aff), (tableRows w n k q).length = k
  | 0, _ => rfl
  | k + 1, q => by rw [tableRows_succ, List.length_cons, tableRows_length w n k]

/-- Every row of a table has `n` entries, all below P. -/
theorem tableRows_rows (w : Nat) {n : Nat} (hn : 2 ≤ n) : ∀ (k : Nat) {q : Aff}, q.Below →
    ∀ row ∈ tableRows w n k q, row.length = n ∧ ∀ a ∈ row, a.Below
  | 0, _, _, _, h => by cases h
  | k + 1, q, hq, row, h => by
    rw [tableRows_succ] at h
    rcases List.mem_cons.1 h with rfl | h
    · exact ⟨affMultiples_length hn q, affMultiples_below hq n⟩
    · exact tableRows_rows w hn k (nextWeight_below w q) row h

/-! ### Coordinates as residues -/

/-- The two halves of an even residue. -/
theorem two_ne_zero_p : (2 : ZMod (modulus .p)) ≠ 0 := by
  have h : ((2 : Nat) : ZMod (modulus .p)) ≠ 0 := by
    rw [Ne, ZMod.natCast_eq_zero_iff]; decide +kernel
  simpa using h

theorem val_pdbl {q : Jac} (h : q.Below) :
    let x := val .p q.x; let y := val .p q.y; let z := val .p q.z
    let a := 3 * (x - z ^ 2) * (x + z ^ 2)
    val .p (pdbl q).x = a ^ 2 - 8 * x * y ^ 2 ∧ val .p (pdbl q).y = a * (4 * x * y ^ 2 - val .p (pdbl q).x) - 8 * y ^ 4 ∧
      val .p (pdbl q).z = 2 * y * z := by
  have := fact_prime .p
  obtain ⟨hx, hy, hz⟩ := h
  have lt : ∀ {a b : Elem}, (mm .p a b).toNat < modulus .p := mm_lt _ _ _
  have lta : ∀ {a b : Elem}, a.toNat < modulus .p → b.toNat < modulus .p → (addm .p a b).toNat < modulus .p := addm_lt
  have lts : ∀ {a b : Elem}, a.toNat < modulus .p → b.toNat < modulus .p → (subm .p a b).toNat < modulus .p := subm_lt
  have hhalf : ∀ {a : Elem}, a.toNat < modulus .p → val .p (halfm .p a) = val .p a * 2⁻¹ := by
    intro a ha
    rw [← two_mul_val_halfm ha, mul_comm (2 : ZMod (modulus .p)), mul_assoc, mul_inv_cancel₀ two_ne_zero_p, mul_one]
  have i2 : (2 : ZMod (modulus .p)) * 2⁻¹ = 1 := mul_inv_cancel₀ two_ne_zero_p
  have hX : val .p (pdbl q).x = (3 * (val .p q.x - val .p q.z ^ 2) * (val .p q.x + val .p q.z ^ 2)) ^ 2 - 8 * val .p q.x * val .p q.y ^ 2 := by
    simp only [pdbl]
    rw [val_subm lt (lta lt lt), val_addm lt lt]
    simp only [val_mm]
    rw [val_addm (lta lt lt) lt, val_addm lt lt, val_addm hy hy]
    simp only [val_mm]
    rw [val_subm hx lt, val_addm hx lt]
    simp only [val_mm]
    ring
  refine ⟨hX, ?_, ?_⟩
  · have hY : val .p (pdbl q).y = (val .p q.x * (2 * val .p q.y) ^ 2 - val .p (pdbl q).x) *
        (3 * (val .p q.x - val .p q.z ^ 2) * (val .p q.x + val .p q.z ^ 2)) - ((2 * val .p q.y) ^ 4) * 2⁻¹ := by
      simp only [pdbl]
      rw [val_subm lt (halfm_lt lt), hhalf lt]
      simp only [val_mm]
      rw [val_subm lt (lts lt (lta lt lt)), val_addm (lta lt lt) lt, val_addm lt lt, val_addm hy hy]
      simp only [val_mm]
      rw [val_subm hx lt, val_addm hx lt, val_addm hy hy]
      simp only [val_mm]
      ring
    rw [hY]
    linear_combination (-8 * val .p q.y ^ 4) * i2
  · simp only [pdbl]
    rw [val_mm, val_addm hy hy]
    ring

theorem val_paddSum {q1 : Jac} (h1 : q1.Below) (q : Aff) :
    let h := val .p q.x * val .p q1.z ^ 2 - val .p q1.x
    let w := val .p q.y * val .p q1.z ^ 3 - val .p q1.y
    val .p (paddSum q1 q).x = w ^ 2 - h ^ 3 - 2 * val .p q1.x * h ^ 2 ∧
      val .p (paddSum q1 q).y = w * (val .p q1.x * h ^ 2 - val .p (paddSum q1 q).x) - val .p q1.y * h ^ 3 ∧
      val .p (paddSum q1 q).z = val .p q1.z * h := by
  obtain ⟨hx, hy, hz⟩ := h1
  have lt : ∀ {a b : Elem}, (mm .p a b).toNat < modulus .p := mm_lt _ _ _
  have lta : ∀ {a b : Elem}, a.toNat < modulus .p → b.toNat < modulus .p → (addm .p a b).toNat < modulus .p := addm_lt
  have lts : ∀ {a b : Elem}, a.toNat < modulus .p → b.toNat < modulus .p → (subm .p a b).toNat < modulus .p := subm_lt
  refine ⟨?_, ?_, ?_⟩
  · simp only [paddSum]
    rw [val_subm (lts lt (lta lt lt)) lt, val_subm lt (lta lt lt), val_addm lt lt]
    simp only [val_mm]
    rw [val_subm lt hx, val_subm lt hy]
    simp only [val_mm]
    ring
  · have hY : val .p (paddSum q1 q).y = (val .p q1.x * (val .p q.x * val .p q1.z ^ 2 - val .p q1.x) ^ 2 - val .p (paddSum q1 q).x) *
        (val .p q.y * val .p q1.z ^ 3 - val .p q1.y) - (val .p q.x * val .p q1.z ^ 2 - val .p q1.x) ^ 3 * val .p q1.y := by
      simp only [paddSum]
      rw [val_subm lt lt]
      simp only [val_mm]
      rw [val_subm lt (lts (lts lt (lta lt lt)) lt), val_subm lt hx, val_subm lt hy]
      simp only [val_mm]
      rw [val_subm lt hx]
      simp only [val_mm]
      ring
    rw [hY]; ring
  · simp only [paddSum]
    rw [val_mm, val_subm lt hx]
    simp only [val_mm]
    ring

/-- X·Z⁻² and Y·Z⁻³ (41_point R109). -/
theorem val_toAff {q : Jac} (hz : val .p q.z ≠ 0) :
    val .p q.toAff.x * val .p q.z ^ 2 = val .p q.x ∧ val .p q.toAff.y * val .p q.z ^ 3 = val .p q.y := by
  have h := val_minv hz
  simp only [Jac.toAff, val_mm]
  constructor
  · linear_combination (val .p q.x * (val .p (minv .p q.z) * val .p q.z + 1)) * h
  · linear_combination (val .p q.y * ((val .p (minv .p q.z) * val .p q.z) ^ 2 + val .p (minv .p q.z) * val .p q.z + 1)) * h

end Sys2Proof.Machine
end

