-- ==== Sys2Proof/Laws/State.lean ====
section
/-!
SUPPORT. One lemma per field per state update: what each named update of the state leaves in each field. Later proofs cite these (they
are simp lemmas) and unfold no record update.
-/
namespace Sys2Proof.Machine

variable (s : State)

/-! ### `setReg` -/

@[simp] theorem State.setReg_regs (r : RegIdx) (v : Elem) : (s.setReg r v).regs = s.regs.set r ⟨v, allWritten⟩ := rfl
@[simp] theorem State.setReg_ie (r : RegIdx) (v : Elem) : (s.setReg r v).ie = s.ie := rfl
@[simp] theorem State.setReg_busy (r : RegIdx) (v : Elem) : (s.setReg r v).busy = s.busy := rfl
@[simp] theorem State.setReg_done (r : RegIdx) (v : Elem) : (s.setReg r v).done = s.done := rfl
@[simp] theorem State.setReg_err (r : RegIdx) (v : Elem) : (s.setReg r v).err = s.err := rfl
@[simp] theorem State.setReg_tblv (r : RegIdx) (v : Elem) : (s.setReg r v).tblv = s.tblv := rfl
@[simp] theorem State.setReg_errCode (r : RegIdx) (v : Elem) : (s.setReg r v).errCode = s.errCode := rfl
@[simp] theorem State.setReg_cmd (r : RegIdx) (v : Elem) : (s.setReg r v).cmd = s.cmd := rfl
@[simp] theorem State.setReg_errInfo (r : RegIdx) (v : Elem) : (s.setReg r v).errInfo = s.errInfo := rfl
@[simp] theorem State.setReg_tbl (r : RegIdx) (v : Elem) : (s.setReg r v).tbl = s.tbl := rfl
@[simp] theorem State.setReg_latch (r : RegIdx) (v : Elem) : (s.setReg r v).latch = s.latch := rfl
@[simp] theorem State.setReg_port (r : RegIdx) (v : Elem) : (s.setReg r v).port = s.port := rfl
@[simp] theorem State.setReg_reply (r : RegIdx) (v : Elem) : (s.setReg r v).reply = s.reply := rfl
@[simp] theorem State.setReg_drawn (r : RegIdx) (v : Elem) : (s.setReg r v).drawn = s.drawn := rfl

/-! ### `drawNext` -/

@[simp] theorem State.drawNext_regs : (s.drawNext).regs = s.regs := rfl
@[simp] theorem State.drawNext_ie : (s.drawNext).ie = s.ie := rfl
@[simp] theorem State.drawNext_busy : (s.drawNext).busy = s.busy := rfl
@[simp] theorem State.drawNext_done : (s.drawNext).done = s.done := rfl
@[simp] theorem State.drawNext_err : (s.drawNext).err = s.err := rfl
@[simp] theorem State.drawNext_tblv : (s.drawNext).tblv = s.tblv := rfl
@[simp] theorem State.drawNext_errCode : (s.drawNext).errCode = s.errCode := rfl
@[simp] theorem State.drawNext_cmd : (s.drawNext).cmd = s.cmd := rfl
@[simp] theorem State.drawNext_errInfo : (s.drawNext).errInfo = s.errInfo := rfl
@[simp] theorem State.drawNext_tbl : (s.drawNext).tbl = s.tbl := rfl
@[simp] theorem State.drawNext_latch : (s.drawNext).latch = s.latch := rfl
@[simp] theorem State.drawNext_port : (s.drawNext).port = s.port := rfl
@[simp] theorem State.drawNext_reply : (s.drawNext).reply = s.reply := rfl
@[simp] theorem State.drawNext_drawn : (s.drawNext).drawn = s.drawn + 1 := rfl

/-! ### `setRegWord` -/

@[simp] theorem State.setRegWord_regs (i : RegIdx) (t : Fin 8) (w : Word32) : (s.setRegWord i t w).regs = s.regs.set i ⟨setWordOf s.regs[i].value t w, s.regs[i].written ||| (1#8 <<< t.val)⟩ := rfl
@[simp] theorem State.setRegWord_ie (i : RegIdx) (t : Fin 8) (w : Word32) : (s.setRegWord i t w).ie = s.ie := rfl
@[simp] theorem State.setRegWord_busy (i : RegIdx) (t : Fin 8) (w : Word32) : (s.setRegWord i t w).busy = s.busy := rfl
@[simp] theorem State.setRegWord_done (i : RegIdx) (t : Fin 8) (w : Word32) : (s.setRegWord i t w).done = s.done := rfl
@[simp] theorem State.setRegWord_err (i : RegIdx) (t : Fin 8) (w : Word32) : (s.setRegWord i t w).err = s.err := rfl
@[simp] theorem State.setRegWord_tblv (i : RegIdx) (t : Fin 8) (w : Word32) : (s.setRegWord i t w).tblv = s.tblv := rfl
@[simp] theorem State.setRegWord_errCode (i : RegIdx) (t : Fin 8) (w : Word32) : (s.setRegWord i t w).errCode = s.errCode := rfl
@[simp] theorem State.setRegWord_cmd (i : RegIdx) (t : Fin 8) (w : Word32) : (s.setRegWord i t w).cmd = s.cmd := rfl
@[simp] theorem State.setRegWord_errInfo (i : RegIdx) (t : Fin 8) (w : Word32) : (s.setRegWord i t w).errInfo = s.errInfo := rfl
@[simp] theorem State.setRegWord_tbl (i : RegIdx) (t : Fin 8) (w : Word32) : (s.setRegWord i t w).tbl = s.tbl := rfl
@[simp] theorem State.setRegWord_latch (i : RegIdx) (t : Fin 8) (w : Word32) : (s.setRegWord i t w).latch = s.latch := rfl
@[simp] theorem State.setRegWord_port (i : RegIdx) (t : Fin 8) (w : Word32) : (s.setRegWord i t w).port = s.port := rfl
@[simp] theorem State.setRegWord_reply (i : RegIdx) (t : Fin 8) (w : Word32) : (s.setRegWord i t w).reply = s.reply := rfl
@[simp] theorem State.setRegWord_drawn (i : RegIdx) (t : Fin 8) (w : Word32) : (s.setRegWord i t w).drawn = s.drawn := rfl

/-! ### `writeCtrl` -/

@[simp] theorem State.writeCtrl_regs (v : Word32) : (s.writeCtrl v).regs = s.regs := rfl
@[simp] theorem State.writeCtrl_ie (v : Word32) : (s.writeCtrl v).ie = v.getLsbD 0 := rfl
@[simp] theorem State.writeCtrl_busy (v : Word32) : (s.writeCtrl v).busy = s.busy := rfl
@[simp] theorem State.writeCtrl_done (v : Word32) : (s.writeCtrl v).done = s.done := rfl
@[simp] theorem State.writeCtrl_err (v : Word32) : (s.writeCtrl v).err = s.err := rfl
@[simp] theorem State.writeCtrl_tblv (v : Word32) : (s.writeCtrl v).tblv = s.tblv := rfl
@[simp] theorem State.writeCtrl_errCode (v : Word32) : (s.writeCtrl v).errCode = s.errCode := rfl
@[simp] theorem State.writeCtrl_cmd (v : Word32) : (s.writeCtrl v).cmd = s.cmd := rfl
@[simp] theorem State.writeCtrl_errInfo (v : Word32) : (s.writeCtrl v).errInfo = s.errInfo := rfl
@[simp] theorem State.writeCtrl_tbl (v : Word32) : (s.writeCtrl v).tbl = s.tbl := rfl
@[simp] theorem State.writeCtrl_latch (v : Word32) : (s.writeCtrl v).latch = s.latch := rfl
@[simp] theorem State.writeCtrl_port (v : Word32) : (s.writeCtrl v).port = s.port := rfl
@[simp] theorem State.writeCtrl_reply (v : Word32) : (s.writeCtrl v).reply = s.reply := rfl
@[simp] theorem State.writeCtrl_drawn (v : Word32) : (s.writeCtrl v).drawn = s.drawn := rfl

/-! ### `clearErr` -/

@[simp] theorem State.clearErr_regs : (s.clearErr).regs = s.regs := rfl
@[simp] theorem State.clearErr_ie : (s.clearErr).ie = s.ie := rfl
@[simp] theorem State.clearErr_busy : (s.clearErr).busy = s.busy := rfl
@[simp] theorem State.clearErr_done : (s.clearErr).done = s.done := rfl
@[simp] theorem State.clearErr_err : (s.clearErr).err = false := rfl
@[simp] theorem State.clearErr_tblv : (s.clearErr).tblv = s.tblv := rfl
@[simp] theorem State.clearErr_errCode : (s.clearErr).errCode = .none := rfl
@[simp] theorem State.clearErr_cmd : (s.clearErr).cmd = s.cmd := rfl
@[simp] theorem State.clearErr_errInfo : (s.clearErr).errInfo = 0 := rfl
@[simp] theorem State.clearErr_tbl : (s.clearErr).tbl = s.tbl := rfl
@[simp] theorem State.clearErr_latch : (s.clearErr).latch = s.latch := rfl
@[simp] theorem State.clearErr_port : (s.clearErr).port = s.port := rfl
@[simp] theorem State.clearErr_reply : (s.clearErr).reply = s.reply := rfl
@[simp] theorem State.clearErr_drawn : (s.clearErr).drawn = s.drawn := rfl

/-! ### `clearDone` -/

@[simp] theorem State.clearDone_regs : (s.clearDone).regs = s.regs := rfl
@[simp] theorem State.clearDone_ie : (s.clearDone).ie = s.ie := rfl
@[simp] theorem State.clearDone_busy : (s.clearDone).busy = s.busy := rfl
@[simp] theorem State.clearDone_done : (s.clearDone).done = false := rfl
@[simp] theorem State.clearDone_err : (s.clearDone).err = s.err := rfl
@[simp] theorem State.clearDone_tblv : (s.clearDone).tblv = s.tblv := rfl
@[simp] theorem State.clearDone_errCode : (s.clearDone).errCode = s.errCode := rfl
@[simp] theorem State.clearDone_cmd : (s.clearDone).cmd = s.cmd := rfl
@[simp] theorem State.clearDone_errInfo : (s.clearDone).errInfo = s.errInfo := rfl
@[simp] theorem State.clearDone_tbl : (s.clearDone).tbl = s.tbl := rfl
@[simp] theorem State.clearDone_latch : (s.clearDone).latch = s.latch := rfl
@[simp] theorem State.clearDone_port : (s.clearDone).port = s.port := rfl
@[simp] theorem State.clearDone_reply : (s.clearDone).reply = s.reply := rfl
@[simp] theorem State.clearDone_drawn : (s.clearDone).drawn = s.drawn := rfl

/-! ### `complete` -/

@[simp] theorem State.complete_regs : (s.complete).regs = s.regs := rfl
@[simp] theorem State.complete_ie : (s.complete).ie = s.ie := rfl
@[simp] theorem State.complete_busy : (s.complete).busy = false := rfl
@[simp] theorem State.complete_done : (s.complete).done = true := rfl
@[simp] theorem State.complete_err : (s.complete).err = s.err := rfl
@[simp] theorem State.complete_tblv : (s.complete).tblv = s.tblv := rfl
@[simp] theorem State.complete_errCode : (s.complete).errCode = s.errCode := rfl
@[simp] theorem State.complete_cmd : (s.complete).cmd = s.cmd := rfl
@[simp] theorem State.complete_errInfo : (s.complete).errInfo = s.errInfo := rfl
@[simp] theorem State.complete_tbl : (s.complete).tbl = s.tbl := rfl
@[simp] theorem State.complete_latch : (s.complete).latch = none := rfl
@[simp] theorem State.complete_port : (s.complete).port = s.port := rfl
@[simp] theorem State.complete_reply : (s.complete).reply = s.reply := rfl
@[simp] theorem State.complete_drawn : (s.complete).drawn = s.drawn := rfl

/-! ### `accept` -/

@[simp] theorem State.accept_regs (i : Instr) (w : Word32) : (s.accept i w).regs = s.regs := rfl
@[simp] theorem State.accept_ie (i : Instr) (w : Word32) : (s.accept i w).ie = s.ie := rfl
@[simp] theorem State.accept_busy (i : Instr) (w : Word32) : (s.accept i w).busy = true := rfl
@[simp] theorem State.accept_done (i : Instr) (w : Word32) : (s.accept i w).done = s.done := rfl
@[simp] theorem State.accept_err (i : Instr) (w : Word32) : (s.accept i w).err = s.err := rfl
@[simp] theorem State.accept_tblv (i : Instr) (w : Word32) : (s.accept i w).tblv = s.tblv := rfl
@[simp] theorem State.accept_errCode (i : Instr) (w : Word32) : (s.accept i w).errCode = s.errCode := rfl
@[simp] theorem State.accept_cmd (i : Instr) (w : Word32) : (s.accept i w).cmd = w := rfl
@[simp] theorem State.accept_errInfo (i : Instr) (w : Word32) : (s.accept i w).errInfo = s.errInfo := rfl
@[simp] theorem State.accept_tbl (i : Instr) (w : Word32) : (s.accept i w).tbl = s.tbl := rfl
@[simp] theorem State.accept_latch (i : Instr) (w : Word32) : (s.accept i w).latch = some ⟨w, latchSources i s⟩ := rfl
@[simp] theorem State.accept_port (i : Instr) (w : Word32) : (s.accept i w).port = s.port := rfl
@[simp] theorem State.accept_reply (i : Instr) (w : Word32) : (s.accept i w).reply = s.reply := rfl
@[simp] theorem State.accept_drawn (i : Instr) (w : Word32) : (s.accept i w).drawn = s.drawn := rfl

/-! ### `answer` -/

@[simp] theorem State.answer_regs (w : Word32) : (s.answer w).regs = s.regs := rfl
@[simp] theorem State.answer_ie (w : Word32) : (s.answer w).ie = s.ie := rfl
@[simp] theorem State.answer_busy (w : Word32) : (s.answer w).busy = s.busy := rfl
@[simp] theorem State.answer_done (w : Word32) : (s.answer w).done = s.done := rfl
@[simp] theorem State.answer_err (w : Word32) : (s.answer w).err = s.err := rfl
@[simp] theorem State.answer_tblv (w : Word32) : (s.answer w).tblv = s.tblv := rfl
@[simp] theorem State.answer_errCode (w : Word32) : (s.answer w).errCode = s.errCode := rfl
@[simp] theorem State.answer_cmd (w : Word32) : (s.answer w).cmd = s.cmd := rfl
@[simp] theorem State.answer_errInfo (w : Word32) : (s.answer w).errInfo = s.errInfo := rfl
@[simp] theorem State.answer_tbl (w : Word32) : (s.answer w).tbl = s.tbl := rfl
@[simp] theorem State.answer_latch (w : Word32) : (s.answer w).latch = s.latch := rfl
@[simp] theorem State.answer_port (w : Word32) : (s.answer w).port = s.port := rfl
@[simp] theorem State.answer_reply (w : Word32) : (s.answer w).reply = some w := rfl
@[simp] theorem State.answer_drawn (w : Word32) : (s.answer w).drawn = s.drawn := rfl

/-! ### `begin` -/

@[simp] theorem State.begin_regs (rest : List PortEvent) : (s.begin rest).regs = s.regs := rfl
@[simp] theorem State.begin_ie (rest : List PortEvent) : (s.begin rest).ie = s.ie := rfl
@[simp] theorem State.begin_busy (rest : List PortEvent) : (s.begin rest).busy = s.busy := rfl
@[simp] theorem State.begin_done (rest : List PortEvent) : (s.begin rest).done = s.done := rfl
@[simp] theorem State.begin_err (rest : List PortEvent) : (s.begin rest).err = s.err := rfl
@[simp] theorem State.begin_tblv (rest : List PortEvent) : (s.begin rest).tblv = s.tblv := rfl
@[simp] theorem State.begin_errCode (rest : List PortEvent) : (s.begin rest).errCode = s.errCode := rfl
@[simp] theorem State.begin_cmd (rest : List PortEvent) : (s.begin rest).cmd = s.cmd := rfl
@[simp] theorem State.begin_errInfo (rest : List PortEvent) : (s.begin rest).errInfo = s.errInfo := rfl
@[simp] theorem State.begin_tbl (rest : List PortEvent) : (s.begin rest).tbl = s.tbl := rfl
@[simp] theorem State.begin_latch (rest : List PortEvent) : (s.begin rest).latch = s.latch := rfl
@[simp] theorem State.begin_port (rest : List PortEvent) : (s.begin rest).port = rest := rfl
@[simp] theorem State.begin_reply (rest : List PortEvent) : (s.begin rest).reply = none := rfl
@[simp] theorem State.begin_drawn (rest : List PortEvent) : (s.begin rest).drawn = s.drawn := rfl

/-! ### Updates with a condition: the fields they keep -/

@[simp] theorem State.raiseError_regs (code : ErrCode) (info : Word32) : (s.raiseError code info).regs = s.regs := by
  unfold State.raiseError; split <;> rfl
@[simp] theorem State.raiseError_ie (code : ErrCode) (info : Word32) : (s.raiseError code info).ie = s.ie := by
  unfold State.raiseError; split <;> rfl
@[simp] theorem State.raiseError_busy (code : ErrCode) (info : Word32) : (s.raiseError code info).busy = s.busy := by
  unfold State.raiseError; split <;> rfl
@[simp] theorem State.raiseError_done (code : ErrCode) (info : Word32) : (s.raiseError code info).done = s.done := by
  unfold State.raiseError; split <;> rfl
@[simp] theorem State.raiseError_tblv (code : ErrCode) (info : Word32) : (s.raiseError code info).tblv = s.tblv := by
  unfold State.raiseError; split <;> rfl
@[simp] theorem State.raiseError_cmd (code : ErrCode) (info : Word32) : (s.raiseError code info).cmd = s.cmd := by
  unfold State.raiseError; split <;> rfl
@[simp] theorem State.raiseError_tbl (code : ErrCode) (info : Word32) : (s.raiseError code info).tbl = s.tbl := by
  unfold State.raiseError; split <;> rfl
@[simp] theorem State.raiseError_latch (code : ErrCode) (info : Word32) : (s.raiseError code info).latch = s.latch := by
  unfold State.raiseError; split <;> rfl
@[simp] theorem State.raiseError_port (code : ErrCode) (info : Word32) : (s.raiseError code info).port = s.port := by
  unfold State.raiseError; split <;> rfl
@[simp] theorem State.raiseError_reply (code : ErrCode) (info : Word32) : (s.raiseError code info).reply = s.reply := by
  unfold State.raiseError; split <;> rfl
@[simp] theorem State.raiseError_drawn (code : ErrCode) (info : Word32) : (s.raiseError code info).drawn = s.drawn := by
  unfold State.raiseError; split <;> rfl

@[simp] theorem State.ensureTable_regs : (s.ensureTable).regs = s.regs := by
  unfold State.ensureTable; split <;> rfl
@[simp] theorem State.ensureTable_ie : (s.ensureTable).ie = s.ie := by
  unfold State.ensureTable; split <;> rfl
@[simp] theorem State.ensureTable_busy : (s.ensureTable).busy = s.busy := by
  unfold State.ensureTable; split <;> rfl
@[simp] theorem State.ensureTable_done : (s.ensureTable).done = s.done := by
  unfold State.ensureTable; split <;> rfl
@[simp] theorem State.ensureTable_err : (s.ensureTable).err = s.err := by
  unfold State.ensureTable; split <;> rfl
@[simp] theorem State.ensureTable_errCode : (s.ensureTable).errCode = s.errCode := by
  unfold State.ensureTable; split <;> rfl
@[simp] theorem State.ensureTable_cmd : (s.ensureTable).cmd = s.cmd := by
  unfold State.ensureTable; split <;> rfl
@[simp] theorem State.ensureTable_errInfo : (s.ensureTable).errInfo = s.errInfo := by
  unfold State.ensureTable; split <;> rfl
@[simp] theorem State.ensureTable_latch : (s.ensureTable).latch = s.latch := by
  unfold State.ensureTable; split <;> rfl
@[simp] theorem State.ensureTable_port : (s.ensureTable).port = s.port := by
  unfold State.ensureTable; split <;> rfl
@[simp] theorem State.ensureTable_reply : (s.ensureTable).reply = s.reply := by
  unfold State.ensureTable; split <;> rfl
@[simp] theorem State.ensureTable_drawn : (s.ensureTable).drawn = s.drawn := by
  unfold State.ensureTable; split <;> rfl

@[simp] theorem State.writeElem_ie (r : RegIdx) (o : Option Elem) : (s.writeElem r o).ie = s.ie := by
  unfold State.writeElem; cases o <;> rfl
@[simp] theorem State.writeElem_busy (r : RegIdx) (o : Option Elem) : (s.writeElem r o).busy = s.busy := by
  unfold State.writeElem; cases o <;> rfl
@[simp] theorem State.writeElem_done (r : RegIdx) (o : Option Elem) : (s.writeElem r o).done = s.done := by
  unfold State.writeElem; cases o <;> rfl
@[simp] theorem State.writeElem_err (r : RegIdx) (o : Option Elem) : (s.writeElem r o).err = s.err := by
  unfold State.writeElem; cases o <;> rfl
@[simp] theorem State.writeElem_tblv (r : RegIdx) (o : Option Elem) : (s.writeElem r o).tblv = s.tblv := by
  unfold State.writeElem; cases o <;> rfl
@[simp] theorem State.writeElem_errCode (r : RegIdx) (o : Option Elem) : (s.writeElem r o).errCode = s.errCode := by
  unfold State.writeElem; cases o <;> rfl
@[simp] theorem State.writeElem_cmd (r : RegIdx) (o : Option Elem) : (s.writeElem r o).cmd = s.cmd := by
  unfold State.writeElem; cases o <;> rfl
@[simp] theorem State.writeElem_errInfo (r : RegIdx) (o : Option Elem) : (s.writeElem r o).errInfo = s.errInfo := by
  unfold State.writeElem; cases o <;> rfl
@[simp] theorem State.writeElem_tbl (r : RegIdx) (o : Option Elem) : (s.writeElem r o).tbl = s.tbl := by
  unfold State.writeElem; cases o <;> rfl
@[simp] theorem State.writeElem_latch (r : RegIdx) (o : Option Elem) : (s.writeElem r o).latch = s.latch := by
  unfold State.writeElem; cases o <;> rfl
@[simp] theorem State.writeElem_port (r : RegIdx) (o : Option Elem) : (s.writeElem r o).port = s.port := by
  unfold State.writeElem; cases o <;> rfl
@[simp] theorem State.writeElem_reply (r : RegIdx) (o : Option Elem) : (s.writeElem r o).reply = s.reply := by
  unfold State.writeElem; cases o <;> rfl

@[simp] theorem State.writeAff_ie (b : RegIdx) (o : Option Aff) : (s.writeAff b o).ie = s.ie := by
  simp [State.writeAff]
@[simp] theorem State.writeAff_busy (b : RegIdx) (o : Option Aff) : (s.writeAff b o).busy = s.busy := by
  simp [State.writeAff]
@[simp] theorem State.writeAff_done (b : RegIdx) (o : Option Aff) : (s.writeAff b o).done = s.done := by
  simp [State.writeAff]
@[simp] theorem State.writeAff_err (b : RegIdx) (o : Option Aff) : (s.writeAff b o).err = s.err := by
  simp [State.writeAff]
@[simp] theorem State.writeAff_tblv (b : RegIdx) (o : Option Aff) : (s.writeAff b o).tblv = s.tblv := by
  simp [State.writeAff]
@[simp] theorem State.writeAff_errCode (b : RegIdx) (o : Option Aff) : (s.writeAff b o).errCode = s.errCode := by
  simp [State.writeAff]
@[simp] theorem State.writeAff_cmd (b : RegIdx) (o : Option Aff) : (s.writeAff b o).cmd = s.cmd := by
  simp [State.writeAff]
@[simp] theorem State.writeAff_errInfo (b : RegIdx) (o : Option Aff) : (s.writeAff b o).errInfo = s.errInfo := by
  simp [State.writeAff]
@[simp] theorem State.writeAff_tbl (b : RegIdx) (o : Option Aff) : (s.writeAff b o).tbl = s.tbl := by
  simp [State.writeAff]
@[simp] theorem State.writeAff_latch (b : RegIdx) (o : Option Aff) : (s.writeAff b o).latch = s.latch := by
  simp [State.writeAff]
@[simp] theorem State.writeAff_port (b : RegIdx) (o : Option Aff) : (s.writeAff b o).port = s.port := by
  simp [State.writeAff]
@[simp] theorem State.writeAff_reply (b : RegIdx) (o : Option Aff) : (s.writeAff b o).reply = s.reply := by
  simp [State.writeAff]

@[simp] theorem State.writeJac_ie (b : RegIdx) (o : Option Jac) : (s.writeJac b o).ie = s.ie := by
  simp [State.writeJac]
@[simp] theorem State.writeJac_busy (b : RegIdx) (o : Option Jac) : (s.writeJac b o).busy = s.busy := by
  simp [State.writeJac]
@[simp] theorem State.writeJac_done (b : RegIdx) (o : Option Jac) : (s.writeJac b o).done = s.done := by
  simp [State.writeJac]
@[simp] theorem State.writeJac_err (b : RegIdx) (o : Option Jac) : (s.writeJac b o).err = s.err := by
  simp [State.writeJac]
@[simp] theorem State.writeJac_tblv (b : RegIdx) (o : Option Jac) : (s.writeJac b o).tblv = s.tblv := by
  simp [State.writeJac]
@[simp] theorem State.writeJac_errCode (b : RegIdx) (o : Option Jac) : (s.writeJac b o).errCode = s.errCode := by
  simp [State.writeJac]
@[simp] theorem State.writeJac_cmd (b : RegIdx) (o : Option Jac) : (s.writeJac b o).cmd = s.cmd := by
  simp [State.writeJac]
@[simp] theorem State.writeJac_errInfo (b : RegIdx) (o : Option Jac) : (s.writeJac b o).errInfo = s.errInfo := by
  simp [State.writeJac]
@[simp] theorem State.writeJac_tbl (b : RegIdx) (o : Option Jac) : (s.writeJac b o).tbl = s.tbl := by
  simp [State.writeJac]
@[simp] theorem State.writeJac_latch (b : RegIdx) (o : Option Jac) : (s.writeJac b o).latch = s.latch := by
  simp [State.writeJac]
@[simp] theorem State.writeJac_port (b : RegIdx) (o : Option Jac) : (s.writeJac b o).port = s.port := by
  simp [State.writeJac]
@[simp] theorem State.writeJac_reply (b : RegIdx) (o : Option Jac) : (s.writeJac b o).reply = s.reply := by
  simp [State.writeJac]

@[simp] theorem State.writeStatus_regs (v : Word32) : (s.writeStatus v).regs = s.regs := by
  unfold State.writeStatus; split <;> split <;> rfl
@[simp] theorem State.writeStatus_ie (v : Word32) : (s.writeStatus v).ie = s.ie := by
  unfold State.writeStatus; split <;> split <;> rfl
@[simp] theorem State.writeStatus_busy (v : Word32) : (s.writeStatus v).busy = s.busy := by
  unfold State.writeStatus; split <;> split <;> rfl
@[simp] theorem State.writeStatus_tblv (v : Word32) : (s.writeStatus v).tblv = s.tblv := by
  unfold State.writeStatus; split <;> split <;> rfl
@[simp] theorem State.writeStatus_cmd (v : Word32) : (s.writeStatus v).cmd = s.cmd := by
  unfold State.writeStatus; split <;> split <;> rfl
@[simp] theorem State.writeStatus_tbl (v : Word32) : (s.writeStatus v).tbl = s.tbl := by
  unfold State.writeStatus; split <;> split <;> rfl
@[simp] theorem State.writeStatus_latch (v : Word32) : (s.writeStatus v).latch = s.latch := by
  unfold State.writeStatus; split <;> split <;> rfl
@[simp] theorem State.writeStatus_port (v : Word32) : (s.writeStatus v).port = s.port := by
  unfold State.writeStatus; split <;> split <;> rfl
@[simp] theorem State.writeStatus_reply (v : Word32) : (s.writeStatus v).reply = s.reply := by
  unfold State.writeStatus; split <;> split <;> rfl
@[simp] theorem State.writeStatus_drawn (v : Word32) : (s.writeStatus v).drawn = s.drawn := by
  unfold State.writeStatus; split <;> split <;> rfl

end Sys2Proof.Machine
end

