-- ==== Sys2Proof/Laws/Ops.lean ====
section
/-!
SUPPORT. What each shared operation does, once: ending a meaning, writing a register, an affine and a Jacobian point, building the table,
raising an error, and reading a latched source.
-/
namespace Sys2Proof.Machine

variable {s t : State}

/-! ### Ending a meaning -/

@[simp] theorem finish_true (s : State) : finish true s = .next s.complete := rfl

theorem finish_of_ok {ok : Bool} (h : ok = true) (s : State) : finish ok s = .next s.complete := by subst h; rfl

/-- A meaning answers a next state only when its operands are in range, and that state is the completed one. -/
theorem finish_eq_next_iff {ok : Bool} : finish ok s = .next t ↔ ok = true ∧ t = s.complete := by
  cases ok <;> simp [finish, eq_comm]

/-- A completed state differs from `s` by the completion alone, if what was done before it kept the control state. -/
theorem Completed.of_kept (hie : t.ie = s.ie) (herr : t.err = s.err) (hcode : t.errCode = s.errCode) (hinfo : t.errInfo = s.errInfo)
    (hcmd : t.cmd = s.cmd) (hport : t.port = s.port) (hreply : t.reply = s.reply) : Completed s t.complete :=
  ⟨rfl, rfl, rfl, hie, herr, hcode, hinfo, hcmd, hport, hreply⟩

/-- Completion changes no register. -/
@[simp] theorem holds_complete_iff {r : RegIdx} {v : Elem} : Holds s.complete r v ↔ Holds s r v := Iff.rfl

/-! ### Three consecutive registers are distinct -/

theorem succ_ne (b : RegIdx) : b + 1 ≠ b := by revert b; decide
theorem succ_succ_ne (b : RegIdx) : b + 2 ≠ b := by revert b; decide
theorem succ_succ_ne_succ (b : RegIdx) : b + 2 ≠ b + 1 := by revert b; decide

/-! ### Register writes -/

theorem State.setReg_regs_self (s : State) (r : RegIdx) (v : Elem) : (s.setReg r v).regs[r] = ⟨v, allWritten⟩ := by
  simp

theorem State.setReg_regs_ne (s : State) {r r' : RegIdx} (h : r' ≠ r) (v : Elem) : (s.setReg r v).regs[r'] = s.regs[r'] := by
  have : r.val ≠ r'.val := fun e => h (Fin.ext e.symm)
  simp [Vector.getElem_set_ne, this]

/-- The value a write leaves: the result, or the free value that stands for UNSPEC. -/
def State.writtenValue (s : State) (o : Option Elem) : Elem := o.getD (Config.freeValue s.drawn)

theorem State.writeElem_regs_self (s : State) (r : RegIdx) (o : Option Elem) :
    (s.writeElem r o).regs[r] = ⟨s.writtenValue o, allWritten⟩ := by
  cases o
  · exact s.setReg_regs_self r _
  · exact s.setReg_regs_self r _

theorem State.writeElem_regs_ne (s : State) {r r' : RegIdx} (h : r' ≠ r) (o : Option Elem) :
    (s.writeElem r o).regs[r'] = s.regs[r'] := by
  cases o
  · exact s.setReg_regs_ne h _
  · exact s.setReg_regs_ne h _

/-- A known result is written as it is. -/
theorem holds_writeElem (s : State) (r : RegIdx) (v : Elem) : Holds (s.writeElem r (some v)) r v := s.writeElem_regs_self r (some v)

/-- UNSPEC writes a free value. -/
theorem unspec_writeElem (s : State) (r : RegIdx) : ∃ k, Holds (s.writeElem r none) r (Config.freeValue k) :=
  ⟨s.drawn, s.writeElem_regs_self r none⟩

theorem regsKept_writeElem (s : State) (r : RegIdx) (o : Option Elem) : RegsKept [r] s (s.writeElem r o) :=
  fun _ h => s.writeElem_regs_ne (by simpa using h) o

theorem State.writeAff_eq (s : State) (b : RegIdx) (o : Option Aff) :
    s.writeAff b o = (s.writeElem b (o.map (·.x))).writeElem (b + 1) (o.map (·.y)) := rfl

theorem State.writeJac_eq (s : State) (b : RegIdx) (o : Option Jac) :
    s.writeJac b o = ((s.writeElem b (o.map (·.x))).writeElem (b + 1) (o.map (·.y))).writeElem (b + 2) (o.map (·.z)) := rfl

theorem holds_writeAff (s : State) (b : RegIdx) (q : Aff) :
    Holds (s.writeAff b (some q)) b q.x ∧ Holds (s.writeAff b (some q)) (b + 1) q.y :=
  ⟨(State.writeElem_regs_ne _ (succ_ne b).symm _).trans (s.writeElem_regs_self b (some q.x)),
    State.writeElem_regs_self _ (b + 1) (some q.y)⟩

theorem unspec_writeAff (s : State) (b : RegIdx) :
    (∃ k, Holds (s.writeAff b none) b (Config.freeValue k)) ∧ ∃ k, Holds (s.writeAff b none) (b + 1) (Config.freeValue k) :=
  ⟨⟨_, (State.writeElem_regs_ne _ (succ_ne b).symm _).trans (s.writeElem_regs_self b none)⟩,
    ⟨_, State.writeElem_regs_self _ (b + 1) none⟩⟩

theorem regsKept_writeAff (s : State) (b : RegIdx) (o : Option Aff) : RegsKept [b, b + 1] s (s.writeAff b o) := by
  intro r h
  simp only [List.mem_cons, List.not_mem_nil, or_false, not_or] at h
  rw [s.writeAff_eq, State.writeElem_regs_ne _ h.2, State.writeElem_regs_ne _ h.1]

theorem holds_writeJac (s : State) (b : RegIdx) (q : Jac) :
    Holds (s.writeJac b (some q)) b q.x ∧ Holds (s.writeJac b (some q)) (b + 1) q.y ∧ Holds (s.writeJac b (some q)) (b + 2) q.z :=
  ⟨(State.writeElem_regs_ne _ (succ_succ_ne b).symm _).trans
      ((State.writeElem_regs_ne _ (succ_ne b).symm _).trans (s.writeElem_regs_self b (some q.x))),
    (State.writeElem_regs_ne _ (succ_succ_ne_succ b).symm _).trans (State.writeElem_regs_self _ (b + 1) (some q.y)),
    State.writeElem_regs_self _ (b + 2) (some q.z)⟩

theorem unspec_writeJac (s : State) (b : RegIdx) :
    (∃ k, Holds (s.writeJac b none) b (Config.freeValue k)) ∧ (∃ k, Holds (s.writeJac b none) (b + 1) (Config.freeValue k)) ∧
      ∃ k, Holds (s.writeJac b none) (b + 2) (Config.freeValue k) :=
  ⟨⟨_, (State.writeElem_regs_ne _ (succ_succ_ne b).symm _).trans
      ((State.writeElem_regs_ne _ (succ_ne b).symm _).trans (s.writeElem_regs_self b none))⟩,
    ⟨_, (State.writeElem_regs_ne _ (succ_succ_ne_succ b).symm _).trans (State.writeElem_regs_self _ (b + 1) none)⟩,
    ⟨_, State.writeElem_regs_self _ (b + 2) none⟩⟩

theorem regsKept_writeJac (s : State) (b : RegIdx) (o : Option Jac) : RegsKept [b, b + 1, b + 2] s (s.writeJac b o) := by
  intro r h
  simp only [List.mem_cons, List.not_mem_nil, or_false, not_or] at h
  rw [s.writeJac_eq, State.writeElem_regs_ne _ h.2.2, State.writeElem_regs_ne _ h.2.1, State.writeElem_regs_ne _ h.1]

/-- Every destination of a point write is written. -/
theorem written_writeElem (s : State) (r : RegIdx) (o : Option Elem) : ((s.writeElem r o).regs[r]).written = allWritten := by
  rw [s.writeElem_regs_self]

theorem written_writeAff (s : State) (b : RegIdx) (o : Option Aff) : ∀ r ∈ [b, b + 1], ((s.writeAff b o).regs[r]).written = allWritten := by
  intro r h
  rw [s.writeAff_eq]
  simp only [List.mem_cons, List.not_mem_nil, or_false] at h
  rcases h with rfl | rfl
  · rw [State.writeElem_regs_ne _ (succ_ne r).symm]; exact written_writeElem ..
  · exact written_writeElem ..

theorem written_writeJac (s : State) (b : RegIdx) (o : Option Jac) :
    ∀ r ∈ [b, b + 1, b + 2], ((s.writeJac b o).regs[r]).written = allWritten := by
  intro r h
  rw [s.writeJac_eq]
  simp only [List.mem_cons, List.not_mem_nil, or_false] at h
  rcases h with rfl | rfl | rfl
  · rw [State.writeElem_regs_ne _ (succ_succ_ne r).symm, State.writeElem_regs_ne _ (succ_ne r).symm]; exact written_writeElem ..
  · rw [State.writeElem_regs_ne _ (succ_succ_ne_succ b).symm]; exact written_writeElem ..
  · exact written_writeElem ..

/-! ### The base-point table -/

@[simp] theorem State.ensureTable_tblv (s : State) : s.ensureTable.tblv = true := by
  unfold State.ensureTable; split
  · assumption
  · rfl

@[simp] theorem State.ensureTable_tbl (s : State) : s.ensureTable.tbl = if s.tblv then s.tbl else baseTable := by
  unfold State.ensureTable; split <;> rfl

/-! ### The error record -/

@[simp] theorem State.raiseError_err (s : State) (code : ErrCode) (info : Word32) : (s.raiseError code info).err = true := by
  unfold State.raiseError; split
  · assumption
  · rfl

theorem State.raiseError_of_err (h : s.err = true) (code : ErrCode) (info : Word32) : s.raiseError code info = s := by
  simp [State.raiseError, h]

theorem State.raiseError_of_no_err (h : s.err = false) (code : ErrCode) (info : Word32) :
    s.raiseError code info = { s with err := true, errCode := code, errInfo := info } := by
  simp [State.raiseError, h]

/-! ### Sources -/

/-- What the latch holds of a source register is what the register held at acceptance. -/
theorem findLatched_latchSources (i : Instr) (s : State) {r : RegIdx} (h : r ∈ sources i) :
    findLatched r (latchSources i s) = s.regs[r] := by
  unfold latchSources
  revert h
  generalize sources i = l
  intro h
  induction l with
  | nil => cases h
  | cons x xs ih =>
    rw [List.map_cons, findLatched]
    by_cases e : x = r
    · rw [if_pos e]; subst e; rfl
    · rw [if_neg e]; exact ih ((List.mem_cons.1 h).resolve_left (fun e' => e e'.symm))

theorem State.source_accept (i : Instr) (w : Word32) {r : RegIdx} (h : r ∈ sources i) : (s.accept i w).source r = s.regs[r] :=
  findLatched_latchSources i s h

@[simp] theorem Reg.isWritten_iff (r : Reg) : r.isWritten = true ↔ r.written = allWritten := by simp [Reg.isWritten]

theorem SourceHolds.value? {r : RegIdx} {v : Elem} (h : SourceHolds s r v) : (s.source r).value? = some v := by
  rw [show s.source r = _ from h]; rfl

theorem SourceHolds.canonical? {r : RegIdx} {v : Elem} (h : SourceHolds s r v) {m : Modulus} (hv : v.toNat < modulus m) :
    (s.source r).canonical? m = some v := by
  rw [show s.source r = _ from h]
  simp [Reg.canonical?, Reg.isWritten, canonical, hv]

/-- A source that is unwritten or not below M has no value to compute with (40_field R82, R83). -/
theorem Reg.canonical?_eq_none {r : Reg} {m : Modulus} (h : r.written ≠ allWritten ∨ modulus m ≤ r.value.toNat) :
    r.canonical? m = none := by
  rcases h with h | h
  · simp [Reg.canonical?, Reg.isWritten, h]
  · simp [Reg.canonical?, canonical, Nat.not_lt.2 h]

theorem Reg.value?_eq_none {r : Reg} (h : r.written ≠ allWritten) : r.value? = none := by
  simp [Reg.value?, Reg.isWritten, h]

/-- SMULG of a written scalar writes its value over the table. -/
theorem SourceHolds.smulgResult {r : RegIdx} {k : Elem} (h : SourceHolds s r k) (tbl : List (List Aff)) :
    smulgResult tbl (s.source r) = some (smulg tbl k) := by
  rw [Machine.smulgResult, h.value?, Option.map_some]

/-- SMULG of an unwritten scalar is UNSPEC. -/
theorem smulgResult_eq_none {r : Reg} (h : r.written ≠ allWritten) (tbl : List (List Aff)) : smulgResult tbl r = none := by
  rw [smulgResult, Reg.value?_eq_none h, Option.map_none]

/-- SMULP of a written scalar and a point of written coordinates is SMULP's value or UNSPEC, as `smulp` says. -/
theorem SourceHolds.smulpResult {r : RegIdx} {k : Elem} (h : SourceHolds s r k) (q : Aff) :
    smulpResult (s.source r) (some q) = smulp k q := by
  simp only [Machine.smulpResult, h.value?]

/-- SMULP of an unwritten scalar is UNSPEC. -/
theorem smulpResult_eq_none_of_scalar {r : Reg} (h : r.written ≠ allWritten) (q : Option Aff) : smulpResult r q = none := by
  simp only [smulpResult, Reg.value?_eq_none h]

/-- SMULP of a point with an unwritten coordinate is UNSPEC. -/
theorem smulpResult_none (r : Reg) : smulpResult r none = none := by
  unfold smulpResult; cases r.value? <;> rfl

end Sys2Proof.Machine
end

