-- ==== Sys2Proof/Laws/Exec.lean ====
section
/-!
SUPPORT. What exec is for each constructor, one equation each: a check of the operands and the state that is then completed. Later proofs rewrite
with these and unfold no meaning.
-/
namespace Sys2Proof.Machine

theorem exec_nop (s : State) :
    exec .nop s = finish true s := rfl

theorem exec_fmul (m : Modulus) (rd ra rb : RegIdx) (s : State) :
    exec (.fmul m rd ra rb) s = finish true (s.writeElem rd (binaryResult mm m (s.source ra) (s.source rb))) := rfl

theorem exec_fadd (m : Modulus) (rd ra rb : RegIdx) (s : State) :
    exec (.fadd m rd ra rb) s = finish true (s.writeElem rd (binaryResult addm m (s.source ra) (s.source rb))) := rfl

theorem exec_fsub (m : Modulus) (rd ra rb : RegIdx) (s : State) :
    exec (.fsub m rd ra rb) s = finish true (s.writeElem rd (binaryResult subm m (s.source ra) (s.source rb))) := rfl

theorem exec_fhlv (m : Modulus) (rd ra : RegIdx) (s : State) :
    exec (.fhlv m rd ra) s = finish true (s.writeElem rd (unaryResult halfm m (s.source ra))) := rfl

theorem exec_fsel (rd ra rb rc : RegIdx) (s : State) :
    exec (.fsel rd ra rb rc) s = finish true (s.writeElem rd (selectResult (s.source ra) (s.source rb) (s.source rc))) := rfl

theorem exec_ftom (m : Modulus) (rd ra : RegIdx) (s : State) :
    exec (.ftom m rd ra) s = finish true (s.writeElem rd (unaryResult toMont m (s.source ra))) := rfl

theorem exec_ffrm (m : Modulus) (rd ra : RegIdx) (s : State) :
    exec (.ffrm m rd ra) s = finish true (s.writeElem rd (unaryResult fromMont m (s.source ra))) := rfl

theorem exec_finv (m : Modulus) (rd ra : RegIdx) (s : State) :
    exec (.finv m rd ra) s = finish true (s.writeElem rd (inverseResult m (s.source ra))) := rfl

theorem exec_ldc (rd : RegIdx) (cid : Fin 16) (s : State) :
    exec (.ldc rd cid) s = finish (cidOk cid) (s.writeElem rd (constant cid.val)) := rfl

theorem exec_pdbl (rd ra : RegIdx) (s : State) :
    exec (.pdbl rd ra) s = finish (jacBaseOk rd && jacBaseOk ra) (s.writeJac rd (pdblResult (s.jacSource ra))) := rfl

theorem exec_padd (rd ra rb : RegIdx) (sign sel zero : Bool) (s : State) :
    exec (.padd rd ra rb sign sel zero) s = finish (jacBaseOk rd && jacBaseOk ra && affBaseOk rb)
      (s.writeJac rd (paddResult sign sel zero (s.jacSource ra) (s.affSource rb))) := rfl

theorem exec_pj2a (rd ra : RegIdx) (s : State) :
    exec (.pj2a rd ra) s = finish (affBaseOk rd && jacBaseOk ra) (s.writeAff rd (pj2aResult (s.jacSource ra))) := rfl

theorem exec_pa2j (rd ra : RegIdx) (s : State) :
    exec (.pa2j rd ra) s = finish (jacBaseOk rd && affBaseOk ra) (s.writeJac rd ((s.affSource ra).map Aff.toJac)) := rfl

theorem exec_tblb (s : State) :
    exec .tblb s = finish true s.ensureTable := rfl

theorem exec_tblrd (rd : RegIdx) (win : Fin 64) (ent : Fin 32) (s : State) :
    exec (.tblrd rd win ent) s = finish (affBaseOk rd && winOk win) (s.ensureTable.writeAff rd (tableEntry s.ensureTable.tbl win.val ent.val)) := rfl

theorem exec_smulg (rd ra : RegIdx) (s : State) :
    exec (.smulg rd ra) s = finish (jacBaseOk rd)
      (s.ensureTable.writeJac rd (smulgResult s.ensureTable.tbl (s.source ra))) := rfl

theorem exec_smulp (rd ra rb : RegIdx) (s : State) :
    exec (.smulp rd ra rb) s = finish (jacBaseOk rd && affBaseOk rb)
      (s.writeJac rd (smulpResult (s.source ra) (s.affSource rb))) := rfl

/-- Every meaning is a state followed by the shared ending. -/
theorem exec_eq_finish (i : Instr) (s : State) : ∃ ok u, exec i s = finish ok u := by
  cases i
  case nop => exact ⟨_, _, exec_nop ..⟩
  case fmul => exact ⟨_, _, exec_fmul ..⟩
  case fadd => exact ⟨_, _, exec_fadd ..⟩
  case fsub => exact ⟨_, _, exec_fsub ..⟩
  case fhlv => exact ⟨_, _, exec_fhlv ..⟩
  case fsel => exact ⟨_, _, exec_fsel ..⟩
  case ftom => exact ⟨_, _, exec_ftom ..⟩
  case ffrm => exact ⟨_, _, exec_ffrm ..⟩
  case finv => exact ⟨_, _, exec_finv ..⟩
  case ldc => exact ⟨_, _, exec_ldc ..⟩
  case pdbl => exact ⟨_, _, exec_pdbl ..⟩
  case padd => exact ⟨_, _, exec_padd ..⟩
  case pj2a => exact ⟨_, _, exec_pj2a ..⟩
  case pa2j => exact ⟨_, _, exec_pa2j ..⟩
  case tblb => exact ⟨_, _, exec_tblb ..⟩
  case tblrd => exact ⟨_, _, exec_tblrd ..⟩
  case smulg => exact ⟨_, _, exec_smulg ..⟩
  case smulp => exact ⟨_, _, exec_smulp ..⟩

/-- A command that answers a next state leaves the control state as its completion does. -/
theorem exec_next_completed {i : Instr} {s t : State} (h : exec i s = .next t) : Completed s t := by
  have key : ∀ {ok : Bool} {u : State}, finish ok u = .next t → u.ie = s.ie ∧ u.err = s.err ∧ u.errCode = s.errCode ∧
      u.errInfo = s.errInfo ∧ u.cmd = s.cmd ∧ u.port = s.port ∧ u.reply = s.reply → Completed s t := by
    intro ok u hf hk
    obtain ⟨-, rfl⟩ := finish_eq_next_iff.1 hf
    obtain ⟨h1, h2, h3, h4, h5, h6, h7⟩ := hk
    exact .of_kept h1 h2 h3 h4 h5 h6 h7
  cases i with
  | nop => rw [exec_nop] at h; exact key h (by simp)
  | fmul m rd ra rb => rw [exec_fmul] at h; exact key h (by simp)
  | fadd m rd ra rb => rw [exec_fadd] at h; exact key h (by simp)
  | fsub m rd ra rb => rw [exec_fsub] at h; exact key h (by simp)
  | fhlv m rd ra => rw [exec_fhlv] at h; exact key h (by simp)
  | fsel rd ra rb rc => rw [exec_fsel] at h; exact key h (by simp)
  | ftom m rd ra => rw [exec_ftom] at h; exact key h (by simp)
  | ffrm m rd ra => rw [exec_ffrm] at h; exact key h (by simp)
  | finv m rd ra => rw [exec_finv] at h; exact key h (by simp)
  | ldc rd cid => rw [exec_ldc] at h; exact key h (by simp)
  | pdbl rd ra => rw [exec_pdbl] at h; exact key h (by simp)
  | padd rd ra rb sign sel zero => rw [exec_padd] at h; exact key h (by simp)
  | pj2a rd ra => rw [exec_pj2a] at h; exact key h (by simp)
  | pa2j rd ra => rw [exec_pa2j] at h; exact key h (by simp)
  | tblb => rw [exec_tblb] at h; exact key h (by simp)
  | tblrd rd win ent => rw [exec_tblrd] at h; exact key h (by simp)
  | smulg rd ra => rw [exec_smulg] at h; exact key h (by simp)
  | smulp rd ra rb => rw [exec_smulp] at h; exact key h (by simp)

end Sys2Proof.Machine
end

