-- ==== Sys2Proof/Laws/Host.lean ====
section
/-!
SUPPORT. The host window and the step, once: where each offset points, everything one access can do, and everything one step can be.
-/
namespace Sys2Proof.Machine

variable {s t : State}

/-! ### Where an offset points -/

/-- Word t of register i is where 20_memory R50 puts it. -/
theorem target_regOffset (i : RegIdx) (t : Fin 8) (k : AccessKind) :
    HostAccess.target ⟨.bits32, regOffset i t, k⟩ = .regWord i t := by
  have h : ∀ i : RegIdx, ∀ t : Fin 8, (regOffset i t).toNat % 4 = 0 ∧ targetOf (regOffset i t) = .regWord i t := by decide +kernel
  rw [HostAccess.target, if_pos ⟨rfl, (h i t).1⟩, (h i t).2]

/-- A 32-bit access at a multiple of 4 reaches what its offset maps. -/
theorem target_eq_targetOf {off : Offset} (h : off.toNat % 4 = 0) (k : AccessKind) :
    HostAccess.target ⟨.bits32, off, k⟩ = targetOf off := by rw [HostAccess.target, if_pos ⟨rfl, h⟩]

theorem target_ctrl (k : AccessKind) : HostAccess.target ⟨.bits32, 0x00C, k⟩ = .ctrl :=
  (target_eq_targetOf (by decide) k).trans (by decide)

theorem target_status (k : AccessKind) : HostAccess.target ⟨.bits32, 0x010, k⟩ = .status :=
  (target_eq_targetOf (by decide) k).trans (by decide)

theorem target_cmd (k : AccessKind) : HostAccess.target ⟨.bits32, 0x014, k⟩ = .cmd :=
  (target_eq_targetOf (by decide) k).trans (by decide)

/-- What is a bad access (20_memory R48, R55). -/
theorem target_eq_unmapped_iff (a : HostAccess) :
    a.target = .unmapped ↔ a.width ≠ .bits32 ∨ a.off.toNat % 4 ≠ 0 ∨
      ¬ (a.off.toNat < 0x01C ∨ (0x100 ≤ a.off.toNat ∧ a.off.toNat < 0x300)) := by
  unfold HostAccess.target
  by_cases h : a.width = .bits32 ∧ a.off.toNat % 4 = 0
  · rw [if_pos h]
    simp only [h.1, ne_eq, not_true, h.2, false_or]
    have hh := h.2
    unfold targetOf
    simp only [← BitVec.toNat_inj]
    repeat' split
    all_goals (simp at *; omega)
  · rw [if_neg h]
    simp only [true_iff]
    by_cases hw : a.width = .bits32
    · exact .inr (.inl (fun hm => h ⟨hw, hm⟩))
    · exact .inl hw

/-- A mapped target is that of a 32-bit access at a multiple of 4. -/
theorem target_ne_unmapped {a : HostAccess} (h : a.target ≠ .unmapped) :
    a.width = .bits32 ∧ a.off.toNat % 4 = 0 ∧ targetOf a.off = a.target := by
  unfold HostAccess.target at h ⊢
  split at h
  · rename_i hc; exact ⟨hc.1, hc.2, by rw [if_pos hc]⟩
  · exact absurd rfl h

/-- An access that reaches CMD is at CMD's offset. -/
theorem target_eq_cmd {a : HostAccess} (h : a.target = .cmd) : a.width = .bits32 ∧ a.off = 0x014 := by
  obtain ⟨hw, -, ht⟩ := target_ne_unmapped (a := a) (by rw [h]; simp)
  rw [h] at ht
  refine ⟨hw, ?_⟩
  unfold targetOf at ht
  by_cases h14 : a.off = 0x014
  · exact h14
  · rw [if_neg h14] at ht
    repeat (split at ht; · simp at ht)
    simp at ht

/-- An access that reaches a register word is at that word's offset. -/
theorem target_eq_regWord {a : HostAccess} {i : RegIdx} {t : Fin 8} (h : a.target = .regWord i t) :
    a.width = .bits32 ∧ a.off = regOffset i t := by
  obtain ⟨hw, hm, ht⟩ := target_ne_unmapped (a := a) (by rw [h]; simp)
  rw [h] at ht
  refine ⟨hw, ?_⟩
  unfold targetOf at ht
  repeat (split at ht; · simp at ht)
  split at ht
  · rename_i hr
    simp only [Target.regWord.injEq] at ht
    obtain ⟨rfl, rfl⟩ := ht
    apply BitVec.eq_of_toNat_eq
    simp only [regOffset, Fin.ofNat, BitVec.toNat_ofNat]
    omega
  · simp at ht

/-! ### Accesses by target -/

theorem serveWrite_cmd (s : State) (v w : Word32) : s.serveWrite ⟨.bits32, 0x014, .write w⟩ v = s.issue v := by
  rw [State.serveWrite, target_cmd]

theorem serveWrite_ctrl (s : State) (v w : Word32) : s.serveWrite ⟨.bits32, 0x00C, .write w⟩ v = s.writeCtrl v := by
  rw [State.serveWrite, target_ctrl]

theorem serveWrite_status (s : State) (v w : Word32) : s.serveWrite ⟨.bits32, 0x010, .write w⟩ v = s.writeStatus v := by
  rw [State.serveWrite, target_status]

theorem serveWrite_regWord (s : State) (i : RegIdx) (t : Fin 8) (v w : Word32) :
    s.serveWrite ⟨.bits32, regOffset i t, .write w⟩ v = s.writeRegWord (regOffset i t) i t v := by
  rw [State.serveWrite, target_regOffset]

theorem serveRead_regWord (s : State) (i : RegIdx) (t : Fin 8) :
    s.serveRead ⟨.bits32, regOffset i t, .read⟩ = s.readRegWord i t := by
  rw [State.serveRead, target_regOffset]

/-- An idle machine accepts a word that decodes. -/
theorem issue_of_accept {w : Word32} {i : Instr} (hb : s.busy = false) (hd : decode w = .accept i) : s.issue w = s.accept i w := by
  simp [State.issue, hb, hd]

/-- An idle machine rejects a word that does not decode. -/
theorem issue_of_reject {w : Word32} {e : DecodeError} (hb : s.busy = false) (hd : decode w = .reject e) :
    s.issue w = s.raiseError (decodeErrCode e) w := by simp [State.issue, hb, hd]

/-- A busy machine drops a CMD write. -/
theorem issue_of_busy (hb : s.busy = true) (w : Word32) : s.issue w = s.raiseError .busy w := by simp [State.issue, hb]

/-! ### Everything one access can do -/

theorem Reg.word?_of_written {r : Reg} {t : Fin 8} (h : r.written.getLsbD t.val = true) : r.word? t = some (wordOf r.value t) := if_pos h

/-- A written word of the register file is what the host reads there while the engine is idle. -/
theorem State.readRegWord_of_word? {s : State} {i : RegIdx} {w : Fin 8} {v : Word32} (hb : s.busy = false) (h : s.regs[i].word? w = some v) :
    s.readRegWord i w = s.answer v := by
  unfold State.readRegWord
  rw [if_neg (by simp [hb]), h]

/-- A read changes nothing but what the port answers and the count of free values, unless it is bad; then it raises BADACC. -/
theorem serveRead_cases (s : State) (a : HostAccess) :
    (a.target ≠ .unmapped ∧ ∃ w n, s.serveRead a = { s with reply := some w, drawn := n }) ∨
    (a.target = .unmapped ∧ s.serveRead a = (s.raiseError .badAcc (offsetInfo a.off)).answer 0) := by
  unfold State.serveRead
  split
  all_goals first
    | (rename_i h; exact .inl ⟨by rw [h]; simp, _, s.drawn, rfl⟩)
    | skip
  · rename_i i t h
    refine .inl ⟨by rw [h]; simp, ?_⟩
    unfold State.readRegWord
    split
    · exact ⟨_, s.drawn, rfl⟩
    · split
      · exact ⟨_, s.drawn, rfl⟩
      · exact ⟨_, s.drawn + 1, rfl⟩
  · rename_i h; exact .inr ⟨h, rfl⟩

/-- Every effect of a write: none, the error record, CTRL, STATUS, an accepted command, or one register word. -/
theorem serveWrite_cases (s : State) (a : HostAccess) (v : Word32) :
    s.serveWrite a v = s ∨
    (∃ code info, code ≠ .none ∧ s.serveWrite a v = s.raiseError code info) ∨
    (s.serveWrite a v = s.writeCtrl v) ∨
    (s.serveWrite a v = s.writeStatus v) ∨
    (∃ i, s.busy = false ∧ decode v = .accept i ∧ a.width = .bits32 ∧ a.off = 0x014 ∧ s.serveWrite a v = s.accept i v) ∨
    (∃ i t, s.busy = false ∧ a.width = .bits32 ∧ a.off = regOffset i t ∧ s.serveWrite a v = s.setRegWord i t v) := by
  unfold State.serveWrite
  split
  · exact .inl rfl
  · exact .inl rfl
  · exact .inl rfl
  · exact .inr (.inr (.inl rfl))
  · exact .inr (.inr (.inr (.inl rfl)))
  · rename_i h
    obtain ⟨hw, ho⟩ := target_eq_cmd h
    unfold State.issue
    split
    · exact .inr (.inl ⟨_, _, by simp, rfl⟩)
    · rename_i hb
      split
      · rename_i i hd
        exact .inr (.inr (.inr (.inr (.inl ⟨i, by simpa using hb, hd, hw, ho, rfl⟩))))
      · rename_i e hd
        exact .inr (.inl ⟨_, _, by cases e <;> simp [decodeErrCode], rfl⟩)
  · exact .inl rfl
  · rename_i i t h
    obtain ⟨hw, ho⟩ := target_eq_regWord h
    unfold State.writeRegWord
    split
    · exact .inr (.inl ⟨_, _, by simp, rfl⟩)
    · rename_i hb
      exact .inr (.inr (.inr (.inr (.inr ⟨i, t, by simpa using hb, hw, ho, rfl⟩))))
  · exact .inr (.inl ⟨_, _, by simp, rfl⟩)

/-! ### Everything one step can be -/

theorem step_of_access {a : HostAccess} {rest : List PortEvent} (h : s.port = .access a :: rest) :
    step s = .next ((s.begin rest).serve a) := by
  unfold step advance; rw [h]; rfl

theorem completeInFlight_of_latch {l : Latch} {i : Instr} (hl : s.latch = some l) (hd : decode l.word = .accept i) :
    completeInFlight s = exec i s := by
  unfold completeInFlight; rw [hl]; simp only [hd]

/-- A step is an access served, the engine's turn with nothing in flight, the completion of the command in flight, or a reset. -/
theorem step_cases (h : step s = .next t) :
    (∃ a rest, s.port = .access a :: rest ∧ t = (s.begin rest).serve a) ∨
    (∃ rest, (s.port = [] ∧ rest = [] ∨ s.port = .complete :: rest) ∧
      (s.latch = none ∧ t = s.begin rest ∨
        ∃ l i, s.latch = some l ∧ decode l.word = .accept i ∧ exec i (s.begin rest) = .next t)) ∨
    (∃ rest, s.port = .reset :: rest ∧ t = (s.begin rest).resetInput) := by
  have key : ∀ rest, completeInFlight (s.begin rest) = .next t →
      (s.latch = none ∧ t = s.begin rest ∨
        ∃ l i, s.latch = some l ∧ decode l.word = .accept i ∧ exec i (s.begin rest) = .next t) := by
    intro rest hc
    unfold completeInFlight at hc
    split at hc
    · rename_i hl
      rw [Host.Outcome.next.injEq] at hc
      exact .inl ⟨hl, hc.symm⟩
    · rename_i l hl
      split at hc
      · rename_i i hd; exact .inr ⟨l, i, hl, hd, hc⟩
      · cases hc
  unfold step advance at h
  split at h
  · rename_i hp; exact .inr (.inl ⟨[], .inl ⟨hp, rfl⟩, key [] h⟩)
  · rename_i e rest hp
    unfold move at h
    split at h
    · rename_i a; rw [Host.Outcome.next.injEq] at h; exact .inl ⟨a, rest, hp, h.symm⟩
    · exact .inr (.inl ⟨rest, .inr hp, key rest h⟩)
    · rw [Host.Outcome.next.injEq] at h; exact .inr (.inr ⟨rest, hp, h.symm⟩)

end Sys2Proof.Machine
end

