-- ==== Sys2Proof/Machine/Checked.lean ====
section
/-!
DEFINITION. The cautious model of spec/93: the step that faults where a command in flight reads an unwritten register (10_state R25, U6) or
breaks another precondition (U1 to U5), and is the machine's own step everywhere else. The machine itself goes on (60_exceptions R149).
-/
namespace Sys2Proof.Machine

/-- The command reads a register that is not written (10_state R25). -/
def readsUnwritten (i : Instr) (s : State) : Bool := (sources i).any fun r => !(s.source r).isWritten

/-- The sources a command requires to be canonical (40_field R82, 41_point R100, R110, 44_scalar R132, R137). -/
def canonicalSources : Instr → List RegIdx
  | .nop => []
  | .fmul _ _ ra rb => [ra, rb]
  | .fadd _ _ ra rb => [ra, rb]
  | .fsub _ _ ra rb => [ra, rb]
  | .fhlv _ _ ra => [ra]
  | .fsel _ _ _ _ => []
  | .ftom _ _ ra => [ra]
  | .ffrm _ _ ra => [ra]
  | .finv _ _ ra => [ra]
  | .ldc _ _ => []
  | .pdbl _ ra => jacRegs ra
  | .padd _ ra rb _ _ _ => jacRegs ra ++ affRegs rb
  | .pj2a _ ra => jacRegs ra
  | .pa2j _ _ => []
  | .tblb => []
  | .tblrd _ _ _ => []
  | .smulg _ _ => []
  | .smulp _ _ rb => affRegs rb

/-- The modulus they are canonical for: the modulus bit's, and P for points (30_encoding R68, 41_point R100). -/
def commandModulus (i : Instr) : Modulus := if modulusBit i then .n else .p

/-- The command reads a value that is not canonical (U1, U2). -/
def readsNonCanonical (i : Instr) (s : State) : Bool :=
  (canonicalSources i).any fun r => !canonical (commandModulus i) (s.source r).value

/-- The source a command inverts: FINV's, and PJ2A's Z (42_inversion R115). -/
def invertedSource : Instr → Option RegIdx
  | .finv _ _ ra => some ra
  | .pj2a _ ra => some (ra + 2)
  | _ => none

/-- The command inverts 0 (U3, U4). -/
def invertsZero (i : Instr) (s : State) : Bool := (invertedSource i).any fun r => (s.source r).value == 0

/-- The command is a SMULP whose small table does not exist (44_scalar R137, U5). -/
def smallTableFails (i : Instr) (s : State) : Bool :=
  match i with
  | .smulp _ _ rb => (smallTable ⟨(s.source rb).value, (s.source (rb + 1)).value⟩).isNone
  | _ => false

/-- The precondition a command breaks, the first of them in the order of `CautionFault`; none if it keeps them all. -/
def cautionOf (i : Instr) (s : State) : Option CautionFault :=
  if readsUnwritten i s then some .unwrittenSource
  else if readsNonCanonical i s then some .nonCanonicalSource
  else if invertsZero i s then some .inversionOfZero
  else if smallTableFails i s then some .zeroInSmallTable
  else none

/-- The next step is the engine's: its turn at the port, or nothing at the port (log 6). -/
def State.engineMoves (s : State) : Bool :=
  match s.port with
  | [] => true
  | e :: _ => e == .complete

/-- The precondition broken by the command that the next step completes; none if that step completes no command. -/
def State.caution (s : State) : Option CautionFault :=
  match s.latch with
  | none => none
  | some l =>
    match decode l.word with
    | .accept i => if s.engineMoves then cautionOf i s else none
    | .reject _ => none

/-- The cautious model's step: a fault where spec/93 says the model faults, else the machine's step (10_state R25; log 21). -/
def checkedStep (s : State) : Host.Outcome State Fault Refusal :=
  match s.caution with
  | some c => .fault (.caution c)
  | none => step s

end Sys2Proof.Machine
end

