-- ==== Sys2Proof/Laws/Checked.lean ====
section
/-!
SUPPORT. The cautious model and the machine: they agree wherever the cautious model goes on, and a command draws free values exactly
where the cautious model faults.
-/
namespace Sys2Proof.Machine

variable {s t : State} {i : Instr}

/-- Where the cautious model goes on, the machine goes on to the same state. -/
theorem step_of_checkedStep (h : checkedStep s = .next t) : step s = .next t := by
  unfold checkedStep at h; split at h
  · cases h
  · exact h

/-- A command about to complete that reads an unwritten register makes the cautious model fault (10_state R25). -/
theorem checkedStep_of_readsUnwritten {l : Latch} (hl : s.latch = some l) (hd : decode l.word = .accept i) (hm : s.engineMoves = true)
    (hu : readsUnwritten i s = true) : checkedStep s = .fault (.caution .unwrittenSource) := by
  simp [checkedStep, State.caution, hl, hd, hm, cautionOf, hu]

/-- The cautious model is the machine when no precondition is broken. -/
theorem checkedStep_eq_step (h : s.caution = none) : checkedStep s = step s := by simp [checkedStep, h]

/-- The machine's own step never raises a fault of the cautious model. -/
theorem step_ne_caution (s : State) (c : CautionFault) : step s ≠ .fault (.caution c) := by
  have fin : ∀ (ok : Bool) (u : State), finish ok u ≠ .fault (.caution c) := by intro ok u; cases ok <;> simp [finish]
  have ex : ∀ (i : Instr) (u : State), exec i u ≠ .fault (.caution c) := by
    intro i u
    obtain ⟨ok, v, h⟩ := exec_eq_finish i u
    rw [h]
    exact fin ok v
  have comp : ∀ u : State, completeInFlight u ≠ .fault (.caution c) := by
    intro u
    unfold completeInFlight
    split
    · simp
    · split
      · exact ex _ _
      · simp
  unfold step advance
  split
  · exact comp _
  · unfold move
    split
    · simp
    · exact comp _
    · simp

/-! ### A command draws a free value exactly when it breaks a precondition -/

@[simp] theorem isSome_ite_some {α : Type} (c : Bool) (a : α) : (if c = true then some a else none).isSome = c := by cases c <;> rfl

@[simp] theorem Reg.value?_isSome (r : Reg) : r.value?.isSome = r.isWritten := by
  unfold Reg.value?; cases r.isWritten <;> rfl

@[simp] theorem Reg.canonical?_isSome (m : Modulus) (r : Reg) : (r.canonical? m).isSome = (r.isWritten && canonical m r.value) := by
  unfold Reg.canonical?; cases r.isWritten && canonical m r.value <;> rfl

@[simp] theorem unaryResult_isSome (op : Modulus → Elem → Elem) (m : Modulus) (a : Reg) :
    (unaryResult op m a).isSome = (a.isWritten && canonical m a.value) := by
  rw [unaryResult, Option.isSome_map, Reg.canonical?_isSome]

@[simp] theorem binaryResult_isSome (op : Modulus → Elem → Elem → Elem) (m : Modulus) (a b : Reg) :
    (binaryResult op m a b).isSome = ((a.canonical? m).isSome && (b.canonical? m).isSome) := by
  unfold binaryResult; cases a.canonical? m <;> cases b.canonical? m <;> rfl

@[simp] theorem selectResult_isSome (a b c : Reg) : (selectResult a b c).isSome = (a.isWritten && b.isWritten && c.isWritten) := by
  simp only [← Reg.value?_isSome]
  unfold selectResult; cases a.value? <;> cases b.value? <;> cases c.value? <;> rfl

@[simp] theorem inverseResult_isSome (m : Modulus) (a : Reg) :
    (inverseResult m a).isSome = (a.isWritten && canonical m a.value && a.value != 0) := by
  unfold inverseResult Reg.canonical?
  cases a.isWritten <;> cases canonical m a.value <;> by_cases h : a.value = 0 <;> simp_all

/-- The three coordinates at base `b` are written. -/
def State.jacWritten (s : State) (b : RegIdx) : Bool :=
  (s.source b).isWritten && (s.source (b + 1)).isWritten && (s.source (b + 2)).isWritten
/-- The two coordinates at base `b` are written. -/
def State.affWritten (s : State) (b : RegIdx) : Bool := (s.source b).isWritten && (s.source (b + 1)).isWritten
/-- The values of the three registers at base `b`, written or not. -/
def State.jacValue (s : State) (b : RegIdx) : Jac := ⟨(s.source b).value, (s.source (b + 1)).value, (s.source (b + 2)).value⟩
/-- The values of the two registers at base `b`, written or not. -/
def State.affValue (s : State) (b : RegIdx) : Aff := ⟨(s.source b).value, (s.source (b + 1)).value⟩

theorem State.jacSource_eq (b : RegIdx) : s.jacSource b = if s.jacWritten b then some (s.jacValue b) else none := by
  unfold State.jacSource State.jacWritten State.jacValue Reg.value?
  cases (s.source b).isWritten <;> cases (s.source (b + 1)).isWritten <;> cases (s.source (b + 2)).isWritten <;> rfl

theorem State.affSource_eq (b : RegIdx) : s.affSource b = if s.affWritten b then some (s.affValue b) else none := by
  unfold State.affSource State.affWritten State.affValue Reg.value?
  cases (s.source b).isWritten <;> cases (s.source (b + 1)).isWritten <;> rfl

theorem pdblResult_isSome (b : RegIdx) : (pdblResult (s.jacSource b)).isSome = (s.jacWritten b && (s.jacValue b).isCanonical) := by
  rw [State.jacSource_eq]; cases s.jacWritten b <;> simp [pdblResult, -Bool.and_eq_true]

theorem paddResult_isSome (sign sel zero : Bool) (a b : RegIdx) : (paddResult sign sel zero (s.jacSource a) (s.affSource b)).isSome =
    (s.jacWritten a && s.affWritten b && (s.jacValue a).isCanonical && (s.affValue b).isCanonical) := by
  rw [State.jacSource_eq, State.affSource_eq]
  cases s.jacWritten a <;> cases s.affWritten b <;> simp [paddResult, -Bool.and_eq_true]

theorem pj2aResult_isSome (b : RegIdx) : (pj2aResult (s.jacSource b)).isSome =
    (s.jacWritten b && (s.jacValue b).isCanonical && (s.jacValue b).z != 0) := by
  rw [State.jacSource_eq]; cases s.jacWritten b <;> simp [pj2aResult, -Bool.and_eq_true]

theorem smulpResult_isSome (k b : RegIdx) : (smulpResult (s.source k) (s.affSource b)).isSome =
    ((s.source k).isWritten && s.affWritten b && (s.affValue b).isCanonical && (smallTable (s.affValue b)).isSome) := by
  rw [State.affSource_eq, ← Reg.value?_isSome]
  unfold smulpResult
  cases (s.source k).value? <;> cases s.affWritten b <;> simp [smulp]
  cases (s.affValue b).isCanonical <;> simp

theorem State.writeElem_drawn (r : RegIdx) (o : Option Elem) : (s.writeElem r o).drawn = s.drawn + if o.isSome then 0 else 1 := by
  cases o <;> rfl

theorem State.writeElem_drawn_iff (r : RegIdx) (o : Option Elem) : (s.writeElem r o).drawn = s.drawn ↔ o.isSome = true := by
  rw [State.writeElem_drawn]; cases o <;> simp

theorem State.writeAff_drawn_iff (r : RegIdx) (o : Option Aff) : (s.writeAff r o).drawn = s.drawn ↔ o.isSome = true := by
  cases o <;> simp [State.writeAff, State.writeElem_drawn, Nat.add_assoc]

theorem State.writeJac_drawn_iff (r : RegIdx) (o : Option Jac) : (s.writeJac r o).drawn = s.drawn ↔ o.isSome = true := by
  cases o <;> simp [State.writeJac, State.writeElem_drawn, Nat.add_assoc]

theorem cautionOf_eq_none_iff (i : Instr) (s : State) : cautionOf i s = none ↔
    readsUnwritten i s = false ∧ readsNonCanonical i s = false ∧ invertsZero i s = false ∧ smallTableFails i s = false := by
  unfold cautionOf
  cases readsUnwritten i s <;> cases readsNonCanonical i s <;> cases invertsZero i s <;> cases smallTableFails i s <;> simp

theorem constant_isSome {cid : Fin 16} (h : cidOk cid = true) : (constant cid.val).isSome = true := by
  revert h; revert cid; decide

theorem tableEntry_isSome {rd : RegIdx} {win : Fin 64} (ent : Fin 32) (h : (affBaseOk rd && winOk win) = true) :
    (tableEntry baseTable win.val ent.val).isSome = true := by
  have hw : win.val < baseTable.length := by
    rw [baseTable, tableRows_length]
    have := (Bool.and_eq_true_iff.1 h).2
    simp only [winOk, decide_eq_true_eq] at this
    exact Nat.lt_succ_of_le this
  have hrow := (tableRows_rows 6 (n := 32) (by decide) 43 generator_below _ (List.getElem_mem hw)).1
  rw [tableEntry, List.getD_eq_getElem?_getD, List.getElem?_eq_getElem hw, Option.getD_some,
    List.getElem?_eq_getElem (by rw [hrow]; exact ent.isLt)]
  rfl

/-- A command draws free values exactly when it breaks a precondition: the free values of commands stand where spec/93 says the cautious
model faults, and nowhere else. -/
theorem cautionOf_eq_none_iff_drawn (h : exec i s = .next t) (ht : s.tblv = true → s.tbl = baseTable) :
    cautionOf i s = none ↔ t.drawn = s.drawn := by
  have key : ∀ {ok : Bool} {u : State}, finish ok u = .next t → (ok = true → (cautionOf i s = none ↔ u.drawn = s.drawn)) →
      (cautionOf i s = none ↔ t.drawn = s.drawn) := by
    intro ok u hf k
    obtain ⟨h1, rfl⟩ := finish_eq_next_iff.1 hf
    exact k h1
  have htbl : s.ensureTable.tbl = baseTable := by
    rw [State.ensureTable_tbl]; split
    · exact ht ‹_›
    · rfl
  have drawn := s.ensureTable_drawn
  rw [cautionOf_eq_none_iff] at key ⊢
  cases i <;> simp only [readsUnwritten, sources, readsNonCanonical, canonicalSources, commandModulus, modulusBit, invertsZero,
    invertedSource, smallTableFails] at key ⊢
  case nop => rw [exec_nop] at h; exact key h fun _ => by simp
  case tblb => rw [exec_tblb] at h; exact key h fun _ => by simp
  case ldc rd cid =>
    rw [exec_ldc] at h
    exact key h fun hok => by rw [State.writeElem_drawn_iff, constant_isSome hok]; simp
  case tblrd rd win ent =>
    rw [exec_tblrd, htbl] at h
    refine key h fun hok => ?_
    rw [← drawn, State.writeAff_drawn_iff, tableEntry_isSome ent hok]; simp
  case fmul m rd ra rb =>
    rw [exec_fmul] at h
    refine key h fun _ => ?_
    rw [State.writeElem_drawn_iff, binaryResult_isSome]; cases m <;> simp <;> tauto
  case fadd m rd ra rb =>
    rw [exec_fadd] at h
    refine key h fun _ => ?_
    rw [State.writeElem_drawn_iff, binaryResult_isSome]; cases m <;> simp <;> tauto
  case fsub m rd ra rb =>
    rw [exec_fsub] at h
    refine key h fun _ => ?_
    rw [State.writeElem_drawn_iff, binaryResult_isSome]; cases m <;> simp <;> tauto
  case fhlv m rd ra =>
    rw [exec_fhlv] at h
    refine key h fun _ => ?_
    rw [State.writeElem_drawn_iff]; cases m <;> simp
  case ftom m rd ra =>
    rw [exec_ftom] at h
    refine key h fun _ => ?_
    rw [State.writeElem_drawn_iff]; cases m <;> simp
  case ffrm m rd ra =>
    rw [exec_ffrm] at h
    refine key h fun _ => ?_
    rw [State.writeElem_drawn_iff]; cases m <;> simp
  case finv m rd ra =>
    rw [exec_finv] at h
    refine key h fun _ => ?_
    rw [State.writeElem_drawn_iff]; cases m <;> simp [and_assoc]
  case fsel rd ra rb rc =>
    rw [exec_fsel] at h
    refine key h fun _ => ?_
    rw [State.writeElem_drawn_iff]; simp [and_assoc]
  case pdbl rd ra =>
    rw [exec_pdbl] at h
    refine key h fun _ => ?_
    rw [State.writeJac_drawn_iff, pdblResult_isSome]
    simp [jacRegs, State.jacWritten, State.jacValue, Jac.isCanonical, and_assoc]
  case padd rd ra rb sign sel zero =>
    rw [exec_padd] at h
    refine key h fun _ => ?_
    rw [State.writeJac_drawn_iff, paddResult_isSome]
    simp [jacRegs, affRegs, State.jacWritten, State.affWritten, State.jacValue, State.affValue, Jac.isCanonical, Aff.isCanonical, and_assoc]
  case pj2a rd ra =>
    rw [exec_pj2a] at h
    refine key h fun _ => ?_
    rw [State.writeAff_drawn_iff, pj2aResult_isSome]
    simp [jacRegs, State.jacWritten, State.jacValue, Jac.isCanonical, and_assoc]
  case pa2j rd ra =>
    rw [exec_pa2j] at h
    refine key h fun _ => ?_
    rw [State.writeJac_drawn_iff, Option.isSome_map, State.affSource_eq, isSome_ite_some]
    simp [affRegs, State.affWritten]
  case smulg rd ra =>
    rw [exec_smulg] at h
    refine key h fun _ => ?_
    rw [← drawn, State.writeJac_drawn_iff, smulgResult, Option.isSome_map]
    simp
  case smulp rd ra rb =>
    rw [exec_smulp] at h
    refine key h fun _ => ?_
    rw [State.writeJac_drawn_iff, smulpResult_isSome]
    simp [affRegs, State.affWritten, State.affValue, Aff.isCanonical, and_assoc, Option.isSome_iff_ne_none]

end Sys2Proof.Machine
end

