-- ==== Sys2Proof/Laws/Decode.lean ====
section
/-!
SUPPORT. Command words as their fields: a word is its seven format-R fields or its five format-T fields, masks act field by field, and so a
table row's mask check says which fields are 0. The encoder and the table's rows are inverse to each other.
-/
namespace Sys2Proof

/-! ### Format R (30_encoding R66) -/

/-- A word from its seven format-R fields, `res` included. -/
def fieldsR (op : BitVec 6) (rd ra rb rc : BitVec 4) (res : BitVec 6) (f : BitVec 4) : Word32 :=
  op ++ rd ++ ra ++ rb ++ rc ++ res ++ f

theorem fieldsR_toNat (op : BitVec 6) (rd ra rb rc : BitVec 4) (res : BitVec 6) (f : BitVec 4) :
    (fieldsR op rd ra rb rc res f).toNat =
      op.toNat * 2 ^ 26 + rd.toNat * 2 ^ 22 + ra.toNat * 2 ^ 18 + rb.toNat * 2 ^ 14 + rc.toNat * 2 ^ 10 + res.toNat * 2 ^ 4 +
        f.toNat := by
  simp only [fieldsR, BitVec.toNat_append]
  rw [← Nat.shiftLeft_add_eq_or_of_lt f.isLt, ← Nat.shiftLeft_add_eq_or_of_lt res.isLt, ← Nat.shiftLeft_add_eq_or_of_lt rc.isLt,
    ← Nat.shiftLeft_add_eq_or_of_lt rb.isLt, ← Nat.shiftLeft_add_eq_or_of_lt ra.isLt, ← Nat.shiftLeft_add_eq_or_of_lt rd.isLt]
  simp only [Nat.shiftLeft_eq]
  omega

theorem fieldsR_inj {op op' : BitVec 6} {rd ra rb rc rd' ra' rb' rc' : BitVec 4} {res res' : BitVec 6} {f f' : BitVec 4} :
    fieldsR op rd ra rb rc res f = fieldsR op' rd' ra' rb' rc' res' f' ↔
      op = op' ∧ rd = rd' ∧ ra = ra' ∧ rb = rb' ∧ rc = rc' ∧ res = res' ∧ f = f' := by
  constructor
  · intro h
    have h := congrArg BitVec.toNat h
    simp only [fieldsR_toNat] at h
    have := op.isLt; have := op'.isLt; have := rd.isLt; have := rd'.isLt; have := ra.isLt; have := ra'.isLt
    have := rb.isLt; have := rb'.isLt; have := rc.isLt; have := rc'.isLt; have := res.isLt; have := res'.isLt
    have := f.isLt; have := f'.isLt
    simp only [← BitVec.toNat_inj]
    omega
  · rintro ⟨rfl, rfl, rfl, rfl, rfl, rfl, rfl⟩; rfl

/-- Every word is its fields. -/
theorem eq_fieldsR (w : Word32) :
    w = fieldsR (opField w) (regBits (rdField w)) (regBits (raField w)) (regBits (rbField w)) (regBits (rcField w))
      (w.extractLsb 9 4) (w.extractLsb 3 0) := by
  apply BitVec.eq_of_toNat_eq
  rw [fieldsR_toNat]
  change w.toNat = (w.extractLsb 31 26).toNat * _ + (w.extractLsb 25 22).toNat * _ + (w.extractLsb 21 18).toNat * _ +
    (w.extractLsb 17 14).toNat * _ + (w.extractLsb 13 10).toNat * _ + _ + _
  have := w.isLt
  simp only [BitVec.extractLsb_toNat, Nat.shiftRight_eq_div_pow]
  omega

theorem and_fieldsR (op op' : BitVec 6) (rd ra rb rc rd' ra' rb' rc' : BitVec 4) (res res' : BitVec 6) (f f' : BitVec 4) :
    fieldsR op rd ra rb rc res f &&& fieldsR op' rd' ra' rb' rc' res' f' =
      fieldsR (op &&& op') (rd &&& rd') (ra &&& ra') (rb &&& rb') (rc &&& rc') (res &&& res') (f &&& f') := by
  have h : ((op ++ rd ++ ra ++ rb ++ rc ++ res ++ f) &&& (op' ++ rd' ++ ra' ++ rb' ++ rc' ++ res' ++ f')) =
      ((op &&& op') ++ (rd &&& rd') ++ (ra &&& ra') ++ (rb &&& rb') ++ (rc &&& rc') ++ (res &&& res') ++ (f &&& f')) := by
    simp only [BitVec.and_append]
  exact h

/-- The fields of a word built from fields. -/
theorem fields_of_fieldsR (op : BitVec 6) (rd ra rb rc : BitVec 4) (res : BitVec 6) (f : BitVec 4) :
    let w := fieldsR op rd ra rb rc res f
    opField w = op ∧ rdField w = rd.toFin ∧ raField w = ra.toFin ∧ rbField w = rb.toFin ∧ rcField w = rc.toFin ∧
      w.extractLsb 9 4 = res ∧ w.extractLsb 3 0 = f := by
  have h := (eq_fieldsR (fieldsR op rd ra rb rc res f)).symm
  rw [fieldsR_inj] at h
  obtain ⟨h1, h2, h3, h4, h5, h6, h7⟩ := h
  exact ⟨h1, congrArg BitVec.toFin h2, congrArg BitVec.toFin h3, congrArg BitVec.toFin h4, congrArg BitVec.toFin h5, h6, h7⟩

/-- A mask check with a match value of an opcode alone, field by field. -/
theorem and_fieldsR_eq_iff (w : Word32) (o : BitVec 6) (d a b c : BitVec 4) (r : BitVec 6) (g : BitVec 4) :
    w &&& fieldsR (BitVec.allOnes 6) d a b c r g = fieldsR o 0 0 0 0 0 0 ↔
      opField w = o ∧ regBits (rdField w) &&& d = 0 ∧ regBits (raField w) &&& a = 0 ∧ regBits (rbField w) &&& b = 0 ∧
        regBits (rcField w) &&& c = 0 ∧ w.extractLsb 9 4 &&& r = 0 ∧ w.extractLsb 3 0 &&& g = 0 := by
  conv => lhs; rw [eq_fieldsR w]
  rw [and_fieldsR, fieldsR_inj, BitVec.and_allOnes]

/-! ### Format T (30_encoding R67) -/

/-- A word from its five format-T fields, `res` included. -/
def fieldsT (op : BitVec 6) (rd : BitVec 4) (win : BitVec 6) (ent : BitVec 5) (res : BitVec 11) : Word32 :=
  op ++ rd ++ win ++ ent ++ res

theorem fieldsT_toNat (op : BitVec 6) (rd : BitVec 4) (win : BitVec 6) (ent : BitVec 5) (res : BitVec 11) :
    (fieldsT op rd win ent res).toNat =
      op.toNat * 2 ^ 26 + rd.toNat * 2 ^ 22 + win.toNat * 2 ^ 16 + ent.toNat * 2 ^ 11 + res.toNat := by
  simp only [fieldsT, BitVec.toNat_append]
  rw [← Nat.shiftLeft_add_eq_or_of_lt res.isLt, ← Nat.shiftLeft_add_eq_or_of_lt ent.isLt, ← Nat.shiftLeft_add_eq_or_of_lt win.isLt,
    ← Nat.shiftLeft_add_eq_or_of_lt rd.isLt]
  simp only [Nat.shiftLeft_eq]
  omega

theorem fieldsT_inj {op op' : BitVec 6} {rd rd' : BitVec 4} {win win' : BitVec 6} {ent ent' : BitVec 5} {res res' : BitVec 11} :
    fieldsT op rd win ent res = fieldsT op' rd' win' ent' res' ↔
      op = op' ∧ rd = rd' ∧ win = win' ∧ ent = ent' ∧ res = res' := by
  constructor
  · intro h
    have h := congrArg BitVec.toNat h
    simp only [fieldsT_toNat] at h
    have := op.isLt; have := op'.isLt; have := rd.isLt; have := rd'.isLt; have := win.isLt; have := win'.isLt
    have := ent.isLt; have := ent'.isLt; have := res.isLt; have := res'.isLt
    simp only [← BitVec.toNat_inj]
    omega
  · rintro ⟨rfl, rfl, rfl, rfl, rfl⟩; rfl

theorem eq_fieldsT (w : Word32) :
    w = fieldsT (opField w) (regBits (rdField w)) (BitVec.ofFin (winField w)) (BitVec.ofFin (entField w)) (w.extractLsb 10 0) := by
  apply BitVec.eq_of_toNat_eq
  rw [fieldsT_toNat]
  change w.toNat = (w.extractLsb 31 26).toNat * _ + (w.extractLsb 25 22).toNat * _ + (w.extractLsb 21 16).toNat * _ +
    (w.extractLsb 15 11).toNat * _ + _
  have := w.isLt
  simp only [BitVec.extractLsb_toNat, Nat.shiftRight_eq_div_pow]
  omega

theorem and_fieldsT (op op' : BitVec 6) (rd rd' : BitVec 4) (win win' : BitVec 6) (ent ent' : BitVec 5) (res res' : BitVec 11) :
    fieldsT op rd win ent res &&& fieldsT op' rd' win' ent' res' =
      fieldsT (op &&& op') (rd &&& rd') (win &&& win') (ent &&& ent') (res &&& res') := by
  have h : ((op ++ rd ++ win ++ ent ++ res) &&& (op' ++ rd' ++ win' ++ ent' ++ res')) =
      ((op &&& op') ++ (rd &&& rd') ++ (win &&& win') ++ (ent &&& ent') ++ (res &&& res')) := by
    simp only [BitVec.and_append]
  exact h

theorem fields_of_fieldsT (op : BitVec 6) (rd : BitVec 4) (win : BitVec 6) (ent : BitVec 5) (res : BitVec 11) :
    let w := fieldsT op rd win ent res
    opField w = op ∧ rdField w = rd.toFin ∧ winField w = win.toFin ∧ entField w = ent.toFin ∧ w.extractLsb 10 0 = res := by
  have h := (eq_fieldsT (fieldsT op rd win ent res)).symm
  rw [fieldsT_inj] at h
  obtain ⟨h1, h2, h3, h4, h5⟩ := h
  exact ⟨h1, congrArg BitVec.toFin h2, congrArg BitVec.toFin h3, congrArg BitVec.toFin h4, h5⟩

/-- The mask check of TBLRD (30_encoding R79). -/
theorem and_tblrdMask_eq_iff (w : Word32) :
    w &&& 0xFC0007FF = 0x64000000 ↔ opField w = 0x19 ∧ w.extractLsb 10 0 = 0 := by
  rw [show (0xFC0007FF : Word32) = fieldsT (BitVec.allOnes 6) 0 0 0 (BitVec.allOnes 11) by decide,
    show (0x64000000 : Word32) = fieldsT 0x19 0 0 0 0 by decide]
  conv => lhs; rw [eq_fieldsT w]
  rw [and_fieldsT, fieldsT_inj]
  simp only [BitVec.and_allOnes]
  simp

/-! ### The mask checks of format R, mask by mask (30_encoding R79) -/

section Masks
variable (w : Word32) (o : BitVec 6)

/-- No operand: every field is 0. -/
theorem and_maskNone_eq_iff : w &&& 0xFFFFFFFF = fieldsR o 0 0 0 0 0 0 ↔ w = fieldsR o 0 0 0 0 0 0 := by
  rw [show (0xFFFFFFFF : Word32) = BitVec.allOnes 32 by decide, BitVec.and_allOnes]

/-- rd, ra, rb and m. -/
theorem and_maskDABm_eq_iff : w &&& 0xFC003FFE = fieldsR o 0 0 0 0 0 0 ↔
    opField w = o ∧ regBits (rcField w) = 0 ∧ w.extractLsb 9 4 = 0 ∧ w.extractLsb 3 0 &&& 0xE = 0 := by
  rw [show (0xFC003FFE : Word32) = fieldsR (BitVec.allOnes 6) 0 0 0 (BitVec.allOnes 4) (BitVec.allOnes 6) 0xE by decide,
    and_fieldsR_eq_iff]
  simp only [BitVec.and_allOnes]
  simp

/-- rd, ra and m. -/
theorem and_maskDAm_eq_iff : w &&& 0xFC03FFFE = fieldsR o 0 0 0 0 0 0 ↔
    opField w = o ∧ regBits (rbField w) = 0 ∧ regBits (rcField w) = 0 ∧ w.extractLsb 9 4 = 0 ∧ w.extractLsb 3 0 &&& 0xE = 0 := by
  rw [show (0xFC03FFFE : Word32) = fieldsR (BitVec.allOnes 6) 0 0 (BitVec.allOnes 4) (BitVec.allOnes 4) (BitVec.allOnes 6) 0xE by
    decide, and_fieldsR_eq_iff]
  simp only [BitVec.and_allOnes]
  simp

/-- rd, ra, rb and rc. -/
theorem and_maskDABC_eq_iff : w &&& 0xFC0003FF = fieldsR o 0 0 0 0 0 0 ↔
    opField w = o ∧ w.extractLsb 9 4 = 0 ∧ w.extractLsb 3 0 = 0 := by
  rw [show (0xFC0003FF : Word32) = fieldsR (BitVec.allOnes 6) 0 0 0 0 (BitVec.allOnes 6) (BitVec.allOnes 4) by decide,
    and_fieldsR_eq_iff]
  simp only [BitVec.and_allOnes]
  simp

/-- rd and cid. -/
theorem and_maskDc_eq_iff : w &&& 0xFC3FFFF0 = fieldsR o 0 0 0 0 0 0 ↔
    opField w = o ∧ regBits (raField w) = 0 ∧ regBits (rbField w) = 0 ∧ regBits (rcField w) = 0 ∧ w.extractLsb 9 4 = 0 := by
  rw [show (0xFC3FFFF0 : Word32) =
    fieldsR (BitVec.allOnes 6) 0 (BitVec.allOnes 4) (BitVec.allOnes 4) (BitVec.allOnes 4) (BitVec.allOnes 6) 0 by decide,
    and_fieldsR_eq_iff]
  simp only [BitVec.and_allOnes]
  simp

/-- rd and ra. -/
theorem and_maskDA_eq_iff : w &&& 0xFC03FFFF = fieldsR o 0 0 0 0 0 0 ↔
    opField w = o ∧ regBits (rbField w) = 0 ∧ regBits (rcField w) = 0 ∧ w.extractLsb 9 4 = 0 ∧ w.extractLsb 3 0 = 0 := by
  rw [show (0xFC03FFFF : Word32) =
    fieldsR (BitVec.allOnes 6) 0 0 (BitVec.allOnes 4) (BitVec.allOnes 4) (BitVec.allOnes 6) (BitVec.allOnes 4) by decide,
    and_fieldsR_eq_iff]
  simp only [BitVec.and_allOnes]
  simp

/-- rd, ra, rb and the flags of PADD. -/
theorem and_maskDABf_eq_iff : w &&& 0xFC003FF8 = fieldsR o 0 0 0 0 0 0 ↔
    opField w = o ∧ regBits (rcField w) = 0 ∧ w.extractLsb 9 4 = 0 ∧ w.extractLsb 3 0 &&& 8 = 0 := by
  rw [show (0xFC003FF8 : Word32) = fieldsR (BitVec.allOnes 6) 0 0 0 (BitVec.allOnes 4) (BitVec.allOnes 6) 8 by decide,
    and_fieldsR_eq_iff]
  simp only [BitVec.and_allOnes]
  simp

/-- rd, ra and rb. -/
theorem and_maskDAB_eq_iff : w &&& 0xFC003FFF = fieldsR o 0 0 0 0 0 0 ↔
    opField w = o ∧ regBits (rcField w) = 0 ∧ w.extractLsb 9 4 = 0 ∧ w.extractLsb 3 0 = 0 := by
  rw [show (0xFC003FFF : Word32) = fieldsR (BitVec.allOnes 6) 0 0 0 (BitVec.allOnes 4) (BitVec.allOnes 6) (BitVec.allOnes 4) by
    decide, and_fieldsR_eq_iff]
  simp only [BitVec.and_allOnes]
  simp

end Masks

/-! ### The function field -/

theorem mField_fBits (w : Word32) (h : w.extractLsb 3 0 &&& 0xE = 0) : (mField w).fBits = w.extractLsb 3 0 := by
  have e : w.getLsbD 0 = (w.extractLsb 3 0).getLsbD 0 := by simp
  have d : ∀ f : BitVec 4, f &&& 0xE = 0 → Modulus.fBits (if f.getLsbD 0 then .n else .p) = f := by decide
  rw [mField, e]; exact d _ h

theorem fBits_mField (w : Word32) (m : Modulus) (h : w.extractLsb 3 0 = m.fBits) : mField w = m := by
  have e : w.getLsbD 0 = (w.extractLsb 3 0).getLsbD 0 := by simp
  have d : ∀ m : Modulus, (if m.fBits.getLsbD 0 then Modulus.n else .p) = m := by intro m; cases m <;> rfl
  rw [mField, e, h]; exact d m

theorem flags_of_bits (w : Word32) (a b c : Bool) (h : w.extractLsb 3 0 = 0#1 ++ BitVec.ofBool a ++ BitVec.ofBool b ++ BitVec.ofBool c) :
    signField w = a ∧ selField w = b ∧ zeroField w = c := by
  have e0 : w.getLsbD 0 = (w.extractLsb 3 0).getLsbD 0 := by simp
  have e1 : w.getLsbD 1 = (w.extractLsb 3 0).getLsbD 1 := by simp
  have e2 : w.getLsbD 2 = (w.extractLsb 3 0).getLsbD 2 := by simp
  rw [signField, selField, zeroField, e0, e1, e2, h]
  clear e0 e1 e2 h
  revert a b c; decide

theorem bits_of_flags (w : Word32) (h : w.extractLsb 3 0 &&& 8 = 0) :
    0#1 ++ BitVec.ofBool (signField w) ++ BitVec.ofBool (selField w) ++ BitVec.ofBool (zeroField w) = w.extractLsb 3 0 := by
  have e0 : w.getLsbD 0 = (w.extractLsb 3 0).getLsbD 0 := by simp
  have e1 : w.getLsbD 1 = (w.extractLsb 3 0).getLsbD 1 := by simp
  have e2 : w.getLsbD 2 = (w.extractLsb 3 0).getLsbD 2 := by simp
  have d : ∀ f : BitVec 4, f &&& 8 = 0 →
    0#1 ++ BitVec.ofBool (f.getLsbD 2) ++ BitVec.ofBool (f.getLsbD 1) ++ BitVec.ofBool (f.getLsbD 0) = f := by decide
  rw [signField, selField, zeroField, e0, e1, e2]; exact d _ h

/-! ### Encoder and table -/

theorem encodeR_eq (op : BitVec 6) (rd ra rb rc : RegIdx) (f : BitVec 4) :
    encodeR op rd ra rb rc f = fieldsR op (regBits rd) (regBits ra) (regBits rb) (regBits rc) 0 f := rfl

theorem encodeT_eq (op : BitVec 6) (rd : RegIdx) (win : Fin 64) (ent : Fin 32) :
    encodeT op rd win ent = fieldsT op (regBits rd) (BitVec.ofFin win) (BitVec.ofFin ent) 0 := rfl

/-- The fields of a format-R command word. -/
theorem fields_of_encodeR (op : BitVec 6) (rd ra rb rc : RegIdx) (f : BitVec 4) :
    let w := encodeR op rd ra rb rc f
    opField w = op ∧ rdField w = rd ∧ raField w = ra ∧ rbField w = rb ∧ rcField w = rc ∧ w.extractLsb 9 4 = 0 ∧
      w.extractLsb 3 0 = f := by
  simpa [encodeR_eq, regBits] using fields_of_fieldsR op (regBits rd) (regBits ra) (regBits rb) (regBits rc) 0 f

/-- The fields of a format-T command word. -/
theorem fields_of_encodeT (op : BitVec 6) (rd : RegIdx) (win : Fin 64) (ent : Fin 32) :
    let w := encodeT op rd win ent
    opField w = op ∧ rdField w = rd ∧ winField w = win ∧ entField w = ent ∧ w.extractLsb 10 0 = 0 := by
  simpa [encodeT_eq, regBits] using fields_of_fieldsT op (regBits rd) (BitVec.ofFin win) (BitVec.ofFin ent) 0

/-- Decoding the word whose table row reads `i` back comes down to the operand checks. -/
theorem decode_eq_checkOperands {w : Word32} {row : OpRow} (h : opRow (opField w).toNat = some row)
    (hm : w &&& row.mask = row.mtch) : decode w = checkOperands (row.read w) := by
  simp [decode, h, hm]

/-- A word whose mask check fails, or of a reserved opcode, is ILLEGAL (30_encoding R72). -/
theorem decode_eq_illegal {w : Word32} (h : ∀ row, opRow (opField w).toNat = some row → w &&& row.mask ≠ row.mtch) :
    decode w = .reject .illegal := by
  unfold decode
  split
  · rfl
  · rename_i row hr; rw [if_neg (h row hr)]

/-- An accepted command passes the operand checks, and is the one the word's row reads. -/
theorem decode_accept {w : Word32} {i : Instr} (h : decode w = .accept i) :
    ∃ row, opRow (opField w).toNat = some row ∧ w &&& row.mask = row.mtch ∧ row.read w = i ∧ checkOperands i = .accept i := by
  unfold decode at h
  split at h
  · cases h
  · rename_i row hr
    split at h
    · rename_i hm
      refine ⟨row, hr, hm, ?_⟩
      have : row.read w = i := by
        revert h; unfold checkOperands; split
        · simp
        · split
          · simp
          · split <;> simp
      subst this
      exact ⟨rfl, h⟩
    · cases h

/-- The operand checks accept exactly the well-formed commands. -/
theorem checkOperands_eq_accept_iff (i : Instr) : checkOperands i = .accept i ↔ i.WellFormed := by
  cases i <;>
    simp [checkOperands, Instr.cidInRange, Instr.regsInRange, Instr.winInRange, Instr.WellFormed, Instr.wellFormed, jacBaseOk,
      affBaseOk, cidOk, winOk] <;>
    (try split) <;> (try split) <;> (try split) <;> simp_all <;> omega

end Sys2Proof
end

