-- ==== Sys2Proof/Laws/PerInstr.lean ====
section
/-!
SUPPORT. Statements about the instruction as syntax, one lemma per constructor. Family `EncodedRow`: the table row that decode picks for a
command's word passes its mask check and reads the command back, whatever the operands (30_encoding R74, R75, R79).
-/
namespace Sys2Proof.Laws.EncodedRow
open Sys2Proof

/-- The row of the command's word accepts it and reads back the command. -/
def Statement (i : Instr) : Prop :=
  ∃ row, opRow (opField (encode i)).toNat = some row ∧ encode i &&& row.mask = row.mtch ∧ row.read (encode i) = i

theorem nop : Statement .nop := ⟨_, rfl, by decide, rfl⟩

theorem fmul (m : Modulus) (rd ra rb : RegIdx) : Statement (.fmul m rd ra rb) := by
  obtain ⟨h1, h2, h3, h4, h5, h6, h7⟩ := fields_of_encodeR 0x01 rd ra rb 0 m.fBits
  refine ⟨_, by rw [encode, h1]; rfl, ?_, ?_⟩
  · refine (and_maskDABm_eq_iff _ 0x01).2 ⟨h1, ?_, h6, ?_⟩
    · rw [encode, h5]; rfl
    · rw [encode, h7]; cases m <;> rfl
  · simp only [encode, fBits_mField _ _ h7, h2, h3, h4]

theorem fadd (m : Modulus) (rd ra rb : RegIdx) : Statement (.fadd m rd ra rb) := by
  obtain ⟨h1, h2, h3, h4, h5, h6, h7⟩ := fields_of_encodeR 0x02 rd ra rb 0 m.fBits
  refine ⟨_, by rw [encode, h1]; rfl, ?_, ?_⟩
  · refine (and_maskDABm_eq_iff _ 0x02).2 ⟨h1, ?_, h6, ?_⟩
    · rw [encode, h5]; rfl
    · rw [encode, h7]; cases m <;> rfl
  · simp only [encode, fBits_mField _ _ h7, h2, h3, h4]

theorem fsub (m : Modulus) (rd ra rb : RegIdx) : Statement (.fsub m rd ra rb) := by
  obtain ⟨h1, h2, h3, h4, h5, h6, h7⟩ := fields_of_encodeR 0x03 rd ra rb 0 m.fBits
  refine ⟨_, by rw [encode, h1]; rfl, ?_, ?_⟩
  · refine (and_maskDABm_eq_iff _ 0x03).2 ⟨h1, ?_, h6, ?_⟩
    · rw [encode, h5]; rfl
    · rw [encode, h7]; cases m <;> rfl
  · simp only [encode, fBits_mField _ _ h7, h2, h3, h4]

/-- The shape rd, ra, m. -/
theorem unary (o : BitVec 6) (m : Modulus) (rd ra : RegIdx) (mk : Modulus → RegIdx → RegIdx → Instr) (row : OpRow)
    (he : ∀ m rd ra, encode (mk m rd ra) = encodeR o rd ra 0 0 m.fBits)
    (hr : opRow o.toNat = some row) (hrow : row = ⟨fieldsR o 0 0 0 0 0 0, 0xFC03FFFE, fun w => mk (mField w) (rdField w) (raField w)⟩) :
    Statement (mk m rd ra) := by
  obtain ⟨h1, h2, h3, h4, h5, h6, h7⟩ := fields_of_encodeR o rd ra 0 0 m.fBits
  subst hrow
  refine ⟨_, by rw [he, h1]; exact hr, ?_, ?_⟩ <;> rw [he]
  · refine (and_maskDAm_eq_iff _ o).2 ⟨h1, ?_, ?_, h6, ?_⟩
    · rw [h4]; rfl
    · rw [h5]; rfl
    · rw [h7]; cases m <;> rfl
  · simp only [fBits_mField _ _ h7, h2, h3]

theorem fhlv (m : Modulus) (rd ra : RegIdx) : Statement (.fhlv m rd ra) :=
  unary 0x04 m rd ra .fhlv _ (fun _ _ _ => rfl) rfl rfl

theorem fsel (rd ra rb rc : RegIdx) : Statement (.fsel rd ra rb rc) := by
  obtain ⟨h1, h2, h3, h4, h5, h6, h7⟩ := fields_of_encodeR 0x05 rd ra rb rc 0
  refine ⟨_, by rw [encode, h1]; rfl, ?_, ?_⟩
  · refine (and_maskDABC_eq_iff _ 0x05).2 ⟨h1, h6, h7⟩
  · simp only [encode, h2, h3, h4, h5]

theorem ftom (m : Modulus) (rd ra : RegIdx) : Statement (.ftom m rd ra) :=
  unary 0x06 m rd ra .ftom _ (fun _ _ _ => rfl) rfl rfl

theorem ffrm (m : Modulus) (rd ra : RegIdx) : Statement (.ffrm m rd ra) :=
  unary 0x07 m rd ra .ffrm _ (fun _ _ _ => rfl) rfl rfl

theorem finv (m : Modulus) (rd ra : RegIdx) : Statement (.finv m rd ra) :=
  unary 0x08 m rd ra .finv _ (fun _ _ _ => rfl) rfl rfl

theorem ldc (rd : RegIdx) (cid : Fin 16) : Statement (.ldc rd cid) := by
  obtain ⟨h1, h2, h3, h4, h5, h6, h7⟩ := fields_of_encodeR 0x09 rd 0 0 0 (BitVec.ofFin cid)
  refine ⟨_, by rw [encode, h1]; rfl, ?_, ?_⟩
  · refine (and_maskDc_eq_iff _ 0x09).2 ⟨h1, ?_, ?_, ?_, h6⟩
    · rw [encode, h3]; rfl
    · rw [encode, h4]; rfl
    · rw [encode, h5]; rfl
  · simp only [encode, h2, cidField, h7]

/-- The shape rd, ra. -/
theorem moving (o : BitVec 6) (rd ra : RegIdx) (mk : RegIdx → RegIdx → Instr) (row : OpRow)
    (he : ∀ rd ra, encode (mk rd ra) = encodeR o rd ra 0 0 0)
    (hr : opRow o.toNat = some row) (hrow : row = ⟨fieldsR o 0 0 0 0 0 0, 0xFC03FFFF, fun w => mk (rdField w) (raField w)⟩) :
    Statement (mk rd ra) := by
  obtain ⟨h1, h2, h3, h4, h5, h6, h7⟩ := fields_of_encodeR o rd ra 0 0 0
  subst hrow
  refine ⟨_, by rw [he, h1]; exact hr, ?_, ?_⟩ <;> rw [he]
  · refine (and_maskDA_eq_iff _ o).2 ⟨h1, ?_, ?_, h6, h7⟩
    · rw [h4]; rfl
    · rw [h5]; rfl
  · simp only [h2, h3]

theorem pdbl (rd ra : RegIdx) : Statement (.pdbl rd ra) := moving 0x10 rd ra .pdbl _ (fun _ _ => rfl) rfl rfl

theorem padd (rd ra rb : RegIdx) (sign sel zero : Bool) : Statement (.padd rd ra rb sign sel zero) := by
  obtain ⟨h1, h2, h3, h4, h5, h6, h7⟩ :=
    fields_of_encodeR 0x11 rd ra rb 0 (0#1 ++ BitVec.ofBool sign ++ BitVec.ofBool sel ++ BitVec.ofBool zero)
  refine ⟨_, by rw [encode, h1]; rfl, ?_, ?_⟩
  · refine (and_maskDABf_eq_iff _ 0x11).2 ⟨h1, ?_, h6, ?_⟩
    · rw [encode, h5]; rfl
    · rw [encode, h7]; clear h1 h2 h3 h4 h5 h6 h7; revert sign sel zero; decide
  · obtain ⟨g1, g2, g3⟩ := flags_of_bits _ _ _ _ h7
    simp only [encode, h2, h3, h4, g1, g2, g3]

theorem pj2a (rd ra : RegIdx) : Statement (.pj2a rd ra) := moving 0x12 rd ra .pj2a _ (fun _ _ => rfl) rfl rfl

theorem pa2j (rd ra : RegIdx) : Statement (.pa2j rd ra) := moving 0x13 rd ra .pa2j _ (fun _ _ => rfl) rfl rfl

theorem tblb : Statement .tblb := ⟨_, rfl, by decide, rfl⟩

theorem tblrd (rd : RegIdx) (win : Fin 64) (ent : Fin 32) : Statement (.tblrd rd win ent) := by
  obtain ⟨h1, h2, h3, h4, h5⟩ := fields_of_encodeT 0x19 rd win ent
  refine ⟨_, by rw [encode, h1]; rfl, ?_, ?_⟩
  · refine (and_tblrdMask_eq_iff _).2 ⟨h1, h5⟩
  · simp only [encode, h2, h3, h4]

theorem smulg (rd ra : RegIdx) : Statement (.smulg rd ra) := moving 0x1C rd ra .smulg _ (fun _ _ => rfl) rfl rfl

theorem smulp (rd ra rb : RegIdx) : Statement (.smulp rd ra rb) := by
  obtain ⟨h1, h2, h3, h4, h5, h6, h7⟩ := fields_of_encodeR 0x1D rd ra rb 0 0
  refine ⟨_, by rw [encode, h1]; rfl, ?_, ?_⟩
  · refine (and_maskDAB_eq_iff _ 0x1D).2 ⟨h1, ?_, h6, h7⟩
    · rw [encode, h5]; rfl
  · simp only [encode, h2, h3, h4]

end Sys2Proof.Laws.EncodedRow
end

