-- ==== Sys2Proof/Laws/Encode.lean ====
section
/-!
SUPPORT. The encoder against the decoder: decode of a command's word is its operand checks, and a word that passes its row's mask is the word of
the command the row reads.
-/
namespace Sys2Proof

/-- `EncodedRow` for every command. -/
theorem encoded_row (i : Instr) : Laws.EncodedRow.Statement i := by
  match i with
  | .nop  => exact Laws.EncodedRow.nop 
  | .fmul a b c d => exact Laws.EncodedRow.fmul a b c d
  | .fadd a b c d => exact Laws.EncodedRow.fadd a b c d
  | .fsub a b c d => exact Laws.EncodedRow.fsub a b c d
  | .fhlv a b c => exact Laws.EncodedRow.fhlv a b c
  | .fsel a b c d => exact Laws.EncodedRow.fsel a b c d
  | .ftom a b c => exact Laws.EncodedRow.ftom a b c
  | .ffrm a b c => exact Laws.EncodedRow.ffrm a b c
  | .finv a b c => exact Laws.EncodedRow.finv a b c
  | .ldc a b => exact Laws.EncodedRow.ldc a b
  | .pdbl a b => exact Laws.EncodedRow.pdbl a b
  | .padd a b c d e f => exact Laws.EncodedRow.padd a b c d e f
  | .pj2a a b => exact Laws.EncodedRow.pj2a a b
  | .pa2j a b => exact Laws.EncodedRow.pa2j a b
  | .tblb  => exact Laws.EncodedRow.tblb 
  | .tblrd a b c => exact Laws.EncodedRow.tblrd a b c
  | .smulg a b => exact Laws.EncodedRow.smulg a b
  | .smulp a b c => exact Laws.EncodedRow.smulp a b c

/-- Decode of a command's word comes down to the operand checks, in the order of 30_encoding R72. -/
theorem decode_encode_eq_checkOperands (i : Instr) : decode (encode i) = checkOperands i := by
  obtain ⟨row, h, hm, hr⟩ := encoded_row i
  rw [decode_eq_checkOperands h hm, hr]

/-- A word that passes the mask check of its row is the word of the command the row reads (30_encoding R74). -/
theorem encode_read {w : Word32} {row : OpRow} (h : opRow (opField w).toNat = some row) (hm : w &&& row.mask = row.mtch) :
    encode (row.read w) = w := by
  generalize ho : (opField w).toNat = o at h
  have hz : regBits 0 = 0 := rfl
  unfold opRow at h
  split at h <;> simp only [Option.some.injEq, reduceCtorEq] at h <;> subst h <;> dsimp only at hm ⊢
  case h_1 => rw [(and_maskNone_eq_iff w 0).1 hm]; rfl
  case h_2 =>
    obtain ⟨h1, h5, h6, h7⟩ := (and_maskDABm_eq_iff w 1).1 hm
    conv => rhs; rw [eq_fieldsR w, h1, h5, h6]
    rw [encode, encodeR_eq, mField_fBits w h7, hz]
  case h_3 =>
    obtain ⟨h1, h5, h6, h7⟩ := (and_maskDABm_eq_iff w 2).1 hm
    conv => rhs; rw [eq_fieldsR w, h1, h5, h6]
    rw [encode, encodeR_eq, mField_fBits w h7, hz]
  case h_4 =>
    obtain ⟨h1, h5, h6, h7⟩ := (and_maskDABm_eq_iff w 3).1 hm
    conv => rhs; rw [eq_fieldsR w, h1, h5, h6]
    rw [encode, encodeR_eq, mField_fBits w h7, hz]
  case h_5 =>
    obtain ⟨h1, h4, h5, h6, h7⟩ := (and_maskDAm_eq_iff w 4).1 hm
    conv => rhs; rw [eq_fieldsR w, h1, h4, h5, h6]
    rw [encode, encodeR_eq, mField_fBits w h7, hz]
  case h_6 =>
    obtain ⟨h1, h6, h7⟩ := (and_maskDABC_eq_iff w 5).1 hm
    conv => rhs; rw [eq_fieldsR w, h1, h6, h7]
    rw [encode, encodeR_eq]
  case h_7 =>
    obtain ⟨h1, h4, h5, h6, h7⟩ := (and_maskDAm_eq_iff w 6).1 hm
    conv => rhs; rw [eq_fieldsR w, h1, h4, h5, h6]
    rw [encode, encodeR_eq, mField_fBits w h7, hz]
  case h_8 =>
    obtain ⟨h1, h4, h5, h6, h7⟩ := (and_maskDAm_eq_iff w 7).1 hm
    conv => rhs; rw [eq_fieldsR w, h1, h4, h5, h6]
    rw [encode, encodeR_eq, mField_fBits w h7, hz]
  case h_9 =>
    obtain ⟨h1, h4, h5, h6, h7⟩ := (and_maskDAm_eq_iff w 8).1 hm
    conv => rhs; rw [eq_fieldsR w, h1, h4, h5, h6]
    rw [encode, encodeR_eq, mField_fBits w h7, hz]
  case h_10 =>
    obtain ⟨h1, h3, h4, h5, h6⟩ := (and_maskDc_eq_iff w 9).1 hm
    conv => rhs; rw [eq_fieldsR w, h1, h3, h4, h5, h6]
    rw [encode, encodeR_eq, hz]; rfl
  case h_11 =>
    obtain ⟨h1, h4, h5, h6, h7⟩ := (and_maskDA_eq_iff w 0x10).1 hm
    conv => rhs; rw [eq_fieldsR w, h1, h4, h5, h6, h7]
    rw [encode, encodeR_eq, hz]
  case h_12 =>
    obtain ⟨h1, h5, h6, h7⟩ := (and_maskDABf_eq_iff w 0x11).1 hm
    conv => rhs; rw [eq_fieldsR w, h1, h5, h6]
    rw [encode, encodeR_eq, bits_of_flags w h7, hz]
  case h_13 =>
    obtain ⟨h1, h4, h5, h6, h7⟩ := (and_maskDA_eq_iff w 0x12).1 hm
    conv => rhs; rw [eq_fieldsR w, h1, h4, h5, h6, h7]
    rw [encode, encodeR_eq, hz]
  case h_14 =>
    obtain ⟨h1, h4, h5, h6, h7⟩ := (and_maskDA_eq_iff w 0x13).1 hm
    conv => rhs; rw [eq_fieldsR w, h1, h4, h5, h6, h7]
    rw [encode, encodeR_eq, hz]
  case h_15 => rw [(and_maskNone_eq_iff w 0x18).1 hm]; rfl
  case h_16 =>
    obtain ⟨h1, h7⟩ := (and_tblrdMask_eq_iff w).1 hm
    conv => rhs; rw [eq_fieldsT w, h1, h7]
    rw [encode, encodeT_eq]
  case h_17 =>
    obtain ⟨h1, h4, h5, h6, h7⟩ := (and_maskDA_eq_iff w 0x1C).1 hm
    conv => rhs; rw [eq_fieldsR w, h1, h4, h5, h6, h7]
    rw [encode, encodeR_eq, hz]
  case h_18 =>
    obtain ⟨h1, h5, h6, h7⟩ := (and_maskDAB_eq_iff w 0x1D).1 hm
    conv => rhs; rw [eq_fieldsR w, h1, h5, h6, h7]
    rw [encode, encodeR_eq, hz]

end Sys2Proof
end

