-- ==== Sys2Proof/Laws/GroupLaw.lean ====
section
/-!
SUPPORT. The Jacobian formulas of 41_point R101 and R105 against the affine group law, in any field: algebra only, no machine.
-/
namespace Sys2Proof.Laws

variable {F : Type} [Field F]

/-- The doubling formulas, with the source written as (x·z², y·z³, z), give a point whose affine coordinates are the tangent's (a = −3). -/
theorem double_is_tangent {x y z X Y Z : F} (h2 : (2 : F) ≠ 0) (hz : z ≠ 0) (hy : y ≠ 0)
    (hX : X = (3 * (x * z ^ 2 - z ^ 2) * (x * z ^ 2 + z ^ 2)) ^ 2 - 8 * (x * z ^ 2) * (y * z ^ 3) ^ 2)
    (hY : Y = (3 * (x * z ^ 2 - z ^ 2) * (x * z ^ 2 + z ^ 2)) * (4 * (x * z ^ 2) * (y * z ^ 3) ^ 2 - X) - 8 * (y * z ^ 3) ^ 4)
    (hZ : Z = 2 * (y * z ^ 3) * z) :
    (X * (Z ^ 2)⁻¹ + x + x) * (2 * y) ^ 2 = (3 * x ^ 2 - 3) ^ 2 ∧
      (Y * (Z ^ 3)⁻¹ + y) * (2 * y) = (3 * x ^ 2 - 3) * (x - X * (Z ^ 2)⁻¹) := by
  have hZ' : Z = 2 * y * z ^ 4 := by rw [hZ]; ring
  rw [hY, hX, hZ']
  constructor
  · field_simp
    ring
  · field_simp
    ring

/-- The mixed-addition formulas, with the first source written as (x₁·z², y₁·z³, z) and the second affine, give a point whose affine
coordinates are the chord's. -/
theorem mixed_add_is_chord {x1 y1 z x2 y2 X Y Z : F} (hz : z ≠ 0) (hne : x2 - x1 ≠ 0)
    (hX : X = (y2 * z ^ 3 - y1 * z ^ 3) ^ 2 - (x2 * z ^ 2 - x1 * z ^ 2) ^ 3 - 2 * (x1 * z ^ 2) * (x2 * z ^ 2 - x1 * z ^ 2) ^ 2)
    (hY : Y = (y2 * z ^ 3 - y1 * z ^ 3) * (x1 * z ^ 2 * (x2 * z ^ 2 - x1 * z ^ 2) ^ 2 - X) -
      y1 * z ^ 3 * (x2 * z ^ 2 - x1 * z ^ 2) ^ 3)
    (hZ : Z = z * (x2 * z ^ 2 - x1 * z ^ 2)) :
    (X * (Z ^ 2)⁻¹ + x1 + x2) * (x2 - x1) ^ 2 = (y2 - y1) ^ 2 ∧
      (Y * (Z ^ 3)⁻¹ + y1) * (x2 - x1) = (y2 - y1) * (x1 - X * (Z ^ 2)⁻¹) := by
  obtain ⟨d, rfl⟩ : ∃ d, x2 = x1 + d := ⟨x2 - x1, by ring⟩
  have hd : d ≠ 0 := by simpa using hne
  have hZ' : Z = z ^ 3 * d := by rw [hZ]; ring
  rw [show x1 + d - x1 = d by ring]
  rw [hY, hX, hZ']
  constructor
  · field_simp
    ring
  · field_simp
    ring

end Sys2Proof.Laws
end

