-- ==== Sys2Proof/Laws/Run.lean ====
section
/-!
SUPPORT. The end of a run (70_reset R174): what an ended run is, that its result is what the host reads then, and that it stays until
the platform resets the block.
-/
namespace Sys2Proof.Machine

variable {s t : State}

theorem State.ended_iff : s.ended = true ↔ (∀ e ∈ s.port, e.isAccess = false) ∧ s.busy = false ∧ s.latch = none := by
  simp [State.ended, and_assoc]

theorem State.runResult_of_ended (h : s.ended = true) : s.runResult = some ⟨s.regWords, s.statusWord, s.errInfo⟩ := if_pos h

theorem State.runResult_eq_none_iff : s.runResult = none ↔ s.ended = false := by
  unfold State.runResult; split <;> simp [*]

@[simp] theorem State.regWords_get (i : RegIdx) (w : Fin 8) : s.regWords[i][w] = s.regs[i].word? w := by
  simp [State.regWords]

/-- An ended run stays ended, with its result, through every step but a reset. -/
theorem State.ended_step (h : s.ended = true) (hstep : step s = .next t) (hr : ∀ rest, s.port ≠ .reset :: rest) :
    t.ended = true ∧ t.runResult = s.runResult := by
  obtain ⟨hp, hb, hl⟩ := State.ended_iff.1 h
  obtain ⟨a, rest, ha, -⟩ | ⟨rest, hrest, ⟨-, rfl⟩ | ⟨l, i, hl', -⟩⟩ | ⟨rest, hp', -⟩ := step_cases hstep
  · have := hp (.access a) (by rw [ha]; exact List.mem_cons_self)
    cases this
  · have he : (s.begin rest).ended = true := by
      refine State.ended_iff.2 ⟨fun e he => hp e ?_, hb, hl⟩
      rcases hrest with ⟨-, rfl⟩ | hrest
      · cases he
      · rw [hrest]; exact List.mem_cons_of_mem _ he
    exact ⟨he, by rw [State.runResult_of_ended he, State.runResult_of_ended h]; rfl⟩
  · rw [hl] at hl'; cases hl'
  · exact absurd hp' (hr rest)

end Sys2Proof.Machine
end

