-- ==== Sys2Proof/Laws/Words.lean ====
section
/-!
SUPPORT. The words of a register (20_memory R50): writing one word sets it and leaves the other seven, and so with the written bits.
-/
namespace Sys2Proof.Machine

theorem wordOf_getLsbD (v : Elem) (t : Fin 8) {k : Nat} (hk : k < 32) : (wordOf v t).getLsbD k = v.getLsbD (wordShift t + k) := by
  simp [wordOf, hk]

/-- The mask of one word, bit by bit. -/
theorem wordMask_getLsbD {sh : Nat} (h : sh ≤ 224) (k : Nat) :
    ((0xFFFFFFFF : Elem) <<< sh).getLsbD k = (decide (sh ≤ k) && decide (k < sh + 32)) := by
  rw [BitVec.getLsbD_shiftLeft, show (0xFFFFFFFF : Elem) = (BitVec.allOnes 32).setWidth 256 by decide +kernel,
    BitVec.getLsbD_setWidth, BitVec.getLsbD_allOnes]
  by_cases h1 : k < 256 <;> by_cases h2 : sh ≤ k <;> by_cases h3 : k < sh + 32 <;> simp [h1, h2, h3] <;> omega

theorem setWordOf_getLsbD (v : Elem) (t : Fin 8) (w : Word32) {k : Nat} (hk : k < 256) :
    (setWordOf v t w).getLsbD k =
      if wordShift t ≤ k ∧ k < wordShift t + 32 then w.getLsbD (k - wordShift t) else v.getLsbD k := by
  have hs : wordShift t ≤ 224 := by unfold wordShift; omega
  rw [setWordOf, BitVec.getLsbD_or, BitVec.getLsbD_and, BitVec.getLsbD_not, wordMask_getLsbD hs, BitVec.getLsbD_shiftLeft,
    BitVec.getLsbD_setWidth]
  generalize wordShift t = sh at hs
  by_cases h2 : sh ≤ k
  · by_cases h3 : k < sh + 32
    · simp [h2, h3, hk, Nat.not_lt.2 h2, show k - sh < 256 by omega]
    · have : w.getLsbD (k - sh) = false := BitVec.getLsbD_of_ge _ _ (by omega)
      simp [h2, h3, hk, this]
  · simp [h2, hk, Nat.not_le.1 h2]

/-- The word written reads back. -/
theorem wordOf_setWordOf_self (v : Elem) (t : Fin 8) (w : Word32) : wordOf (setWordOf v t w) t = w := by
  apply BitVec.eq_of_getLsbD_eq
  intro k hk
  have hs : wordShift t ≤ 224 := by unfold wordShift; omega
  rw [wordOf_getLsbD _ _ hk, setWordOf_getLsbD _ _ _ (by omega), if_pos (by omega)]
  congr 1; omega

/-- The other words are as before. -/
theorem wordOf_setWordOf_ne (v : Elem) {t t' : Fin 8} (h : t' ≠ t) (w : Word32) : wordOf (setWordOf v t w) t' = wordOf v t' := by
  apply BitVec.eq_of_getLsbD_eq
  intro k hk
  have hne : t'.val ≠ t.val := fun e => h (Fin.ext e)
  have hb : wordShift t' + k < 256 ∧ ¬ (wordShift t ≤ wordShift t' + k ∧ wordShift t' + k < wordShift t + 32) := by
    unfold wordShift; omega
  rw [wordOf_getLsbD _ _ hk, wordOf_getLsbD _ _ hk, setWordOf_getLsbD _ _ _ hb.1, if_neg hb.2]

/-- The written bit of the word written is set. -/
theorem writtenBit_self (b : BitVec 8) (t : Fin 8) : (b ||| (1#8 <<< t.val)).getLsbD t.val = true := by
  rw [BitVec.getLsbD_or, BitVec.getLsbD_shiftLeft]; simp

/-- The other written bits are as before. -/
theorem writtenBit_ne (b : BitVec 8) {t t' : Fin 8} (h : t' ≠ t) : (b ||| (1#8 <<< t.val)).getLsbD t'.val = b.getLsbD t'.val := by
  have hne : t'.val ≠ t.val := fun e => h (Fin.ext e)
  rw [BitVec.getLsbD_or, BitVec.getLsbD_shiftLeft]
  rcases Nat.lt_or_gt_of_ne hne with h | h
  · simp [h]
  · have : (1#8).getLsbD (t'.val - t.val) = false := by rw [BitVec.getLsbD_one]; simp; omega
    rw [this]; simp

end Sys2Proof.Machine
end

