-- ==== Sys2Proof/Tests/Slice0.lean ====
section
/-!
SUPPORT. The model's own tests. Expected results come from spec/30_encoding.md R75 to R79 (words written out bit by bit) and from the
vectors of spec/95_test_vectors.md (section and row in each comment), never from the model.
-/
namespace Sys2Proof.Tests
set_option Elab.async false
open Sys2Proof.Machine

/-! ### WellFormed: one ill-formed term for each check (30_encoding R79) -/

theorem test_wf_refuses_ldc_cid : ¬ Instr.WellFormed (.ldc 0 11) := by decide
theorem test_wf_refuses_pdbl_rd : ¬ Instr.WellFormed (.pdbl 14 0) := by decide
theorem test_wf_refuses_pdbl_ra : ¬ Instr.WellFormed (.pdbl 0 14) := by decide
theorem test_wf_refuses_padd_rd : ¬ Instr.WellFormed (.padd 14 0 0 false true true) := by decide
theorem test_wf_refuses_padd_ra : ¬ Instr.WellFormed (.padd 0 14 0 false true true) := by decide
theorem test_wf_refuses_padd_rb : ¬ Instr.WellFormed (.padd 0 0 15 false true true) := by decide
theorem test_wf_refuses_pj2a_rd : ¬ Instr.WellFormed (.pj2a 15 0) := by decide
theorem test_wf_refuses_pj2a_ra : ¬ Instr.WellFormed (.pj2a 0 14) := by decide
theorem test_wf_refuses_pa2j_rd : ¬ Instr.WellFormed (.pa2j 14 0) := by decide
theorem test_wf_refuses_pa2j_ra : ¬ Instr.WellFormed (.pa2j 0 15) := by decide
theorem test_wf_refuses_tblrd_rd : ¬ Instr.WellFormed (.tblrd 15 0 0) := by decide
theorem test_wf_refuses_tblrd_win : ¬ Instr.WellFormed (.tblrd 0 43 0) := by decide
theorem test_wf_refuses_smulg_rd : ¬ Instr.WellFormed (.smulg 14 0) := by decide
theorem test_wf_refuses_smulp_rd : ¬ Instr.WellFormed (.smulp 14 0 0) := by decide
theorem test_wf_refuses_smulp_rb : ¬ Instr.WellFormed (.smulp 0 1 15) := by decide

theorem test_wf_admits_bounds : Instr.WellFormed (.padd 13 13 14 true true true) ∧ Instr.WellFormed (.tblrd 14 42 31) ∧
    Instr.WellFormed (.ldc 15 10) ∧ Instr.WellFormed (.pj2a 14 13) := by decide

/-! ### Decode: a word of every constructor, written from the field layout of 30_encoding R66, R67: op rd ra rb rc res f -/

theorem test_decode_nop : decode 0b000000_0000_0000_0000_0000_000000_0000 = .accept (.nop) := by decide
theorem test_decode_fmul : decode 0b000001_0010_0000_0001_0000_000000_0001 = .accept (.fmul .n 2 0 1) := by decide
theorem test_decode_fadd : decode 0b000010_1111_1110_1101_0000_000000_0000 = .accept (.fadd .p 15 14 13) := by decide
theorem test_decode_fsub : decode 0b000011_0010_0000_0001_0000_000000_0001 = .accept (.fsub .n 2 0 1) := by decide
theorem test_decode_fhlv : decode 0b000100_0001_1000_0000_0000_000000_0001 = .accept (.fhlv .n 1 8) := by decide
theorem test_decode_fsel : decode 0b000101_0011_0000_0001_0010_000000_0000 = .accept (.fsel 3 0 1 2) := by decide
theorem test_decode_ftom : decode 0b000110_0001_0010_0000_0000_000000_0000 = .accept (.ftom .p 1 2) := by decide
theorem test_decode_ffrm : decode 0b000111_0100_1001_0000_0000_000000_0001 = .accept (.ffrm .n 4 9) := by decide
theorem test_decode_finv : decode 0b001000_0001_0000_0000_0000_000000_0001 = .accept (.finv .n 1 0) := by decide
theorem test_decode_ldc : decode 0b001001_0111_0000_0000_0000_000000_1000 = .accept (.ldc 7 8) := by decide
theorem test_decode_pdbl : decode 0b010000_0100_1101_0000_0000_000000_0000 = .accept (.pdbl 4 13) := by decide
theorem test_decode_padd : decode 0b010001_0100_1000_1110_0000_000000_0101 = .accept (.padd 4 8 14 true false true) := by decide
theorem test_decode_pj2a : decode 0b010010_1110_1101_0000_0000_000000_0000 = .accept (.pj2a 14 13) := by decide
theorem test_decode_pa2j : decode 0b010011_1101_1110_0000_0000_000000_0000 = .accept (.pa2j 13 14) := by decide
theorem test_decode_tblb : decode 0b011000_0000_0000_0000_0000_000000_0000 = .accept (.tblb) := by decide
theorem test_decode_tblrd : decode 0b011001_0011_101010_10001_00000000000 = .accept (.tblrd 3 42 17) := by decide
theorem test_decode_smulg : decode 0b011100_0100_1111_0000_0000_000000_0000 = .accept (.smulg 4 15) := by decide
theorem test_decode_smulp : decode 0b011101_0100_0000_1110_0000_000000_0000 = .accept (.smulp 4 0 14) := by decide

/-- spec/95 section 7: rejected words with their errors, priority cases included. -/
theorem test_decode_rejects :
    decode 0x00000001 = .reject .illegal ∧ decode 0x04804002 = .reject .illegal ∧ decode 0x04804400 = .reject .illegal ∧
    decode 0x04804010 = .reject .illegal ∧ decode 0x10404001 = .reject .illegal ∧ decode 0x2400000B = .reject .illegal ∧
    decode 0x28000000 = .reject .illegal ∧ decode 0xFFFFFFFF = .reject .illegal ∧ decode 0x43804000 = .reject .illegal ∧
    decode 0x44000008 = .reject .illegal ∧ decode 0x43800000 = .reject .regRange ∧ decode 0x4403C003 = .reject .regRange ∧
    decode 0x67FF0000 = .reject .regRange ∧ decode 0x642B0000 = .reject .tblRange := by decide

/-- 30_encoding R75: the words of the assembler table, encoded. -/
theorem test_encode_words :
    encode (.fmul .p 2 0 1) = 0x04804000 ∧ encode (.padd 4 4 0 false true true) = 0x45100003 ∧
    encode (.tblrd 0 21 15) = 0x64157800 ∧ encode (.smulp 4 0 2) = 0x75008000 ∧ encode (.fsel 3 0 1 2) = 0x14C04800 := by decide

/-! ### One step of every command, from a state with the given registers written -/

/-- The reset state with some registers written. -/
def regsSet (l : List (RegIdx × Elem)) : State := l.foldl (fun s p => s.setReg p.1 p.2) State.reset

/-- The state after the step that runs the command word, or the state itself if it stops. -/
def after (s : State) (w : Nat) : State :=
  match step (s.withFetchWord 32 w) with
  | .next t => t
  | _ => s

/-- A register written with a value. -/
def reads (s : State) (r : RegIdx) (v : Elem) : Bool := s.regs[r] == ⟨v, allWritten⟩

/-- spec/95 section 2 row 60: NOP sets DONE only; section 5: TBLB gives STATUS 0x0A. -/
theorem test_nop_tblb_status : (after State.reset 0x00000000).statusWord = 0x00000002 ∧
    (after State.reset 0x60000000).statusWord = 0x0000000A := by decide +kernel

/-- spec/95 section 2 row 3. -/
theorem test_fmul_p : reads (after (regsSet [(0, 0xC0FFEE), (1, 0xBADC0DE)]) 0x04804000) 2 0x6AEB2B96BF61B531409E4ACF2A55AEC5951DA266D5CD8930BF7C1F29951DA266 = true := by decide +kernel

/-- spec/95 section 2 row 4. -/
theorem test_fmul_n : reads (after (regsSet [(0, 0xC0FFEE), (1, 0xBADC0DE)]) 0x04804001) 2 0xD34A3A69362D411C55013BE19A555D8EDEE6FD03DB33BF8CADE95E35788909D8 = true := by decide +kernel

/-- spec/95 section 2 row 13. -/
theorem test_fadd_n_wraps : reads (after (regsSet [(0, 0xFFFFFFFF00000000FFFFFFFFFFFFFFFFBCE6FAADA7179E84F3B9CAC2FC632550)]) 0x08800001) 2 0xFFFFFFFF00000000FFFFFFFFFFFFFFFFBCE6FAADA7179E84F3B9CAC2FC63254F = true := by decide +kernel

/-- spec/95 section 2 row 11. -/
theorem test_fadd_p_wraps_to_zero : reads (after (regsSet [(0, 0xFFFFFFFF00000001000000000000000000000000FFFFFFFFFFFFFFFFFFFFFFFE), (1, 1)]) 0x08804000) 2 0 = true := by decide +kernel

/-- spec/95 section 2 row 17. -/
theorem test_fsub_n_borrows : reads (after (regsSet [(0, 0), (1, 1)]) 0x0C804001) 2 0xFFFFFFFF00000000FFFFFFFFFFFFFFFFBCE6FAADA7179E84F3B9CAC2FC632550 = true := by decide +kernel

/-- spec/95 section 2 row 19. -/
theorem test_fsub_p_negates : reads (after (regsSet [(0, 0), (1, 0x8571FF1825885D85D2E88688DD21F3258B4AB8E4BA19E45CDDF25357CE95560A)]) 0x0C804000) 2 0x7A8E00E6DA77A27B2D17797722DE0CDA74B5471C45E61BA3220DACA8316AA9F5 = true := by decide +kernel

/-- spec/95 section 2 row 23. -/
theorem test_fhlv_n_odd : reads (after (regsSet [(0, 1)]) 0x10400001) 1 0x7FFFFFFF800000007FFFFFFFFFFFFFFFDE737D56D38BCF4279DCE5617E3192A9 = true := by decide +kernel

/-- spec/95 section 2 row 24. -/
theorem test_fhlv_p_even : reads (after (regsSet [(0, 0xFFFFFFFF00000001000000000000000000000000FFFFFFFFFFFFFFFFFFFFFFFE)]) 0x10400000) 1 0x7FFFFFFF800000008000000000000000000000007FFFFFFFFFFFFFFFFFFFFFFF = true := by decide +kernel

/-- spec/95 section 2 row 29. -/
theorem test_fsel_zero_takes_rb : reads (after (regsSet [(0, 5), (1, 7), (2, 0)]) 0x14C04800) 3 7 = true := by decide +kernel

/-- spec/95 section 2 row 31. -/
theorem test_fsel_high_bit_takes_ra : reads (after (regsSet [(0, 5), (1, 7), (2, 0x8000000000000000000000000000000000000000000000000000000000000000)]) 0x14C04800) 3 5 = true := by decide +kernel

/-- spec/95 section 2 row 40. -/
theorem test_ftom_n : reads (after (regsSet [(0, 0xFFFFFFFF00000000FFFFFFFFFFFFFFFFBCE6FAADA7179E84F3B9CAC2FC632550)]) 0x18400001) 1 0xFFFFFFFE00000001FFFFFFFFFFFFFFFF79CDF55B4E2F3D09E7739585F8C64AA2 = true := by decide +kernel

/-- spec/95 section 2 row 45. -/
theorem test_ffrm_p : reads (after (regsSet [(0, 0x8571FF1825885D85D2E88688DD21F3258B4AB8E4BA19E45CDDF25357CE95560A)]) 0x1C400000) 1 0x4FE342E2FE1A7F9B8EE7EB4A7C0F9E162BCE33576B315ECECBB6406837BF51F5 = true := by decide +kernel

/-- spec/95 section 3 row 5. -/
theorem test_finv_p : reads (after (regsSet [(0, 0xFFFFFFFF00000001000000000000000000000000FFFFFFFFFFFFFFFFFFFFFFFE)]) 0x20400000) 1 0xFFFFFFFA0000000300000000000000010000000500000000FFFFFFFFFFFFFFFC = true := by decide +kernel

/-- spec/95 section 3 row 6. -/
theorem test_finv_n : reads (after (regsSet [(0, 0x90ABCDEE5D1FDB9904C57A1EE52F235379AA07760E14E8681DF1B7B899FC9869)]) 0x20400001) 1 0x0116118E30DD4E2A80FE3EEFF2539CA3261D0E8674379A4423235D8476B92A6A = true := by decide +kernel

/-- spec/95 section 2 row 56. -/
theorem test_ldc_rrn : reads (after (regsSet []) 0x24000007) 0 0x66E12D94F3D956202845B2392B6BEC594699799C49BD6FA683244C95BE79EEA2 = true := by decide +kernel

/-- spec/95 section 4.1 row 1. -/
theorem test_pdbl : reads (after (regsSet [(0, 0x18905F76A53755C679FB732B7762251075BA95FC5FEDB60179E730D418A9143C), (1, 0x8571FF1825885D85D2E88688DD21F3258B4AB8E4BA19E45CDDF25357CE95560A), (2, 0x00000000FFFFFFFEFFFFFFFFFFFFFFFFFFFFFFFF000000000000000000000001)]) 0x41000000) 4 0x5DE4F991E25E717AD2AAD563A7090A86C6B2E33A31355D9BF26AC1B54F2BF829 = true ∧ reads (after (regsSet [(0, 0x18905F76A53755C679FB732B7762251075BA95FC5FEDB60179E730D418A9143C), (1, 0x8571FF1825885D85D2E88688DD21F3258B4AB8E4BA19E45CDDF25357CE95560A), (2, 0x00000000FFFFFFFEFFFFFFFFFFFFFFFFFFFFFFFF000000000000000000000001)]) 0x41000000) 5 0xF9F84F1F77BD1FDEDA98128DCE880027CF48A95EAA13DAA3DAB967123CCC950D = true ∧ reads (after (regsSet [(0, 0x18905F76A53755C679FB732B7762251075BA95FC5FEDB60179E730D418A9143C), (1, 0x8571FF1825885D85D2E88688DD21F3258B4AB8E4BA19E45CDDF25357CE95560A), (2, 0x00000000FFFFFFFEFFFFFFFFFFFFFFFFFFFFFFFF000000000000000000000001)]) 0x41000000) 6 0x0AE3FE314B10BB0AA5D10D11BA43E64B169571C87433C8B9BBE4A6AF9D2AAC15 = true := by decide +kernel

/-- spec/95 section 4.1 row 2. -/
theorem test_pdbl_in_place : reads (after (regsSet [(4, 0x5DE4F991E25E717AD2AAD563A7090A86C6B2E33A31355D9BF26AC1B54F2BF829), (5, 0xF9F84F1F77BD1FDEDA98128DCE880027CF48A95EAA13DAA3DAB967123CCC950D), (6, 0x0AE3FE314B10BB0AA5D10D11BA43E64B169571C87433C8B9BBE4A6AF9D2AAC15)]) 0x41100000) 4 0x03E35DFF2B451C7D8CE9DCDDFBB570FF2DE32E996DA32066FCC8549A79B3697F = true ∧ reads (after (regsSet [(4, 0x5DE4F991E25E717AD2AAD563A7090A86C6B2E33A31355D9BF26AC1B54F2BF829), (5, 0xF9F84F1F77BD1FDEDA98128DCE880027CF48A95EAA13DAA3DAB967123CCC950D), (6, 0x0AE3FE314B10BB0AA5D10D11BA43E64B169571C87433C8B9BBE4A6AF9D2AAC15)]) 0x41100000) 5 0x056EBE54D2DCCF10B993568A94A8B98FF3781EAEAA6619CEC3A5C2E851E113A3 = true ∧ reads (after (regsSet [(4, 0x5DE4F991E25E717AD2AAD563A7090A86C6B2E33A31355D9BF26AC1B54F2BF829), (5, 0xF9F84F1F77BD1FDEDA98128DCE880027CF48A95EAA13DAA3DAB967123CCC950D), (6, 0x0AE3FE314B10BB0AA5D10D11BA43E64B169571C87433C8B9BBE4A6AF9D2AAC15)]) 0x41100000) 6 0xDC9C519B96DB8EC35BE36D7604F9AC381C237DDDB650B87819CC271AB95F0B4B = true := by decide +kernel

/-- spec/95 section 4.2, flags 0 1 1. -/
theorem test_padd_sum : reads (after (regsSet [(0, 0x18905F76A53755C679FB732B7762251075BA95FC5FEDB60179E730D418A9143C), (1, 0x8571FF1825885D85D2E88688DD21F3258B4AB8E4BA19E45CDDF25357CE95560A), (4, 0x5DE4F991E25E717AD2AAD563A7090A86C6B2E33A31355D9BF26AC1B54F2BF829), (5, 0xF9F84F1F77BD1FDEDA98128DCE880027CF48A95EAA13DAA3DAB967123CCC950D), (6, 0x0AE3FE314B10BB0AA5D10D11BA43E64B169571C87433C8B9BBE4A6AF9D2AAC15)]) 0x45100003) 4 0x046B25328FADD64B3D27A6DD305ABF1AEDB90D91E2B4557E0385BABA2D08D581 = true ∧ reads (after (regsSet [(0, 0x18905F76A53755C679FB732B7762251075BA95FC5FEDB60179E730D418A9143C), (1, 0x8571FF1825885D85D2E88688DD21F3258B4AB8E4BA19E45CDDF25357CE95560A), (4, 0x5DE4F991E25E717AD2AAD563A7090A86C6B2E33A31355D9BF26AC1B54F2BF829), (5, 0xF9F84F1F77BD1FDEDA98128DCE880027CF48A95EAA13DAA3DAB967123CCC950D), (6, 0x0AE3FE314B10BB0AA5D10D11BA43E64B169571C87433C8B9BBE4A6AF9D2AAC15)]) 0x45100003) 5 0x8501DA36024740683DC01B7AC378AAF0ADA17E37F7D757024D3D8A1222392169 = true ∧ reads (after (regsSet [(0, 0x18905F76A53755C679FB732B7762251075BA95FC5FEDB60179E730D418A9143C), (1, 0x8571FF1825885D85D2E88688DD21F3258B4AB8E4BA19E45CDDF25357CE95560A), (4, 0x5DE4F991E25E717AD2AAD563A7090A86C6B2E33A31355D9BF26AC1B54F2BF829), (5, 0xF9F84F1F77BD1FDEDA98128DCE880027CF48A95EAA13DAA3DAB967123CCC950D), (6, 0x0AE3FE314B10BB0AA5D10D11BA43E64B169571C87433C8B9BBE4A6AF9D2AAC15)]) 0x45100003) 6 0xA544FC8B9B4E66FB3F7E28E7822754D67C47431D67B9C376B5098D22B457A054 = true := by decide +kernel

/-- spec/95 section 4.3 row 5. -/
theorem test_padd_negative_first_load : reads (after (regsSet [(0, 0x18905F76A53755C679FB732B7762251075BA95FC5FEDB60179E730D418A9143C), (1, 0x8571FF1825885D85D2E88688DD21F3258B4AB8E4BA19E45CDDF25357CE95560A), (4, 0), (5, 0), (6, 0)]) 0x45100006) 4 0x18905F76A53755C679FB732B7762251075BA95FC5FEDB60179E730D418A9143C = true ∧ reads (after (regsSet [(0, 0x18905F76A53755C679FB732B7762251075BA95FC5FEDB60179E730D418A9143C), (1, 0x8571FF1825885D85D2E88688DD21F3258B4AB8E4BA19E45CDDF25357CE95560A), (4, 0), (5, 0), (6, 0)]) 0x45100006) 5 0x7A8E00E6DA77A27B2D17797722DE0CDA74B5471C45E61BA3220DACA8316AA9F5 = true ∧ reads (after (regsSet [(0, 0x18905F76A53755C679FB732B7762251075BA95FC5FEDB60179E730D418A9143C), (1, 0x8571FF1825885D85D2E88688DD21F3258B4AB8E4BA19E45CDDF25357CE95560A), (4, 0), (5, 0), (6, 0)]) 0x45100006) 6 0x00000000FFFFFFFEFFFFFFFFFFFFFFFFFFFFFFFF000000000000000000000001 = true := by decide +kernel

/-- spec/95 section 4.1 row 6. -/
theorem test_pj2a : reads (after (regsSet [(4, 0x046B25328FADD64B3D27A6DD305ABF1AEDB90D91E2B4557E0385BABA2D08D581), (5, 0x8501DA36024740683DC01B7AC378AAF0ADA17E37F7D757024D3D8A1222392169), (6, 0xA544FC8B9B4E66FB3F7E28E7822754D67C47431D67B9C376B5098D22B457A054)]) 0x4A100000) 8 0x26936A3FB6FF747E66AD77DD87CBBC98B027F84A087D81FBFFAC3F904EEBC127 = true ∧ reads (after (regsSet [(4, 0x046B25328FADD64B3D27A6DD305ABF1AEDB90D91E2B4557E0385BABA2D08D581), (5, 0x8501DA36024740683DC01B7AC378AAF0ADA17E37F7D757024D3D8A1222392169), (6, 0xA544FC8B9B4E66FB3F7E28E7822754D67C47431D67B9C376B5098D22B457A054)]) 0x4A100000) 9 0xD5F06A29E587CC07788208311A2EE98E583E47AD0861FE1AB04C5C1FC983A7EB = true := by decide +kernel

/-- spec/95 section 4.1 row 11. -/
theorem test_pa2j_moves_any_bits : reads (after (regsSet [(0, 0xFFFFFFFFFFFFFFFFFFFFFFFFFFFFFFFFFFFFFFFFFFFFFFFFFFFFFFFFFFFFFFFF), (1, 0xFFFFFFFF00000001000000000000000000000000FFFFFFFFFFFFFFFFFFFFFFFF)]) 0x4D000000) 4 0xFFFFFFFFFFFFFFFFFFFFFFFFFFFFFFFFFFFFFFFFFFFFFFFFFFFFFFFFFFFFFFFF = true ∧ reads (after (regsSet [(0, 0xFFFFFFFFFFFFFFFFFFFFFFFFFFFFFFFFFFFFFFFFFFFFFFFFFFFFFFFFFFFFFFFF), (1, 0xFFFFFFFF00000001000000000000000000000000FFFFFFFFFFFFFFFFFFFFFFFF)]) 0x4D000000) 5 0xFFFFFFFF00000001000000000000000000000000FFFFFFFFFFFFFFFFFFFFFFFF = true ∧ reads (after (regsSet [(0, 0xFFFFFFFFFFFFFFFFFFFFFFFFFFFFFFFFFFFFFFFFFFFFFFFFFFFFFFFFFFFFFFFF), (1, 0xFFFFFFFF00000001000000000000000000000000FFFFFFFFFFFFFFFFFFFFFFFF)]) 0x4D000000) 6 0x00000000FFFFFFFEFFFFFFFFFFFFFFFFFFFFFFFF000000000000000000000001 = true := by decide +kernel

/-- spec/95 section 5, entry (0, 31). -/
theorem test_tblrd_first_window : reads (after (regsSet []) 0x6400F800) 0 0x39227077695532A4BC6D6A58FEAD0197BEFD904C4079DFBFD8C5FCCFC5E3A3D8 = true ∧ reads (after (regsSet []) 0x6400F800) 1 0x6231D7929591C2A47B969C1AAD9A2E407E449B64480A990809E23E6DDBEF42F5 = true := by decide +kernel

/-- spec/95 section 5, entry (42, 31): multiplier 2^257 mod N. -/
theorem test_tblrd_last_entry : reads (after (regsSet []) 0x642AF800) 0 0x6CD15A3C5A2A412BE706381B7A1DCA258EFB83143A4464F85CED3C9F82E4C634 = true ∧ reads (after (regsSet []) 0x642AF800) 1 0x11E7C1ED344411AFC4AEB11EF8D8932F31DB2EEF6E54CD229347A8FDBFCD8FB5 = true := by decide +kernel

/-- spec/95 section 6.2, k = 0x20: one negative and one positive digit. -/
theorem test_smulg : reads (after (regsSet [(0, 0x20)]) 0x71000000) 4 0xCE382EC342AC6931C6D39458A0D20085DB9FA5E321EF2BA82F0B23B3A16DEBD1 = true ∧ reads (after (regsSet [(0, 0x20)]) 0x71000000) 5 0xA9D5BFE4991432A99CBED94CCF9EDE4B5C77A20CEAC625AE7823D589A85EB8C0 = true ∧ reads (after (regsSet [(0, 0x20)]) 0x71000000) 6 0x5CD9131CED460622C139A12AC4191C69790C78C6C82593FA02A79A233FB2E7A8 = true := by decide +kernel

/-- spec/95 section 6.2, k = N + 1. -/
theorem test_smulg_reduces : reads (after (regsSet [(0, 0xFFFFFFFF00000000FFFFFFFFFFFFFFFFBCE6FAADA7179E84F3B9CAC2FC632552)]) 0x71000000) 4 0x18905F76A53755C679FB732B7762251075BA95FC5FEDB60179E730D418A9143C = true ∧ reads (after (regsSet [(0, 0xFFFFFFFF00000000FFFFFFFFFFFFFFFFBCE6FAADA7179E84F3B9CAC2FC632552)]) 0x71000000) 5 0x8571FF1825885D85D2E88688DD21F3258B4AB8E4BA19E45CDDF25357CE95560A = true ∧ reads (after (regsSet [(0, 0xFFFFFFFF00000000FFFFFFFFFFFFFFFFBCE6FAADA7179E84F3B9CAC2FC632552)]) 0x71000000) 6 0x00000000FFFFFFFEFFFFFFFFFFFFFFFFFFFFFFFF000000000000000000000001 = true := by decide +kernel

/-- spec/95 section 6.3, Q = 0xDEADBEEF12345·G, k = N − 1. -/
theorem test_smulp : reads (after (regsSet [(0, 0xFFFFFFFF00000000FFFFFFFFFFFFFFFFBCE6FAADA7179E84F3B9CAC2FC632550), (2, 0x66D40BFAE267E186A8C05246FF9AB11E9E776936050823269C8D9AE05DB8C363), (3, 0xD262073589E24C778CD97BFF6EE7F2EF4F0C9D4894B4939A1AF1368849DDE72C)]) 0x75008000) 4 0x7958D87BEBD9A10A8B70179577BC258252EC1D5A4AB944E22D967EC0F6C3981A = true ∧ reads (after (regsSet [(0, 0xFFFFFFFF00000000FFFFFFFFFFFFFFFFBCE6FAADA7179E84F3B9CAC2FC632550), (2, 0x66D40BFAE267E186A8C05246FF9AB11E9E776936050823269C8D9AE05DB8C363), (3, 0xD262073589E24C778CD97BFF6EE7F2EF4F0C9D4894B4939A1AF1368849DDE72C)]) 0x75008000) 5 0x07222BC548600F55EC60701258B6BB62F17C8588847675B70B7DD7C4D8E89CF3 = true ∧ reads (after (regsSet [(0, 0xFFFFFFFF00000000FFFFFFFFFFFFFFFFBCE6FAADA7179E84F3B9CAC2FC632550), (2, 0x66D40BFAE267E186A8C05246FF9AB11E9E776936050823269C8D9AE05DB8C363), (3, 0xD262073589E24C778CD97BFF6EE7F2EF4F0C9D4894B4939A1AF1368849DDE72C)]) 0x75008000) 6 0x2EF540370E36003480B18FC72C7C4390320BF4CA098AA2F92B5568D03E1CAB27 = true := by decide +kernel

/-! ### UNSPEC results complete with a free value and no error (spec/95 section 2 row 9, section 3 row 8, 4.1 row 9, 6.3) -/

/-- A non-canonical source: the destination gets a free value, whatever it is, and the command completes. -/
theorem test_fmul_noncanonical_is_free :
    (after (regsSet [(0, 0xFFFFFFFF00000001000000000000000000000000FFFFFFFFFFFFFFFFFFFFFFFF), (1, 1)]) 0x04804000).regs[2] =
      ⟨Config.freeValue 0, allWritten⟩ := by rfl

/-- 60_exceptions R149: an unwritten scalar gives free values, not a point below P; the table is built. -/
theorem test_smulg_unwritten_scalar_is_free :
    (after State.reset 0x71000000).regs[6] = ⟨Config.freeValue 2, allWritten⟩ ∧ (after State.reset 0x71000000).tblv = true := by
  constructor <;> rfl

/-- 60_exceptions R149: the same for SMULP, with its point written. -/
theorem test_smulp_unwritten_scalar_is_free :
    (after (regsSet [(2, gxm), (3, gym)]) 0x75008000).regs[4] = ⟨Config.freeValue 0, allWritten⟩ := by rfl

theorem test_unspec_commands_complete :
    (after (regsSet [(0, 0)]) 0x20400000).statusWord = 0x00000002 ∧
    (after (regsSet [(4, 0), (5, 0), (6, 0)]) 0x4A100000).statusWord = 0x00000002 ∧
    (after (regsSet [(0, 1), (2, 0), (3, 0)]) 0x75008000).statusWord = 0x00000002 ∧
    (after State.reset 0x4C000000).statusWord = 0x00000002 := by decide +kernel

/-! ### The host window (spec/95 sections 7 and 8) -/

/-- The state after one step that serves an access. -/
def served (s : State) (a : HostAccess) : State :=
  match step { s with port := [.access a] } with
  | .next t => t
  | _ => s

/-- A 32-bit read of an offset. -/
def rd32 (off : Offset) : HostAccess := ⟨.bits32, off, .read⟩
/-- A 32-bit write to an offset. -/
def wr32 (off : Offset) (v : Word32) : HostAccess := ⟨.bits32, off, .write v⟩

theorem test_fixed_registers_read :
    (served State.reset (rd32 0x000)).reply = some 0x50323536 ∧ (served State.reset (rd32 0x004)).reply = some 0x00010000 ∧
    (served State.reset (rd32 0x008)).reply = some 0x3452B610 ∧ (served State.reset (rd32 0x010)).reply = some 0 := by decide

theorem test_bad_accesses :
    (served State.reset ⟨.bits8, 0x011, .read⟩).reply = some 0 ∧ (served State.reset ⟨.bits8, 0x011, .read⟩).errInfo = 0x11 ∧
    (served State.reset ⟨.bits16, 0x014, .write 0⟩).statusWord = 0x00000504 ∧
    (served State.reset (rd32 0x102)).statusWord = 0x00000504 ∧ (served State.reset (rd32 0x01C)).errInfo = 0x1C ∧
    (served State.reset (wr32 0x300 0)).errInfo = 0x300 := by decide

theorem test_busy_drops_writes :
    (served (State.reset.withFetchWord 32 0) (wr32 0x014 0x60000000)).statusWord = 0x00000405 ∧
    (served (State.reset.withFetchWord 32 0) (wr32 0x014 0x60000000)).errInfo = 0x60000000 ∧
    (served (State.reset.withFetchWord 32 0) (wr32 0x100 5)).errInfo = 0x100 ∧
    (served (State.reset.withFetchWord 32 0) (rd32 0x100)).reply = some 0 := by decide

theorem test_issue_and_reject :
    (served State.reset (wr32 0x014 0x73400000)).statusWord = 0x00000001 ∧
    (served State.reset (wr32 0x014 0x43800000)).statusWord = 0x00000204 ∧
    (served State.reset (wr32 0x014 0x642B0000)).statusWord = 0x00000304 ∧
    (served State.reset (wr32 0x014 0xFC000000)).errInfo = 0xFC000000 := by decide

theorem test_status_write_one_clears :
    (served { State.reset with done := true, err := true, tblv := true, errCode := .badAcc } (wr32 0x010 0xFFFFFFFF)).statusWord =
      0x00000008 ∧
    (served { State.reset with done := true, err := true, tblv := true, errCode := .badAcc } (wr32 0x010 2)).statusWord =
      0x0000050C := by decide

/-- spec/95 section 8: the first word of a register is its most significant. -/
theorem test_register_window_big_endian :
    (served (regsSet [(3, 0)]) (wr32 0x160 0xFFFFFFFF)).regs[3].value = 0xFFFFFFFF <<< 224 ∧
    (served (regsSet [(3, 0x0123456789ABCDEF)]) (rd32 0x17C)).reply = some 0x89ABCDEF ∧
    (served State.reset (wr32 0x1BC 0xF)).regs[5] = ⟨0xF, 0x80⟩ := by decide

/-! ### The cautious model (spec/93 U1 to U6) -/

/-- U6 and 10_state R25: a command reads an unwritten register; U1: a source of P; U3: FINV of 0; U5: a small table with Z = 0. -/
theorem test_cautious_model_faults :
    (State.reset.withFetchWord 32 0x04804000).caution = some .unwrittenSource ∧
    (State.reset.withFetchWord 32 0x71000000).caution = some .unwrittenSource ∧
    ((regsSet [(0, BitVec.ofNat 256 Config.p), (1, 1)]).withFetchWord 32 0x04804000).caution = some .nonCanonicalSource ∧
    ((regsSet [(0, 0)]).withFetchWord 32 0x20400000).caution = some .inversionOfZero ∧
    ((regsSet [(0, 1), (2, 0), (3, 0)]).withFetchWord 32 0x75008000).caution = some .zeroInSmallTable := by decide +kernel

/-- Exceptional point inputs (U8, U9), a non-canonical value under FSEL and a host read of an unwritten word (U7) are no faults. -/
theorem test_cautious_model_goes_on :
    ((regsSet [(0, 0), (1, 0), (2, 0)]).withFetchWord 32 0x41000000).caution = none ∧
    ((regsSet [(0, BitVec.allOnes 256), (1, 7), (2, 0)]).withFetchWord 32 0x14C04800).caution = none ∧
    (Claims.arriving State.reset (rd32 0x100) []).caution = none := by decide +kernel

/-! ### The end of a run (70_reset R174) -/

/-- FADD.P F2, F0, F1 of 5 and 7 leaves 12 in the last word of F2, STATUS = DONE, and nothing said of F3, which was never written. -/
theorem test_run_result :
    (after (regsSet [(0, 5), (1, 7)]) 0x08804000).runResult.map (fun r => (r.regs[2][7], r.regs[3][7], r.status, r.errInfo)) =
      some (some 12, none, 2, 0) := by decide +kernel

/-- A run has not ended with a command in flight, or with an access still to be served. -/
theorem test_run_not_ended :
    ((regsSet [(0, 5)]).accept .nop 0).runResult = none ∧
    ({ State.reset with port := [.complete, .access (rd32 0x010)] } : State).runResult = none := by decide +kernel

/-! ### Witnesses: for every statement with hypotheses, concrete states and operands that meet all of them together, each clause at its
boundaries. `witness_X` belongs to `Obligations.X`. -/
open Sys2Proof.Claims

/-- M − 1, the largest canonical value. -/
def top (m : Modulus) : Elem := BitVec.ofNat 256 (modulus m - 1)

/-- A command in flight, accepted when the given registers were written and no others. -/
def inFlight (l : List (RegIdx × Elem)) (i : Instr) : State := (regsSet l).accept i (encode i)

/-- The generator as a Jacobian point with Z = R mod P. -/
def gJac : Jac := ⟨gxm, gym, onep⟩
/-- 32·G in Montgomery affine form (spec/95 section 5, entry (0, 31)). -/
def g32 : Aff := ⟨0x39227077695532A4BC6D6A58FEAD0197BEFD904C4079DFBFD8C5FCCFC5E3A3D8,
  0x6231D7929591C2A47B969C1AAD9A2E407E449B64480A990809E23E6DDBEF42F5⟩

theorem witness_DecodeOfEncodeIsTheCommand : Instr.WellFormed .nop ∧ Instr.WellFormed (.fmul .n 15 15 15) ∧
    Instr.WellFormed (.fadd .n 15 15 15) ∧ Instr.WellFormed (.fsub .n 15 15 15) ∧ Instr.WellFormed (.fhlv .n 15 15) ∧
    Instr.WellFormed (.fsel 15 15 15 15) ∧ Instr.WellFormed (.ftom .n 15 15) ∧ Instr.WellFormed (.ffrm .n 15 15) ∧
    Instr.WellFormed (.finv .n 15 15) ∧ Instr.WellFormed (.ldc 15 10) ∧ Instr.WellFormed (.pdbl 13 13) ∧
    Instr.WellFormed (.padd 13 13 14 true true true) ∧ Instr.WellFormed (.pj2a 14 13) ∧ Instr.WellFormed (.pa2j 13 14) ∧
    Instr.WellFormed .tblb ∧ Instr.WellFormed (.tblrd 14 42 31) ∧ Instr.WellFormed (.smulg 13 15) ∧
    Instr.WellFormed (.smulp 13 15 14) := by decide

theorem witness_AcceptedWordIsTheEncoding :
    decode 0x642AF800 = .accept (.tblrd 0 42 31) ∧ decode 0x2400000A = .accept (.ldc 0 10) := by decide

theorem witness_IllegalWordsAreThoseOfNoRow : decode 0x2400000B = .reject .illegal ∧ decode 0x04804010 = .reject .illegal ∧
    decode 0x2400000A ≠ .reject .illegal := by decide

theorem witness_RangeErrorsAreThoseOfBasesAndWindows :
    decode (encode (.pdbl 13 13)) ≠ .reject .regRange ∧ decode (encode (.pdbl 14 0)) = .reject .regRange ∧
    decode (encode (.padd 13 13 14 false true true)) ≠ .reject .regRange ∧
    decode (encode (.padd 0 0 15 false true true)) = .reject .regRange ∧ decode (encode (.pj2a 15 0)) = .reject .regRange ∧
    decode (encode (.pa2j 14 0)) = .reject .regRange ∧ decode (encode (.smulg 14 0)) = .reject .regRange ∧
    decode (encode (.smulp 0 0 15)) = .reject .regRange ∧ decode (encode (.tblrd 15 43 0)) = .reject .regRange ∧
    decode (encode (.tblrd 14 43 0)) = .reject .tblRange ∧ decode (encode (.tblrd 14 42 0)) ≠ .reject .tblRange := by decide

/-! #### Field commands: both moduli, both sources at M − 1 -/

theorem witness_FmulWritesTheMontgomeryProduct (m : Modulus) :
    let s := inFlight [(0, top m), (1, top m)] (.fmul m 15 0 1)
    SourceHolds s 0 (top m) ∧ SourceHolds s 1 (top m) ∧ (top m).toNat < modulus m := by
  cases m <;> (unfold SourceHolds; decide +kernel)

theorem witness_FaddWritesTheModularSum (m : Modulus) :
    let s := inFlight [(0, top m), (1, top m)] (.fadd m 15 0 1)
    SourceHolds s 0 (top m) ∧ SourceHolds s 1 (top m) ∧ (top m).toNat < modulus m := by
  cases m <;> (unfold SourceHolds; decide +kernel)

theorem witness_FsubWritesTheModularDifference (m : Modulus) :
    let s := inFlight [(0, 0), (1, top m)] (.fsub m 15 0 1)
    SourceHolds s 0 0 ∧ SourceHolds s 1 (top m) ∧ (0 : Elem).toNat < modulus m ∧ (top m).toNat < modulus m := by
  cases m <;> (unfold SourceHolds; decide +kernel)

theorem witness_FhlvWritesTheHalf (m : Modulus) :
    (SourceHolds (inFlight [(0, top m)] (.fhlv m 1 0)) 0 (top m) ∧ (top m).toNat < modulus m) ∧
    (SourceHolds (inFlight [(0, 1)] (.fhlv m 0 0)) 0 1 ∧ (1 : Elem).toNat < modulus m) := by
  cases m <;> (unfold SourceHolds; decide +kernel)

theorem witness_FselWritesTheSelectedValue :
    let s := inFlight [(0, BitVec.allOnes 256), (1, 7), (2, 0)] (.fsel 0 0 1 2)
    let t := inFlight [(0, BitVec.allOnes 256), (1, 7), (2, 1)] (.fsel 0 0 1 2)
    (SourceHolds s 0 (BitVec.allOnes 256) ∧ SourceHolds s 1 7 ∧ SourceHolds s 2 0) ∧
    (SourceHolds t 0 (BitVec.allOnes 256) ∧ SourceHolds t 1 7 ∧ SourceHolds t 2 1) := by
  unfold SourceHolds; decide +kernel

theorem witness_ConversionsWriteTheirRepresentations (m : Modulus) :
    (SourceHolds (inFlight [(0, top m)] (.ftom m 1 0)) 0 (top m) ∧ (top m).toNat < modulus m) ∧
    (SourceHolds (inFlight [(0, top m)] (.ffrm m 1 0)) 0 (top m) ∧ (top m).toNat < modulus m) := by
  cases m <;> (unfold SourceHolds; decide +kernel)

theorem witness_FfrmUndoesFtom (m : Modulus) :
    let s := inFlight [(0, top m)] (.ftom m 1 0)
    ∃ t, exec (.ftom m 1 0) s = .next t ∧ Holds t 1 (toMont m (top m)) ∧ (top m).toNat < modulus m ∧ SourceHolds s 0 (top m) ∧
      SourceHolds (inFlight [(1, toMont m (top m))] (.ffrm m 2 1)) 1 (toMont m (top m)) := by
  refine ⟨_, rfl, ?_⟩
  cases m <;> (unfold Holds SourceHolds; decide +kernel)

theorem witness_FinvWritesTheInverse (m : Modulus) :
    SourceHolds (inFlight [(0, top m)] (.finv m 1 0)) 0 (top m) ∧ (top m).toNat < modulus m ∧ top m ≠ 0 := by
  cases m <;> (unfold SourceHolds; decide +kernel)

theorem witness_LdcWritesTheConstant : (0 : Fin 16).val ≤ 10 ∧ (10 : Fin 16).val ≤ 10 := by decide

/-- A source that is M itself, one with its last word unwritten, a zero to invert. -/
theorem witness_FieldPreconditionViolationsGiveUnspec (m : Modulus) :
    (modulus m ≤ ((inFlight [(0, BitVec.ofNat 256 (modulus m)), (1, 1)] (.fmul m 2 0 1)).source 0).value.toNat) ∧
    ((inFlight [(0, 1)] (.fmul m 2 0 1)).source 1).written ≠ allWritten ∧
    (modulus m ≤ ((inFlight [(0, BitVec.ofNat 256 (modulus m))] (.fhlv m 2 0)).source 0).value.toNat) ∧
    ((inFlight [(0, 0)] (.finv m 2 0)).source 0).value = 0 ∧
    ((inFlight [(0, 1), (1, 1)] (.fsel 3 0 1 2)).source 2).written ≠ allWritten := by
  cases m <;> decide +kernel

/-! #### Every command -/

theorem witness_EveryCommandCompletes : Instr.WellFormed (.smulp 13 15 14) ∧ Instr.WellFormed (.tblrd 14 42 31) ∧
    Instr.WellFormed .nop := by decide

theorem witness_CommandsKeepWhatTheyDoNotName :
    (∃ t, exec .tblb State.reset = .next t) ∧ (∃ t, exec (.smulp 13 0 14) (inFlight [(0, 1)] (.smulp 13 0 14)) = .next t) :=
  ⟨⟨_, rfl⟩, ⟨_, rfl⟩⟩

/-! #### Point commands: the generator, bases at 13 and 14 -/

theorem witness_PdblWritesTheJacobianDoubling :
    SourceJac (inFlight [(13, gxm), (14, gym), (15, onep)] (.pdbl 13 13)) 13 gJac ∧ CanonicalJac gJac ∧ (13 : RegIdx).val ≤ 13 := by
  unfold SourceJac SourceHolds CanonicalJac; decide +kernel

theorem gJac_represents : Represents gJac (valP gxm) (valP gym) := by
  have h : valP gJac.z = 1 := val_onep
  unfold Represents
  rw [h]
  have := Machine.fact_prime .p
  exact ⟨one_ne_zero, by rw [one_pow, mul_one]; rfl, by rw [one_pow, mul_one]; rfl⟩

theorem witness_PdblDoublesThePoint :
    (SourceJac (inFlight [(13, gxm), (14, gym), (15, onep)] (.pdbl 13 13)) 13 gJac ∧ CanonicalJac gJac) ∧
    Represents gJac (valP gxm) (valP gym) ∧ valP gym ≠ 0 :=
  ⟨by unfold SourceJac SourceHolds CanonicalJac; decide +kernel, gJac_represents,
    fun h => absurd ((val_eq_zero_iff (m := .p) (by decide +kernel)).1 h) (by decide +kernel)⟩

/-- The registers of the generator at F13 and of 32·G at F0. -/
def twoPoints : List (RegIdx × Elem) := [(13, gxm), (14, gym), (15, onep), (0, g32.x), (1, g32.y)]

theorem witness_PaddWritesTheSelectedPoint :
    let s := inFlight twoPoints (.padd 13 13 0 true true true)
    (SourceJac s 13 gJac ∧ SourceAff s 0 g32 ∧ CanonicalJac gJac ∧ CanonicalAff g32) ∧
    SourceAff (inFlight [(14, g32.x), (15, g32.y)] (.padd 0 0 14 false false false)) 14 g32 := by
  unfold SourceJac SourceAff SourceHolds CanonicalJac CanonicalAff; decide +kernel

theorem witness_PaddAddsThePoints :
    let s := inFlight twoPoints (.padd 13 13 0 true true true)
    (SourceJac s 13 gJac ∧ SourceAff s 0 g32 ∧ CanonicalJac gJac ∧ CanonicalAff g32) ∧ Represents gJac (valP gxm) (valP gym) ∧
    valP g32.x ≠ valP gxm :=
  ⟨by unfold SourceJac SourceAff SourceHolds CanonicalJac CanonicalAff; decide +kernel, gJac_represents,
    fun h => absurd ((val_inj (m := .p) (by decide +kernel) (by decide +kernel)).1 h) (by decide +kernel)⟩

theorem witness_ExceptionalPointInputsGiveTheFormulaValues :
    SourceJac (inFlight [(0, 0), (1, 0), (2, 0)] (.pdbl 13 0)) 0 ⟨0, 0, 0⟩ ∧
    (SourceJac (inFlight [(0, 0), (1, 0), (2, 0), (14, gxm), (15, gym)] (.padd 13 0 14 false true true)) 0 ⟨0, 0, 0⟩ ∧
      SourceAff (inFlight [(0, 0), (1, 0), (2, 0), (14, gxm), (15, gym)] (.padd 13 0 14 false true true)) 14 generator ∧
      CanonicalAff generator) ∧
    (SourceJac (inFlight [(13, gxm), (14, gym), (15, onep)] (.padd 0 13 13 true true true)) 13
        ⟨generator.x, generator.y, BitVec.ofNat 256 (2 ^ 256 % modulus .p)⟩ ∧
      SourceAff (inFlight [(13, gxm), (14, gym), (15, onep)] (.padd 0 13 13 true true true)) 13 generator) := by
  unfold SourceJac SourceAff SourceHolds CanonicalAff; decide +kernel

theorem witness_Pj2aWritesTheAffinePoint :
    SourceJac (inFlight [(13, gxm), (14, gym), (15, onep)] (.pj2a 14 13)) 13 gJac ∧ CanonicalJac gJac ∧ gJac.z ≠ 0 := by
  unfold SourceJac SourceHolds CanonicalJac; decide +kernel

theorem witness_Pa2jMovesAndSetsZ :
    SourceAff (inFlight [(14, BitVec.allOnes 256), (15, 0)] (.pa2j 13 14)) 14 ⟨BitVec.allOnes 256, 0⟩ := by
  unfold SourceAff SourceHolds; decide +kernel

/-- A coordinate of P, an unwritten one, a Z of 0, each with a base at the bound of its clause. -/
theorem witness_PointPreconditionViolationsGiveUnspec :
    modulus .p ≤ ((inFlight [(13, gxm), (14, gym), (15, BitVec.ofNat 256 Config.p)] (.pdbl 0 13)).source 15).value.toNat ∧
    modulus .p ≤ ((inFlight [(14, gxm), (15, BitVec.ofNat 256 Config.p)] (.padd 0 0 14 true false true)).source 15).value.toNat ∧
    ((inFlight [(14, gxm)] (.pa2j 0 14)).source 15).written ≠ allWritten ∧
    ((inFlight [(13, gxm), (14, gym), (15, 0)] (.pj2a 14 13)).source 15).value = 0 := by decide +kernel

/-! #### Table and scalar commands -/

theorem witness_TblbBuildsOnce : State.reset.tblv = false ∧ (State.reset.ensureTable).tblv = true := by decide +kernel

theorem witness_TblrdWritesTheEntry : (14 : RegIdx).val ≤ 14 ∧ (42 : Fin 64).val ≤ 42 ∧
    (State.reset.tblv = true → State.reset.tbl = baseTable) ∧
    (State.reset.ensureTable.tblv = true ∧ State.reset.ensureTable.tbl = baseTable) :=
  ⟨by decide, by decide, nofun, rfl, rfl⟩

theorem witness_BoothDigitIsTheSignedDigit : 1 ≤ 1 ∧ 3 < 2 ^ (1 + 1) ∧ 1 ≤ 6 ∧ 127 < 2 ^ (6 + 1) := by decide

theorem witness_CtLookupReturnsTheEntry : 0 < [generator].length := by decide

theorem witness_SmulgWritesTheTableProduct :
    let s := inFlight [(15, BitVec.allOnes 256)] (.smulg 13 15)
    (13 : RegIdx).val ≤ 13 ∧ SourceHolds s 15 (BitVec.allOnes 256) ∧ (s.tblv = true → s.tbl = baseTable) := by
  refine ⟨by decide, ?_, nofun⟩
  unfold SourceHolds; decide +kernel

/-- k = N; the largest digit position, 15·2^252 < N; a scalar of which the host wrote seven words. -/
theorem witness_SmulgOnSpecialScalars :
    let s := inFlight [(0, BitVec.ofNat 256 Config.n)] (.smulg 13 0)
    let t := inFlight [(0, BitVec.ofNat 256 (15 * 2 ^ (6 * 42)))] (.smulg 13 0)
    let u := { State.reset with regs := State.reset.regs.set 0 ⟨5, 0x7F⟩ }.accept (.smulg 13 0) (encode (.smulg 13 0))
    (SourceHolds s 0 (BitVec.ofNat 256 Config.n) ∧ (BitVec.ofNat 256 Config.n).toNat % Config.n = 0) ∧
    (SourceHolds t 0 (BitVec.ofNat 256 (15 * 2 ^ (6 * 42))) ∧ 15 * 2 ^ (6 * 42) < Config.n ∧
      (BitVec.ofNat 256 (15 * 2 ^ (6 * 42))).toNat = 15 * 2 ^ (6 * 42)) ∧
    (u.source 0).written ≠ allWritten ∧ s.tblv = false ∧ t.tblv = false ∧ u.tblv = false := by
  unfold SourceHolds; decide +kernel

/-- The point is the generator; a point of P; an unwritten one; one whose double has Z = 0; an unwritten scalar. -/
theorem witness_SmulpWritesTheProductOrUnspec :
    let s := inFlight [(0, 2), (14, gxm), (15, gym)] (.smulp 13 0 14)
    let t := inFlight [(0, 2), (14, BitVec.ofNat 256 Config.p), (15, gym)] (.smulp 13 0 14)
    let u := inFlight [(0, 2), (14, gxm)] (.smulp 13 0 14)
    let v := inFlight [(0, 2), (14, 0), (15, 0)] (.smulp 13 0 14)
    (SourceHolds s 0 2 ∧ SourceAff s 14 generator ∧ CanonicalAff generator ∧ ∀ j ∈ jacMultiples 16 generator, j.z ≠ 0) ∧
    (∀ q, SourceAff t 14 q → CanonicalAff q → ∃ j ∈ jacMultiples 16 q, j.z = 0) ∧
    (∀ q, SourceAff u 14 q → CanonicalAff q → ∃ j ∈ jacMultiples 16 q, j.z = 0) ∧
    (∀ q, SourceAff v 14 q → CanonicalAff q → ∃ j ∈ jacMultiples 16 q, j.z = 0) ∧
    ((inFlight [(14, gxm), (15, gym)] (.smulp 13 0 14)).source 0).written ≠ allWritten := by
  refine ⟨by unfold SourceAff SourceHolds CanonicalAff; decide +kernel, ?_, ?_, ?_, by decide +kernel⟩
  · intro q h hc
    have hx : q.x = BitVec.ofNat 256 Config.p := (congrArg Reg.value h.1).symm
    have := hc.1
    rw [hx] at this
    exact absurd this (by decide +kernel)
  · intro q h _
    have hw : (0 : BitVec 8) = allWritten := congrArg Reg.written h.2
    exact absurd hw (by decide)
  · intro q h _
    have hx : q.x = 0 := (congrArg Reg.value h.1).symm
    have hy : q.y = 0 := (congrArg Reg.value h.2).symm
    have hq : q = ⟨0, 0⟩ := by cases q; simp_all
    rw [hq]
    decide +kernel

theorem witness_SmallTableHoldsTheMultiples : CanonicalAff generator ∧ ∀ j ∈ jacMultiples 16 generator, j.z ≠ 0 := by
  unfold CanonicalAff; decide +kernel

theorem witness_SmulpOnZeroAndOne :
    let s := inFlight [(0, BitVec.ofNat 256 Config.n), (14, gxm), (15, gym)] (.smulp 13 0 14)
    let t := inFlight [(0, BitVec.ofNat 256 (Config.n + 1)), (14, gxm), (15, gym)] (.smulp 13 0 14)
    (SourceHolds s 0 (BitVec.ofNat 256 Config.n) ∧ SourceAff s 14 generator ∧ (BitVec.ofNat 256 Config.n).toNat % Config.n = 0) ∧
    (SourceHolds t 0 (BitVec.ofNat 256 (Config.n + 1)) ∧ SourceAff t 14 generator ∧
      (BitVec.ofNat 256 (Config.n + 1)).toNat % Config.n = 1) ∧
    CanonicalAff generator ∧ ∀ j ∈ jacMultiples 16 generator, j.z ≠ 0 := by
  unfold SourceAff SourceHolds CanonicalAff; decide +kernel

/-! #### Steps, the invariant and the host window -/

/-- An FMUL in flight, the engine's turn. -/
def busyState : State := inFlight [(0, 7), (1, 9)] (.fmul .p 2 0 1)
/-- An idle machine with the table built and an error recorded. -/
def errState : State :=
  { State.reset with tblv := true, tbl := baseTable, done := true, err := true, errCode := .badAcc, errInfo := 0x300 }

theorem busyState_inv : busyState.Inv where
  latch_busy := rfl
  latch_command := by
    intro l h
    cases h
    exact ⟨rfl, .fmul .p 2 0 1, by decide, rfl⟩
  cmd_command := ⟨.fmul .p 2 0 1, by decide⟩
  table_valid := nofun
  err_clear := fun _ => ⟨rfl, rfl⟩
  err_set := nofun

theorem errState_inv : errState.Inv where
  latch_busy := rfl
  latch_command := nofun
  cmd_command := ⟨.nop, by decide⟩
  table_valid := fun _ => rfl
  err_clear := nofun
  err_set := nofun

theorem witness_StepRunsTheLatchedCommand :
    busyState.latch.map (fun l => decode l.word) = some (.accept (.fmul .p 2 0 1)) := by decide +kernel

theorem witness_PlacedWordRunsNext : decodeTableWord 32 0x75008000 = some (.smulp 4 0 2) ∧ decodeTableWord 32 0 = some .nop := by
  decide

theorem witness_EveryStepKeepsTheInvariant : (busyState.Inv ∧ ∃ t, step busyState = .next t) ∧ (errState.Inv ∧ ∃ t, step errState = .next t) :=
  ⟨⟨busyState_inv, _, rfl⟩, ⟨errState_inv, _, rfl⟩⟩

theorem witness_NoStepStops : busyState.Inv ∧ errState.Inv := ⟨busyState_inv, errState_inv⟩

theorem witness_CommandInFlightCompletes : busyState.Inv ∧ busyState.busy = true ∧ busyState.port = [] := ⟨busyState_inv, rfl, rfl⟩

theorem witness_CmdWriteIssuesTheCommand : errState.busy = false ∧ decode 0x75008000 = .accept (.smulp 4 0 2) := by decide

theorem witness_CmdWriteRejectsOtherWords : State.reset.busy = false ∧ decode 0x2400000B = .reject .illegal ∧
    decode 0x43800000 = .reject .regRange ∧ decode 0x642B0000 = .reject .tblRange := by decide

theorem witness_BusyDropsWrites : busyState.busy = true := rfl

theorem witness_BadAccessesRaiseBadacc : BadAccess (rd32 0x01C) ∧ BadAccess (wr32 0x0FC 0) ∧ BadAccess (rd32 0x300) ∧
    BadAccess ⟨.bits8, 0x000, .read⟩ ∧ BadAccess ⟨.burst, 0x100, .write 0⟩ ∧ BadAccess (rd32 0x002) ∧ BadAccess (rd32 0xFFC) := by
  unfold BadAccess Mapped; decide

theorem witness_GoodReadsHaveNoSideEffect : ¬ BadAccess (rd32 0x000) ∧ ¬ BadAccess (rd32 0x018) ∧ ¬ BadAccess (rd32 0x100) ∧
    ¬ BadAccess (rd32 0x2FC) ∧ (rd32 0x100).kind = .read := by
  unfold BadAccess Mapped; decide

theorem witness_RegisterWindowWordsAreBigEndian : State.reset.busy = false := rfl

theorem witness_InterruptIsALevelAndClears : (6 : Word32).getLsbD 1 = true ∧ (6 : Word32).getLsbD 2 = true ∧
    (0xFFFFFFFE : Word32).getLsbD 0 = false ∧ (State.irq { errState with ie := true }) = true := by decide

/-! #### Rules about every step -/

theorem witness_FirstErrorIsKept : ∃ t, step (arriving errState (rd32 0x01C) []) = .next t ∧ errState.err = true ∧ t.err = true :=
  ⟨_, rfl, rfl, rfl⟩

theorem witness_TableIsImmutableOnceValid : ∃ t, step { errState with port := [.complete] } = .next t ∧ errState.tblv = true ∧
    ∀ rest, [PortEvent.complete] ≠ .reset :: rest :=
  ⟨_, rfl, rfl, nofun⟩

/-- The three writers: a window write of word 7 of F15, a completion, the reset input. -/
theorem witness_RegistersChangeOnlyByTheirWriters :
    (∃ t, step (arriving State.reset (wr32 0x2FC 5) []) = .next t ∧ t.regs[15] ≠ State.reset.regs[15]) ∧
    (∃ t, step (inFlight [] (.ldc 15 0)) = .next t ∧ t.regs[15] ≠ (inFlight [] (.ldc 15 0)).regs[15]) ∧
    (∃ t, step { busyState with port := [.reset] } = .next t ∧ t.regs[0] ≠ busyState.regs[0]) :=
  ⟨⟨_, rfl, by decide +kernel⟩, ⟨_, rfl, by decide +kernel⟩, ⟨_, rfl, by decide +kernel⟩⟩

theorem witness_NoAccessTouchesTheCommandInFlight :
    busyState.busy = true ∧ ∃ t, step (arriving busyState (wr32 0x2FC 5) []) = .next t := ⟨rfl, _, rfl⟩

/-- One machine with secret registers, one without, the same command in flight. -/
theorem witness_ControlStateIsIndependentOfData :
    SamePublic (inFlight [(0, 7), (1, 9)] (.fmul .p 2 0 1)) (inFlight [(0, 8)] (.fmul .p 2 0 1)) :=
  ⟨rfl, rfl, rfl, rfl, rfl, rfl, rfl, rfl, rfl, rfl⟩

end Sys2Proof.Tests
end

section
/-!
SUPPORT. The frame of the commands, said once: which registers a completion step leaves alone and what becomes of the base-point table.
-/
namespace Sys2Proof.Machine

variable {s t u : State} {i : Instr}

/-- The state a command works on: with the table built first if the command needs it (43_table R123). -/
def State.tableReady (i : Instr) (s : State) : State := if needsTable i then s.ensureTable else s

@[simp] theorem State.tableReady_regs (i : Instr) (s : State) : (s.tableReady i).regs = s.regs := by
  unfold State.tableReady; split
  · exact s.ensureTable_regs
  · rfl

theorem State.tableReady_of_needsTable (h : needsTable i = true) (s : State) : s.tableReady i = s.ensureTable := if_pos h

theorem State.tableReady_of_not_needsTable (h : ¬ needsTable i = true) (s : State) : s.tableReady i = s := if_neg h

/-- The commands that need the table (43_table R120, R123). -/
theorem needsTable_iff (i : Instr) :
    needsTable i = true ↔ i = .tblb ∨ (∃ rd win ent, i = .tblrd rd win ent) ∨ (∃ rd ra, i = .smulg rd ra) := by
  cases i <;> simp [needsTable]

/-- What a command leaves alone: every register it does not name, and the table as it stood or was built. -/
structure CommandFrame (i : Instr) (s t : State) : Prop where
  regs : RegsKept (destinations i) s t
  table : TableKept (s.tableReady i) t

/-- Completion touches neither registers nor table, so what was done before it settles the frame. -/
theorem CommandFrame.of_finish {ok : Bool} (h : finish ok u = .next t) (hregs : RegsKept (destinations i) (s.tableReady i) u)
    (htable : TableKept (s.tableReady i) u) : CommandFrame i s t := by
  obtain ⟨-, rfl⟩ := finish_eq_next_iff.1 h
  exact ⟨fun r hr => (hregs r hr).trans (by rw [State.tableReady_regs]), htable⟩

theorem CommandFrame.of_writeElem {ok : Bool} {rd : RegIdx} {o : Option Elem} (hd : destinations i = [rd])
    (h : finish ok ((s.tableReady i).writeElem rd o) = .next t) : CommandFrame i s t :=
  .of_finish h (hd ▸ regsKept_writeElem _ rd o) ⟨State.writeElem_tblv .., State.writeElem_tbl ..⟩

theorem CommandFrame.of_writeAff {ok : Bool} {rd : RegIdx} {o : Option Aff} (hd : destinations i = affDest rd)
    (h : finish ok ((s.tableReady i).writeAff rd o) = .next t) : CommandFrame i s t :=
  .of_finish h (hd ▸ regsKept_writeAff _ rd o) ⟨State.writeAff_tblv .., State.writeAff_tbl ..⟩

theorem CommandFrame.of_writeJac {ok : Bool} {rd : RegIdx} {o : Option Jac} (hd : destinations i = jacDest rd)
    (h : finish ok ((s.tableReady i).writeJac rd o) = .next t) : CommandFrame i s t :=
  .of_finish h (hd ▸ regsKept_writeJac _ rd o) ⟨State.writeJac_tblv .., State.writeJac_tbl ..⟩

/-- Every command keeps its frame. -/
theorem exec_next_frame (h : exec i s = .next t) : CommandFrame i s t := by
  cases i with
  | nop => rw [exec_nop] at h; exact .of_finish h (fun _ _ => rfl) ⟨rfl, rfl⟩
  | fmul => rw [exec_fmul] at h; exact .of_writeElem rfl h
  | fadd => rw [exec_fadd] at h; exact .of_writeElem rfl h
  | fsub => rw [exec_fsub] at h; exact .of_writeElem rfl h
  | fhlv => rw [exec_fhlv] at h; exact .of_writeElem rfl h
  | fsel => rw [exec_fsel] at h; exact .of_writeElem rfl h
  | ftom => rw [exec_ftom] at h; exact .of_writeElem rfl h
  | ffrm => rw [exec_ffrm] at h; exact .of_writeElem rfl h
  | finv => rw [exec_finv] at h; exact .of_writeElem rfl h
  | ldc => rw [exec_ldc] at h; exact .of_writeElem rfl h
  | pdbl => rw [exec_pdbl] at h; exact .of_writeJac rfl h
  | padd => rw [exec_padd] at h; exact .of_writeJac rfl h
  | pj2a => rw [exec_pj2a] at h; exact .of_writeAff rfl h
  | pa2j => rw [exec_pa2j] at h; exact .of_writeJac rfl h
  | tblb => rw [exec_tblb] at h; exact .of_finish h (fun _ _ => rfl) ⟨rfl, rfl⟩
  | tblrd => rw [exec_tblrd] at h; exact .of_writeAff rfl h
  | smulg => rw [exec_smulg] at h; exact .of_writeJac rfl h
  | smulp => rw [exec_smulp] at h; exact .of_writeJac rfl h

/-- A command that needs the table leaves it valid, as it was if it was valid and built otherwise. -/
theorem CommandFrame.table_built (h : CommandFrame i s t) (hn : needsTable i = true) :
    t.tblv = true ∧ t.tbl = if s.tblv then s.tbl else baseTable := by
  obtain ⟨hv, ht⟩ := h.table
  rw [State.tableReady_of_needsTable hn] at hv ht
  exact ⟨hv.trans s.ensureTable_tblv, ht.trans s.ensureTable_tbl⟩

/-- A command that does not need the table leaves it alone. -/
theorem CommandFrame.table_kept (h : CommandFrame i s t) (hn : ¬ needsTable i = true) : TableKept s t :=
  State.tableReady_of_not_needsTable hn s ▸ h.table

end Sys2Proof.Machine
end

section
/-!
SUPPORT. Steps that serve a given access, and steps that run the command in flight, as equations; what any access does to the register file,
and what it does while BUSY = 1.
-/
namespace Sys2Proof.Machine

variable {s t : State}

/-! ### The engine's turn -/

theorem step_of_complete {l : Latch} {i : Instr} {rest : List PortEvent} (hp : s.port = .complete :: rest) (hl : s.latch = some l)
    (hd : decode l.word = .accept i) : step s = exec i (s.begin rest) := by
  unfold step advance
  rw [hp]
  exact completeInFlight_of_latch hl hd

theorem step_of_empty_port {l : Latch} {i : Instr} (hp : s.port = []) (hl : s.latch = some l) (hd : decode l.word = .accept i) :
    step s = exec i (s.begin []) := by
  unfold step advance
  rw [hp]
  exact completeInFlight_of_latch hl hd

/-- A table word that is a command is one 32-bit word that decodes to it. -/
theorem decode_of_decodeTableWord {w : Nat} {i : Instr} (h : decodeTableWord 32 w = some i) :
    decode (BitVec.ofNat 32 (w % 2 ^ 32)) = .accept i := by
  rw [decodeTableWord, if_pos (Nat.mod_lt _ (by decide))] at h
  cases hd : decode (BitVec.ofNat 32 (w % 2 ^ 32)) with
  | accept j => rw [hd, Decoded.instr?, Option.some.injEq] at h; rw [h]
  | reject e => rw [hd, Decoded.instr?] at h; cases h

theorem placeCommand_of_accept {w : Word32} {i : Instr} (hd : decode w = .accept i) :
    s.placeCommand w = { s.accept i w with port := .complete :: s.port } := by
  unfold State.placeCommand
  rw [hd]

/-! ### Writes at a given offset -/

theorem State.serve_read (s : State) (width : Width) (off : Offset) : s.serve ⟨width, off, .read⟩ = s.serveRead ⟨width, off, .read⟩ := rfl

theorem State.serve_write (s : State) (width : Width) (off : Offset) (v : Word32) :
    s.serve ⟨width, off, .write v⟩ = s.serveWrite ⟨width, off, .write v⟩ v := rfl

theorem step_arriving (s : State) (a : HostAccess) (rest : List PortEvent) :
    step (Claims.arriving s a rest) = .next ((s.begin rest).serve a) := step_of_access rfl

theorem nothingChanged_begin (s : State) (rest : List PortEvent) : Claims.NothingChanged s (s.begin rest) :=
  ⟨rfl, rfl, rfl, rfl, rfl, rfl, rfl, rfl, rfl, rfl, rfl⟩

theorem step_cmdWrite (s : State) (w : Word32) (rest : List PortEvent) :
    step (Claims.arriving s ⟨.bits32, 0x014, .write w⟩ rest) = .next ((s.begin rest).issue w) := by
  rw [step_arriving, State.serve_write, serveWrite_cmd]

theorem step_ctrlWrite (s : State) (v : Word32) (rest : List PortEvent) :
    step (Claims.arriving s ⟨.bits32, 0x00C, .write v⟩ rest) = .next ((s.begin rest).writeCtrl v) := by
  rw [step_arriving, State.serve_write, serveWrite_ctrl]

theorem step_statusWrite (s : State) (v : Word32) (rest : List PortEvent) :
    step (Claims.arriving s ⟨.bits32, 0x010, .write v⟩ rest) = .next ((s.begin rest).writeStatus v) := by
  rw [step_arriving, State.serve_write, serveWrite_status]

/-- The read-only registers (10_state R28). -/
def readOnlyTargets : List Target := [.id, .version, .caps, .errInfo]

/-- A write to a read-only register is ignored (10_state R28). -/
theorem serveWrite_readOnly {a : HostAccess} (h : a.target ∈ readOnlyTargets) (s : State) (v : Word32) : s.serveWrite a v = s := by
  simp only [readOnlyTargets, List.mem_cons, List.not_mem_nil, or_false] at h
  unfold State.serveWrite
  rcases h with h | h | h | h <;> rw [h]

theorem step_readOnlyWrite {off : Offset} (haligned : off.toNat % 4 = 0) (h : targetOf off ∈ readOnlyTargets) (s : State) (v : Word32)
    (rest : List PortEvent) : step (Claims.arriving s ⟨.bits32, off, .write v⟩ rest) = .next (s.begin rest) := by
  rw [step_arriving, State.serve_write, serveWrite_readOnly]
  rwa [target_eq_targetOf haligned]

/-! ### What a STATUS write does to the fields it names (10_state R30) -/

@[simp] theorem State.writeStatus_done (s : State) (v : Word32) : (s.writeStatus v).done = (s.done && !v.getLsbD 1) := by
  unfold State.writeStatus
  cases v.getLsbD 1 <;> cases v.getLsbD 2 <;> simp

@[simp] theorem State.writeStatus_err (s : State) (v : Word32) : (s.writeStatus v).err = (s.err && !v.getLsbD 2) := by
  unfold State.writeStatus
  cases v.getLsbD 1 <;> cases v.getLsbD 2 <;> simp

@[simp] theorem State.writeStatus_errCode (s : State) (v : Word32) :
    (s.writeStatus v).errCode = if v.getLsbD 2 then .none else s.errCode := by
  unfold State.writeStatus
  cases v.getLsbD 1 <;> cases v.getLsbD 2 <;> simp

@[simp] theorem State.writeStatus_errInfo (s : State) (v : Word32) :
    (s.writeStatus v).errInfo = if v.getLsbD 2 then 0 else s.errInfo := by
  unfold State.writeStatus
  cases v.getLsbD 1 <;> cases v.getLsbD 2 <;> simp

/-- A STATUS write clears DONE, the error record, both or neither. -/
theorem State.writeStatus_cases (s : State) (v : Word32) :
    s.writeStatus v = s ∨ s.writeStatus v = s.clearDone ∨ s.writeStatus v = s.clearErr ∨ s.writeStatus v = s.clearDone.clearErr := by
  unfold State.writeStatus
  cases v.getLsbD 1 <;> cases v.getLsbD 2 <;> simp

/-! ### The interrupt (10_state R36) -/

theorem State.irq_iff (s : State) : s.irq = true ↔ s.ie = true ∧ (s.done = true ∨ s.err = true) := by simp [State.irq]

theorem State.irq_of_masked (h : s.ie = false) : s.irq = false := by simp [State.irq, h]

theorem State.irq_of_idle (hd : s.done = false) (he : s.err = false) : s.irq = false := by simp [State.irq, hd, he]

/-! ### What any access does -/

theorem serveRead_regs (s : State) (a : HostAccess) : (s.serveRead a).regs = s.regs := by
  obtain ⟨-, w, n, h⟩ | ⟨-, h⟩ := serveRead_cases s a <;> rw [h]
  exact State.raiseError_regs ..

/-- An access changes a register only as a 32-bit write of one of its words while BUSY = 0 (20_memory R51). -/
theorem serve_regs_ne {a : HostAccess} {r : RegIdx} (h : (s.serve a).regs[r] ≠ s.regs[r]) :
    s.busy = false ∧ ∃ w v, a = ⟨.bits32, regOffset r w, .write v⟩ := by
  obtain ⟨width, off, kind⟩ := a
  cases kind with
  | read => exact absurd (by rw [State.serve_read, serveRead_regs]) h
  | write v =>
    rw [State.serve_write] at h
    obtain he | ⟨code, info, -, he⟩ | he | he | ⟨i, -, -, -, -, he⟩ | ⟨i, w, hb, rfl, rfl, he⟩ :=
      serveWrite_cases s ⟨width, off, .write v⟩ v
    · exact absurd (by rw [he]) h
    · exact absurd (by rw [he, State.raiseError_regs]) h
    · exact absurd (by rw [he, State.writeCtrl_regs]) h
    · exact absurd (by rw [he, State.writeStatus_regs]) h
    · exact absurd (by rw [he, State.accept_regs]) h
    · obtain rfl : i = r := by
        by_contra hir
        have : i.val ≠ r.val := fun e => hir (Fin.ext e)
        exact h (by simp [he, Vector.getElem_set_ne, this])
      exact ⟨hb, w, v, rfl⟩

/-- What no access changes while a command is in flight; DONE may only be cleared (10_state R38). -/
structure InFlightKept (s t : State) : Prop where
  regs : t.regs = s.regs
  table : TableKept s t
  busy : t.busy = s.busy
  latch : t.latch = s.latch
  cmd : t.cmd = s.cmd
  done : t.done = true → s.done = true

theorem inFlightKept_raiseError (s : State) (code : ErrCode) (info : Word32) : InFlightKept s (s.raiseError code info) :=
  ⟨s.raiseError_regs .., ⟨s.raiseError_tblv .., s.raiseError_tbl ..⟩, s.raiseError_busy .., s.raiseError_latch .., s.raiseError_cmd ..,
    fun h => s.raiseError_done code info ▸ h⟩

theorem inFlightKept_writeStatus (s : State) (v : Word32) : InFlightKept s (s.writeStatus v) :=
  ⟨s.writeStatus_regs v, ⟨s.writeStatus_tblv v, s.writeStatus_tbl v⟩, s.writeStatus_busy v, s.writeStatus_latch v, s.writeStatus_cmd v,
    fun h => by rw [State.writeStatus_done, Bool.and_eq_true] at h; exact h.1⟩

theorem inFlightKept_serveRead (s : State) (a : HostAccess) : InFlightKept s (s.serveRead a) := by
  obtain ⟨-, w, n, h⟩ | ⟨-, h⟩ := serveRead_cases s a <;> rw [h]
  · exact ⟨rfl, ⟨rfl, rfl⟩, rfl, rfl, rfl, id⟩
  · obtain ⟨hregs, htable, hbusy, hlatch, hcmd, hdone⟩ := inFlightKept_raiseError s .badAcc (offsetInfo a.off)
    exact ⟨hregs, htable, hbusy, hlatch, hcmd, hdone⟩

theorem inFlightKept_serveWrite (hb : s.busy = true) (a : HostAccess) (v : Word32) : InFlightKept s (s.serveWrite a v) := by
  obtain h | ⟨code, info, -, h⟩ | h | h | ⟨i, hidle, -⟩ | ⟨i, w, hidle, -⟩ := serveWrite_cases s a v
  · rw [h]; exact ⟨rfl, ⟨rfl, rfl⟩, rfl, rfl, rfl, id⟩
  · rw [h]; exact inFlightKept_raiseError ..
  · rw [h]; exact ⟨rfl, ⟨rfl, rfl⟩, rfl, rfl, rfl, id⟩
  · rw [h]; exact inFlightKept_writeStatus ..
  · rw [hb] at hidle; cases hidle
  · rw [hb] at hidle; cases hidle

/-- No access of any kind touches the command in flight. -/
theorem inFlightKept_serve (hb : s.busy = true) (a : HostAccess) : InFlightKept s (s.serve a) := by
  unfold State.serve
  split
  · exact inFlightKept_serveRead s a
  · exact inFlightKept_serveWrite hb a _

end Sys2Proof.Machine
end

section
/-!
SUPPORT. The machine's invariant, update by update: what each named change of the state needs to keep it.
-/
namespace Sys2Proof.Machine

variable {s t : State}

theorem State.Inv.reset : State.reset.Inv where
  latch_busy := rfl
  latch_command := nofun
  cmd_command := ⟨.nop, by decide⟩
  table_valid := nofun
  err_clear := fun _ => ⟨rfl, rfl⟩
  err_set := nofun

/-- The invariant says nothing of CTRL.IE, DONE and the fields of the model's own. -/
theorem State.Inv.of_unnamed (h : s.Inv) (ie done : Bool) (port : List PortEvent) (reply : Option Word32) (drawn : Nat) :
    State.Inv { s with ie := ie, done := done, port := port, reply := reply, drawn := drawn } :=
  ⟨h.latch_busy, h.latch_command, h.cmd_command, h.table_valid, h.err_clear, h.err_set⟩

theorem State.Inv.begin (h : s.Inv) (rest : List PortEvent) : (s.begin rest).Inv := h.of_unnamed s.ie s.done rest none s.drawn

theorem State.Inv.writeCtrl (h : s.Inv) (v : Word32) : (s.writeCtrl v).Inv := h.of_unnamed _ s.done s.port s.reply s.drawn

theorem State.Inv.resetInput (s : State) : s.resetInput.Inv := State.Inv.reset.of_unnamed false false s.port none s.drawn

theorem State.Inv.raiseError (h : s.Inv) {code : ErrCode} (hc : code ≠ .none) (info : Word32) : (s.raiseError code info).Inv := by
  cases he : s.err with
  | true => rw [State.raiseError_of_err he]; exact h
  | false =>
    rw [State.raiseError_of_no_err he]
    exact ⟨h.latch_busy, h.latch_command, h.cmd_command, h.table_valid, nofun, fun _ => hc⟩

theorem State.Inv.clearErr (h : s.Inv) : s.clearErr.Inv :=
  ⟨h.latch_busy, h.latch_command, h.cmd_command, h.table_valid, fun _ => ⟨rfl, rfl⟩, nofun⟩

theorem State.Inv.clearDone (h : s.Inv) : s.clearDone.Inv := h.of_unnamed s.ie false s.port s.reply s.drawn

theorem State.Inv.writeStatus (h : s.Inv) (v : Word32) : (s.writeStatus v).Inv := by
  obtain he | he | he | he := s.writeStatus_cases v <;> rw [he]
  · exact h
  · exact h.clearDone
  · exact h.clearErr
  · exact h.clearDone.clearErr

/-- An accepted command stands in the latch with its sources as the register file has them (10_state R34, R38). -/
theorem State.Inv.accept (h : s.Inv) {i : Instr} {w : Word32} (hd : decode w = .accept i) : (s.accept i w).Inv where
  latch_busy := rfl
  latch_command := by
    rintro _ ⟨⟩
    exact ⟨rfl, i, hd, rfl⟩
  cmd_command := ⟨i, hd⟩
  table_valid := h.table_valid
  err_clear := h.err_clear
  err_set := h.err_set

theorem State.Inv.latch_of_idle (h : s.Inv) (hb : s.busy = false) : s.latch = none :=
  Option.isNone_iff_eq_none.1 (Option.isSome_eq_false_iff.1 (h.latch_busy.trans hb))

/-- A register word changes only while nothing is latched (20_memory R51). -/
theorem State.Inv.setRegWord (h : s.Inv) (hb : s.busy = false) (i : RegIdx) (t : Fin 8) (w : Word32) : (s.setRegWord i t w).Inv where
  latch_busy := h.latch_busy
  latch_command := fun l hl => absurd ((h.latch_of_idle hb).symm.trans hl) (by simp)
  cmd_command := h.cmd_command
  table_valid := h.table_valid
  err_clear := h.err_clear
  err_set := h.err_set

theorem State.Inv.serveRead (h : s.Inv) (a : HostAccess) : (s.serveRead a).Inv := by
  obtain ⟨-, w, n, he⟩ | ⟨-, he⟩ := serveRead_cases s a <;> rw [he]
  · exact h.of_unnamed s.ie s.done s.port (some w) n
  · have hr : (s.raiseError .badAcc (offsetInfo a.off)).Inv := h.raiseError (by simp) _
    exact hr.of_unnamed _ _ _ (some 0) _

theorem State.Inv.serveWrite (h : s.Inv) (a : HostAccess) (v : Word32) : (s.serveWrite a v).Inv := by
  obtain he | ⟨code, info, hc, he⟩ | he | he | ⟨i, -, hd, -, -, he⟩ | ⟨i, w, hb, -, -, he⟩ := serveWrite_cases s a v <;> rw [he]
  · exact h
  · exact h.raiseError hc info
  · exact h.writeCtrl v
  · exact h.writeStatus v
  · exact h.accept hd
  · exact h.setRegWord hb i w v

theorem State.Inv.serve (h : s.Inv) (a : HostAccess) : (s.serve a).Inv := by
  unfold State.serve
  split
  · exact h.serveRead a
  · exact h.serveWrite a _

/-- A command leaves a valid table the base-point table: it builds that one, or does not touch the store. -/
theorem CommandFrame.table_valid {i : Instr} (hf : CommandFrame i s t) (h : s.Inv) (hv : t.tblv = true) : t.tbl = baseTable := by
  by_cases hn : needsTable i = true
  · rw [(hf.table_built hn).2]
    split
    · exact h.table_valid ‹_›
    · rfl
  · obtain ⟨htblv, htbl⟩ := hf.table_kept hn
    rw [htbl]
    exact h.table_valid (htblv ▸ hv)

/-- Completion empties the latch and keeps CMD and the error record. -/
theorem State.Inv.exec (h : s.Inv) {i : Instr} (he : exec i s = .next t) : t.Inv := by
  have hc := exec_next_completed he
  exact {
    latch_busy := by rw [hc.latch, hc.busy]; rfl
    latch_command := fun l hl => absurd (hc.latch.symm.trans hl) (by simp)
    cmd_command := hc.cmd ▸ h.cmd_command
    table_valid := (exec_next_frame he).table_valid h
    err_clear := by rw [hc.err, hc.errCode, hc.errInfo]; exact h.err_clear
    err_set := by rw [hc.err, hc.errCode]; exact h.err_set }

/-- Every step keeps the invariant, whoever moves. -/
theorem State.Inv.step (h : s.Inv) (hs : step s = .next t) : t.Inv := by
  obtain ⟨a, rest, -, rfl⟩ | ⟨rest, -, ⟨-, rfl⟩ | ⟨l, i, -, -, he⟩⟩ | ⟨rest, -, rfl⟩ := step_cases hs
  · exact (h.begin rest).serve a
  · exact h.begin rest
  · exact (h.begin rest).exec he
  · exact .resetInput _

end Sys2Proof.Machine
end

section
/-!
CERTIFICATES. The statements of 10_state: the invariant, the frame of the commands, the issue of a command, and the control and status registers.
-/
namespace Sys2Proof.Machine

open Sys2Proof.Claims

/-- Settles O43: by the cases of a step, each of which keeps the invariant. -/
theorem everyStepKeepsTheInvariant : Obligations.EveryStepKeepsTheInvariant :=
  fun _ _ h hs => h.step hs

/-- Settles O42. -/
theorem invariantHoldsAtReset : Obligations.InvariantHoldsAtReset := State.Inv.reset

/-- Settles O18: the frame of the commands, with the table's clause read off the list of commands that need it. -/
theorem commandsKeepWhatTheyDoNotName : Obligations.CommandsKeepWhatTheyDoNotName := by
  intro i s t h
  have hf := exec_next_frame h
  refine ⟨hf.regs, exec_next_completed h, fun hi => hf.table_built ((needsTable_iff i).2 hi), fun h1 h2 h3 => hf.table_kept ?_⟩
  rw [needsTable_iff]
  rintro (rfl | ⟨rd, win, ent, rfl⟩ | ⟨rd, ra, rfl⟩)
  · exact h1 rfl
  · exact h2 _ _ _ rfl
  · exact h3 _ _ rfl

/-- Settles O29: the table is 43 rows of 32 multiples, and every multiple of a canonical point is canonical. -/
theorem baseTableIsCanonicalAndFull : Obligations.BaseTableIsCanonicalAndFull := by
  refine ⟨?_, fun row hrow => ?_⟩
  · rw [baseTable, tableRows_length, Config.nwG]
  · rw [baseTable] at hrow
    exact tableRows_rows Config.wG (n := Config.eG) (by decide) Config.nwG generator_below row hrow

/-- Settles O46: the write is an acceptance at the state with the access taken from the port. -/
theorem cmdWriteIssuesTheCommand : Obligations.CmdWriteIssuesTheCommand := by
  intro s w i rest hb hd
  refine ⟨(s.begin rest).accept i w, ⟨w, latchSources i (s.begin rest)⟩, ?_, rfl, rfl, rfl, rfl,
    fun r hr => State.source_accept i w hr, rfl, rfl, rfl, rfl, rfl, rfl, rfl, rfl, rfl⟩
  rw [step_cmdWrite, issue_of_accept (s := s.begin rest) hb hd]

/-- Settles O58: by the cases of a step; an access changes a register as a window write, a command as one of its destinations. -/
theorem registersChangeOnlyByTheirWriters : Obligations.RegistersChangeOnlyByTheirWriters := by
  intro s t r hs hne
  obtain ⟨a, rest, hp, rfl⟩ | ⟨rest, hp, ⟨-, rfl⟩ | ⟨l, i, hl, hd, he⟩⟩ | ⟨rest, hp, -⟩ := step_cases hs
  · obtain ⟨hb, w, v, rfl⟩ := serve_regs_ne (s := s.begin rest) hne
    exact .inl ⟨hb, w, v, rest, hp⟩
  · exact absurd rfl hne
  · refine .inr (.inl ⟨l, i, hl, hd, ?_, hp.imp And.left fun h => ⟨rest, h⟩⟩)
    by_contra hr
    exact hne ((exec_next_frame he).regs r hr)
  · exact .inr (.inr ⟨rest, hp⟩)

/-- Settles O59: no access touches the command in flight. -/
theorem noAccessTouchesTheCommandInFlight : Obligations.NoAccessTouchesTheCommandInFlight := by
  intro s t a rest hb hs
  rw [step_arriving, Host.Outcome.next.injEq] at hs
  subst hs
  obtain ⟨hregs, ⟨htblv, htbl⟩, hbusy, hlatch, hcmd, hdone⟩ := inFlightKept_serve (s := s.begin rest) hb a
  exact ⟨hregs, htbl, htblv, hbusy.trans hb, hlatch, hcmd, hdone⟩

/-- Settles O40: the engine's turn, at the head of the port or with the port empty. -/
theorem stepRunsTheLatchedCommand : Obligations.StepRunsTheLatchedCommand :=
  fun _ _ _ _ hl hd => ⟨step_of_complete rfl hl hd, step_of_empty_port rfl hl hd⟩

/-- Settles O41: the placed word stands accepted, and the engine's turn at the head of the port runs it. -/
theorem placedWordRunsNext : Obligations.PlacedWordRunsNext := by
  intro s w i h
  have hd := decode_of_decodeTableWord h
  refine ⟨(s.accept i (BitVec.ofNat 32 (w % 2 ^ 32))).begin s.port, ?_, rfl, rfl, rfl, rfl, fun r hr => State.source_accept i _ hr⟩
  rw [State.withFetchWord, placeCommand_of_accept hd]
  exact step_of_complete rfl rfl hd

/-- Settles O53: four ignored writes, and CTRL's. -/
theorem readOnlyAndControlWrites : Obligations.ReadOnlyAndControlWrites := by
  intro s v rest
  have hignored : ∀ {off : Offset}, off.toNat % 4 = 0 → targetOf off ∈ readOnlyTargets →
      ∃ t, step (arriving s ⟨.bits32, off, .write v⟩ rest) = .next t ∧ NothingChanged s t ∧ t.port = rest :=
    fun haligned htarget => ⟨_, step_readOnlyWrite haligned htarget s v rest, nothingChanged_begin s rest, rfl⟩
  exact ⟨hignored (by decide) (by decide), hignored (by decide) (by decide), hignored (by decide) (by decide),
    hignored (by decide) (by decide), _, step_ctrlWrite s v rest, rfl, nothingChanged_begin { s with ie := v.getLsbD 0 } rest⟩

/-- Settles O54: the fields a STATUS write names and those it keeps. -/
theorem statusWritesOneToClear : Obligations.StatusWritesOneToClear :=
  fun s v rest => ⟨_, step_statusWrite s v rest, by simp⟩

/-- Settles O55: IRQ falls with both its causes, and with IE. -/
theorem interruptIsALevelAndClears : Obligations.InterruptIsALevelAndClears :=
  ⟨State.irq_iff,
    fun s v rest h1 h2 => ⟨_, step_statusWrite s v rest, State.irq_of_idle (by simp [h1]) (by simp [h2])⟩,
    fun s v rest h0 => ⟨_, step_ctrlWrite s v rest, State.irq_of_masked h0, rfl, rfl⟩⟩

end Sys2Proof.Machine
end

section
/-!
SUPPORT. Reads, as equations: a good read by its frame, a control register by its word, a register word by the word it holds; and what a write of
a register word leaves in the register file.
-/
namespace Sys2Proof.Machine

variable {s : State}

/-! ### Good reads (20_memory R52) -/

/-- The bad accesses are those that reach nothing. -/
theorem badAccess_iff_target (a : HostAccess) : Claims.BadAccess a ↔ a.target = .unmapped := (target_eq_unmapped_iff a).symm

theorem State.serve_of_read {a : HostAccess} (h : a.kind = .read) (s : State) : s.serve a = s.serveRead a := by
  unfold State.serve
  rw [h]

/-- A good read answers a word and may draw a free value. -/
theorem serveRead_of_not_badAccess {a : HostAccess} (h : ¬ Claims.BadAccess a) (s : State) :
    ∃ w n, s.serveRead a = { s with reply := some w, drawn := n } := by
  obtain ⟨-, hgood⟩ | ⟨hbad, -⟩ := serveRead_cases s a
  · exact hgood
  · exact absurd ((badAccess_iff_target a).2 hbad) h

theorem step_goodRead {a : HostAccess} (hread : a.kind = .read) (hgood : ¬ Claims.BadAccess a) (s : State) (rest : List PortEvent) :
    ∃ w n, step (Claims.arriving s a rest) = .next { s.begin rest with reply := some w, drawn := n } := by
  obtain ⟨w, n, h⟩ := serveRead_of_not_badAccess hgood (s.begin rest)
  exact ⟨w, n, by rw [step_arriving, State.serve_of_read hread, h]⟩

/-! ### Reads of the control registers (20_memory R54) -/

/-- The word a control register reads, none for a target that is no control register. -/
def State.controlWord (s : State) : Target → Option Word32
  | .id => some Config.idWord
  | .version => some Config.versionWord
  | .caps => some capsWord
  | .ctrl => some s.ctrlWord
  | .status => some s.statusWord
  | .cmd => some s.cmd
  | .errInfo => some s.errInfo
  | .regWord _ _ => none
  | .unmapped => none

theorem serveRead_of_controlWord {a : HostAccess} {w : Word32} (h : s.controlWord a.target = some w) : s.serveRead a = s.answer w := by
  unfold State.serveRead
  cases ht : a.target <;> rw [ht] at h <;> cases h <;> rfl

theorem step_controlRead {off : Offset} {target : Target} {w : Word32} (haligned : off.toNat % 4 = 0) (htarget : targetOf off = target)
    (h : s.controlWord target = some w) (rest : List PortEvent) :
    step (Claims.arriving s ⟨.bits32, off, .read⟩ rest) = .next ((s.begin rest).answer w) := by
  rw [step_arriving, State.serve_read, serveRead_of_controlWord]
  rw [target_eq_targetOf haligned, htarget]
  exact h

theorem capsWord_eq : capsWord = 0x3452B610 := by decide

/-- IE is bit 0 of CTRL, the other bits read 0 (10_state R29). -/
theorem State.ctrlWord_eq_ofNat (s : State) : s.ctrlWord = BitVec.ofNat 32 s.ie.toNat := by
  unfold State.ctrlWord
  cases s.ie <;> decide

/-- The fields of STATUS at their places, the other bits read 0 (10_state R30). -/
theorem State.statusWord_eq_ofNat (s : State) :
    s.statusWord =
      BitVec.ofNat 32 (s.busy.toNat + 2 * s.done.toNat + 4 * s.err.toNat + 8 * s.tblv.toNat + 256 * s.errCode.bits.toNat) := by
  have hfields : ∀ (busy done err tblv : Bool) (code : BitVec 4),
      0#20 ++ code ++ 0#4 ++ BitVec.ofBool tblv ++ BitVec.ofBool err ++ BitVec.ofBool done ++ BitVec.ofBool busy =
        BitVec.ofNat 32 (busy.toNat + 2 * done.toNat + 4 * err.toNat + 8 * tblv.toNat + 256 * code.toNat) := by decide +kernel
  exact hfields ..

/-! ### The register window (20_memory R50) -/

theorem State.setRegWord_regs_self (s : State) (i : RegIdx) (t : Fin 8) (w : Word32) :
    (s.setRegWord i t w).regs[i] = ⟨setWordOf s.regs[i].value t w, s.regs[i].written ||| (1#8 <<< t.val)⟩ := by
  simp

theorem State.setRegWord_regs_ne (s : State) {i j : RegIdx} (h : j ≠ i) (t : Fin 8) (w : Word32) :
    (s.setRegWord i t w).regs[j] = s.regs[j] := by
  have : i.val ≠ j.val := fun e => h (Fin.ext e.symm)
  simp [Vector.getElem_set_ne, this]

/-- The word written holds what was written. -/
theorem State.setRegWord_word?_self (s : State) (i : RegIdx) (t : Fin 8) (w : Word32) :
    (s.setRegWord i t w).regs[i].word? t = some w := by
  rw [State.setRegWord_regs_self, Reg.word?_of_written (writtenBit_self _ t), wordOf_setWordOf_self]

theorem step_regWordWrite (hb : s.busy = false) (i : RegIdx) (t : Fin 8) (v : Word32) (rest : List PortEvent) :
    step (Claims.arriving s ⟨.bits32, regOffset i t, .write v⟩ rest) = .next ((s.begin rest).setRegWord i t v) := by
  rw [step_arriving, State.serve_write, serveWrite_regWord, State.writeRegWord, if_neg (by simp [hb])]

theorem step_regWordRead {i : RegIdx} {t : Fin 8} {v : Word32} (hb : s.busy = false) (h : s.regs[i].word? t = some v)
    (rest : List PortEvent) : step (Claims.arriving s ⟨.bits32, regOffset i t, .read⟩ rest) = .next ((s.begin rest).answer v) := by
  rw [step_arriving, State.serve_read, serveRead_regWord, State.readRegWord_of_word? (s := s.begin rest) hb h]

end Sys2Proof.Machine
end

section
/-!
CERTIFICATES. The statements of 20_memory: good reads, the control registers as read, and the words of the register window.
-/
namespace Sys2Proof.Machine

open Sys2Proof.Claims

/-- Settles O50: a good read answers a word, at the state with the access taken from the port. -/
theorem goodReadsHaveNoSideEffect : Obligations.GoodReadsHaveNoSideEffect := by
  intro s a rest hread hgood
  obtain ⟨w, n, h⟩ := step_goodRead hread hgood s rest
  exact ⟨_, w, h, nothingChanged_begin s rest, rfl, rfl⟩

/-- Settles O51: each control register's offset and word. -/
theorem controlRegistersRead : Obligations.ControlRegistersRead := by
  intro s rest word bit code
  have hword : ∀ {off : Offset} {w : Word32} (target : Target), off.toNat % 4 = 0 → targetOf off = target →
      s.controlWord target = some w → word off w :=
    fun _ haligned htarget h => ⟨_, step_controlRead haligned htarget h rest, rfl⟩
  have hbit : ∀ b : Bool, bit b = b.toNat := by decide
  have hcode : code = s.errCode.bits.toNat := by cases hc : s.errCode <;> simp only [code, hc] <;> rfl
  refine ⟨hword .id (by decide) (by decide) rfl, hword .version (by decide) (by decide) rfl, hword .caps (by decide) (by decide) ?caps,
    hword .ctrl (by decide) (by decide) ?ctrl, hword .status (by decide) (by decide) ?status,
    hword .cmd (by decide) (by decide) rfl, hword .errInfo (by decide) (by decide) rfl⟩
  case caps => exact congrArg some capsWord_eq
  case ctrl => rw [hbit, ← State.ctrlWord_eq_ofNat]; rfl
  case status => rw [hbit, hbit, hbit, hbit, hcode, ← State.statusWord_eq_ofNat]; rfl

/-- Settles O52: the write sets one word and its written bit, by the rules for the words of a register, and the word reads back. -/
theorem registerWindowWordsAreBigEndian : Obligations.RegisterWindowWordsAreBigEndian := by
  intro s i t v rest hb off
  let u := (s.begin rest).setRegWord i t v
  have hread : ∀ rest', ∃ x, step (arriving u ⟨.bits32, off, .read⟩ rest') = .next x ∧ x.reply = some v := fun rest' =>
    ⟨_, step_regWordRead (s := u) hb (State.setRegWord_word?_self ..) rest', rfl⟩
  refine ⟨u, step_regWordWrite hb i t v rest, ?_, ?_, fun j hj => State.setRegWord_regs_ne _ hj t v, fun t' ht => ?_,
    rfl, rfl, rfl, rfl, rfl, rfl, rfl, rfl, rfl, rfl, hread⟩
  · rw [State.setRegWord_regs_self]
    exact wordOf_setWordOf_self _ t v
  · rw [State.setRegWord_regs_self]
    exact writtenBit_self _ t
  · rw [State.setRegWord_regs_self]
    exact ⟨wordOf_setWordOf_ne _ ht v, writtenBit_ne _ ht⟩

end Sys2Proof.Machine
end

section
/-!
SUPPORT. Decode and encode against each other, both ways at once: the words decode accepts are the words of the well-formed commands.
-/
namespace Sys2Proof

/-- Acceptance of a word as a command, read off its row in one direction and off the command's row in the other (30_encoding R72, R74). -/
theorem decode_eq_accept_iff {w : Word32} {i : Instr} : decode w = .accept i ↔ encode i = w ∧ i.WellFormed := by
  constructor
  · intro h
    obtain ⟨row, hrow, hmask, rfl, hok⟩ := decode_accept h
    exact ⟨encode_read hrow hmask, (checkOperands_eq_accept_iff _).1 hok⟩
  · rintro ⟨rfl, hwf⟩
    rw [decode_encode_eq_checkOperands, (checkOperands_eq_accept_iff i).2 hwf]

end Sys2Proof
end

section
/-!
CERTIFICATES. The statements of 30_encoding: the round trip of decode and encode in both directions, and the spec's own command words.
-/
namespace Sys2Proof

/-- Settles O2: a well-formed command's word is accepted as that command. -/
theorem decodeOfEncodeIsTheCommand : Obligations.DecodeOfEncodeIsTheCommand :=
  fun _ hwf => decode_eq_accept_iff.2 ⟨rfl, hwf⟩

/-- Settles O3: acceptance gives the encoding and the operand checks. -/
theorem acceptedWordIsTheEncoding : Obligations.AcceptedWordIsTheEncoding :=
  fun _ _ h => decode_eq_accept_iff.1 h

/-- Settles O1: decode evaluated at the eight words. -/
theorem specWordsDecodeToTheirCommands : Obligations.SpecWordsDecodeToTheirCommands := by
  unfold Obligations.SpecWordsDecodeToTheirCommands
  decide

end Sys2Proof
end

section
/-!
SUPPORT. What the field commands make of their sources: the result of written canonical sources, no result where a precondition is broken, and
what the completed state then holds. Last, the values of the operations in the form the statements of 40_field give them.
-/
namespace Sys2Proof.Machine

variable {s : State} {i : Instr} {m : Modulus} {rd ra rb rc : RegIdx} {a b c : Elem}

/-! ### Results of good sources (40_field R82, R83, R92) -/

theorem SourceHolds.unaryResult (ha : SourceHolds s ra a) (hlt : a.toNat < modulus m) (op : Modulus → Elem → Elem) :
    unaryResult op m (s.source ra) = some (op m a) := by
  rw [Machine.unaryResult, ha.canonical? hlt, Option.map_some]

theorem SourceHolds.binaryResult (ha : SourceHolds s ra a) (hb : SourceHolds s rb b) (hla : a.toNat < modulus m)
    (hlb : b.toNat < modulus m) (op : Modulus → Elem → Elem → Elem) :
    binaryResult op m (s.source ra) (s.source rb) = some (op m a b) := by
  simp only [Machine.binaryResult, ha.canonical? hla, hb.canonical? hlb]

theorem SourceHolds.selectResult (ha : SourceHolds s ra a) (hb : SourceHolds s rb b) (hc : SourceHolds s rc c) :
    selectResult (s.source ra) (s.source rb) (s.source rc) = some (if c ≠ 0 then a else b) := by
  simp only [Machine.selectResult, ha.value?, hb.value?, hc.value?, ite_not]

/-! ### No result where a precondition is broken (40_field R82, R83, 42_inversion R115) -/

theorem unaryResult_eq_none {r : Reg} (h : r.canonical? m = none) (op : Modulus → Elem → Elem) : unaryResult op m r = none := by
  rw [unaryResult, h, Option.map_none]

theorem binaryResult_eq_none {q r : Reg} (h : q.canonical? m = none ∨ r.canonical? m = none) (op : Modulus → Elem → Elem → Elem) :
    binaryResult op m q r = none := by
  rw [← Option.not_isSome_iff_eq_none, binaryResult_isSome]
  rcases h with h | h <;> simp [h]

theorem inverseResult_eq_none {r : Reg} (h : r.canonical? m = none ∨ r.value = 0) : inverseResult m r = none := by
  rw [← Option.not_isSome_iff_eq_none, inverseResult_isSome, ← Reg.canonical?_isSome]
  rcases h with h | h <;> simp [h]

theorem selectResult_eq_none {p q r : Reg} (h : p.written ≠ allWritten ∨ q.written ≠ allWritten ∨ r.written ≠ allWritten) :
    selectResult p q r = none := by
  rw [← Option.not_isSome_iff_eq_none, selectResult_isSome]
  rcases h with h | h | h <;> simp [h]

/-! ### The completed state of a command with one destination register (40_field R81) -/

/-- A command that ends by writing a known result completes and holds it. -/
theorem exec_holds {ok : Bool} {o : Option Elem} (h : exec i s = finish ok (s.writeElem rd o)) (hok : ok = true) (ho : o = some c) :
    ∃ t, exec i s = .next t ∧ Holds t rd c := by
  subst hok ho
  exact ⟨_, h, holds_writeElem s rd c⟩

/-- A command that ends by writing UNSPEC completes and holds a free value (60_exceptions R149). -/
theorem exec_holdsUnspec {o : Option Elem} (h : exec i s = finish true (s.writeElem rd o)) (ho : o = none) :
    ∃ t, exec i s = .next t ∧ Claims.HoldsUnspec t rd ∧ Completed s t := by
  subst ho
  exact ⟨_, h, unspec_writeElem s rd, exec_next_completed h⟩

/-- A register holds one value. -/
theorem Holds.unique (ha : Holds s rd a) (hb : Holds s rd b) : a = b := congrArg Reg.value (ha.symm.trans hb)

/-! ### Values (40_field R88, R90, R93 to R95) -/

/-- The difference as an integer: the M added before the subtraction vanishes mod M. -/
theorem subm_toInt (ha : a.toNat < modulus m) (hb : b.toNat < modulus m) :
    ((subm m a b).toNat : Int) = ((a.toNat : Int) - (b.toNat : Int)) % (modulus m : Int) := by
  have hshift : ((a.toNat + modulus m - b.toNat : Nat) : Int) = ((a.toNat : Int) - (b.toNat : Int)) + (modulus m : Int) := by omega
  rw [subm_toNat ha hb, Int.natCast_emod, hshift, Int.add_emod_right]

theorem toMont_lt (m : Modulus) (a : Elem) : (toMont m a).toNat < modulus m := by
  rw [toMont_toNat]; exact Nat.mod_lt _ (modulus_pos m)

/-- Leaving the Montgomery domain is a Montgomery product with 1. -/
theorem fromMont_eq_mm_one (m : Modulus) (a : Elem) : fromMont m a = mm m a 1 :=
  BitVec.eq_of_toNat_eq (by rw [fromMont_toNat, mm_toNat, show (1 : Elem).toNat = 1 from rfl, Nat.mul_one])

theorem fromMont_lt (m : Modulus) (a : Elem) : (fromMont m a).toNat < modulus m := fromMont_eq_mm_one m a ▸ mm_lt m a 1

/-- c·R⁻¹ times R is c again (40_field R94). -/
theorem fromMont_mul_radix (ha : a.toNat < modulus m) : (fromMont m a).toNat * 2 ^ 256 % modulus m = a.toNat := by
  rw [fromMont_eq_mm_one, mm_mul_radix, show (1 : Elem).toNat = 1 from rfl, Nat.mul_one, Nat.mod_eq_of_lt ha]

/-- The conversions undo each other: both values are canonical, and they are one residue. -/
theorem fromMont_toMont (ha : a.toNat < modulus m) : fromMont m (toMont m a) = a := by
  have hres : ((fromMont m (toMont m a)).toNat : ZMod (modulus m)) = (a.toNat : ZMod (modulus m)) :=
    (fromMont_cast m _).trans (val_toMont m a)
  have hmod := (ZMod.natCast_eq_natCast_iff' _ _ _).1 hres
  rw [Nat.mod_eq_of_lt (fromMont_lt m _), Nat.mod_eq_of_lt ha] at hmod
  exact BitVec.eq_of_toNat_eq hmod

/-- Each hardwired constant is the number its definition gives (40_field R95). -/
theorem constant_eq_constValue : ∀ cid : Fin 16, cid.val ≤ 10 →
    constant cid.val = some (BitVec.ofNat 256 (Claims.constValue cid.val)) := by decide +kernel

theorem cidOk_iff (cid : Fin 16) : cidOk cid = true ↔ cid.val ≤ 10 := decide_eq_true_iff

end Sys2Proof.Machine
end

section
/-!
CERTIFICATES. The statements of 40_field: what each field command writes from good sources, and UNSPEC from the others.
-/
namespace Sys2Proof.Machine

open Sys2Proof.Claims

/-- Settles O6: the Montgomery product is canonical, and R times it is the plain product. -/
theorem fmulWritesTheMontgomeryProduct : Obligations.FmulWritesTheMontgomeryProduct := by
  intro m rd ra rb a b s ha hb hla hlb
  obtain ⟨t, hexec, hholds⟩ := exec_holds (exec_fmul m rd ra rb s) rfl (ha.binaryResult hb hla hlb mm)
  exact ⟨t, _, hexec, hholds, mm_lt m a b, mm_mul_radix m a b⟩

/-- Settles O7: one conditional correction reduces the sum. -/
theorem faddWritesTheModularSum : Obligations.FaddWritesTheModularSum := by
  intro m rd ra rb a b s ha hb hla hlb
  obtain ⟨t, hexec, hholds⟩ := exec_holds (exec_fadd m rd ra rb s) rfl (ha.binaryResult hb hla hlb addm)
  exact ⟨t, _, hexec, hholds, addm_toNat hla hlb⟩

/-- Settles O8: one conditional correction reduces the difference. -/
theorem fsubWritesTheModularDifference : Obligations.FsubWritesTheModularDifference := by
  intro m rd ra rb a b s ha hb hla hlb
  obtain ⟨t, hexec, hholds⟩ := exec_holds (exec_fsub m rd ra rb s) rfl (ha.binaryResult hb hla hlb subm)
  exact ⟨t, _, hexec, hholds, subm_toInt hla hlb⟩

/-- Settles O9: doubling undoes halving, since M is odd; the shift is the division by 2. -/
theorem fhlvWritesTheHalf : Obligations.FhlvWritesTheHalf := by
  intro m rd ra a s ha hla
  obtain ⟨t, hexec, hholds⟩ := exec_holds (exec_fhlv m rd ra s) rfl (ha.unaryResult hla halfm)
  refine ⟨t, _, hexec, hholds, halfm_lt hla, two_mul_halfm hla, ?_⟩
  rw [halfm_toNat hla, Nat.shiftRight_one, Nat.shiftRight_one]

/-- Settles O11: FTOM multiplies by R by its definition; FFRM's value is canonical, and R times it is the source. -/
theorem conversionsWriteTheirRepresentations : Obligations.ConversionsWriteTheirRepresentations := by
  intro m rd ra a s ha hla
  constructor
  · obtain ⟨t, hexec, hholds⟩ := exec_holds (exec_ftom m rd ra s) rfl (ha.unaryResult hla toMont)
    exact ⟨t, _, hexec, hholds, toMont_toNat m a⟩
  · obtain ⟨t, hexec, hholds⟩ := exec_holds (exec_ffrm m rd ra s) rfl (ha.unaryResult hla fromMont)
    exact ⟨t, _, hexec, hholds, fromMont_lt m a, fromMont_mul_radix hla⟩

/-- Settles O12: what FTOM wrote is the canonical x·R mod M, and converting it back gives x. -/
theorem ffrmUndoesFtom : Obligations.FfrmUndoesFtom := by
  intro m rd ra re x c s t u hlx hx hftom hc hu
  obtain ⟨t', hexec, hholds⟩ := exec_holds (exec_ftom m rd ra s) rfl (hx.unaryResult hlx toMont)
  obtain rfl : t = t' := by simpa [hftom] using hexec
  obtain rfl := hc.unique hholds
  exact exec_holds (exec_ffrm m re rd u) rfl
    ((hu.unaryResult (toMont_lt m x) fromMont).trans (congrArg some (fromMont_toMont hlx)))

/-- Settles O16: a broken precondition leaves no result, and no result is written as a free value. -/
theorem fieldPreconditionViolationsGiveUnspec : Obligations.FieldPreconditionViolationsGiveUnspec := by
  intro m rd ra rb rc s bad unspec
  have hnone : ∀ {r : RegIdx}, bad r → (s.source r).canonical? m = none := Reg.canonical?_eq_none
  refine ⟨fun h => ?_, fun h => ?_, fun h => ?_, fun h => ?_⟩
  · have hab := h.imp hnone hnone
    exact ⟨exec_holdsUnspec (exec_fmul m rd ra rb s) (binaryResult_eq_none hab mm),
      exec_holdsUnspec (exec_fadd m rd ra rb s) (binaryResult_eq_none hab addm),
      exec_holdsUnspec (exec_fsub m rd ra rb s) (binaryResult_eq_none hab subm)⟩
  · exact ⟨exec_holdsUnspec (exec_fhlv m rd ra s) (unaryResult_eq_none (hnone h) halfm),
      exec_holdsUnspec (exec_ftom m rd ra s) (unaryResult_eq_none (hnone h) toMont),
      exec_holdsUnspec (exec_ffrm m rd ra s) (unaryResult_eq_none (hnone h) fromMont)⟩
  · exact exec_holdsUnspec (exec_finv m rd ra s) (inverseResult_eq_none (h.imp_left hnone))
  · exact exec_holdsUnspec (exec_fsel rd ra rb rc s) (selectResult_eq_none h)

/-- Settles O10: the select has a result for every value of its written sources. -/
theorem fselWritesTheSelectedValue : Obligations.FselWritesTheSelectedValue :=
  fun rd ra rb rc _ _ _ s ha hb hc => exec_holds (exec_fsel rd ra rb rc s) rfl (ha.selectResult hb hc)

/-- Settles O14: an index in range is let through and has the constant of its definition. -/
theorem ldcWritesTheConstant : Obligations.LdcWritesTheConstant :=
  fun rd cid s h => exec_holds (exec_ldc rd cid s) ((cidOk_iff cid).2 h) (constant_eq_constValue cid h)

/-- Settles O15: NOP's meaning is the shared ending alone. -/
theorem nopOnlyCompletes : Obligations.NopOnlyCompletes :=
  fun s => (exec_nop s).trans (finish_true s)

end Sys2Proof.Machine
end

section
/-!
SUPPORT. What the point commands make of their sources: the result of written canonical sources, no result where a precondition is broken, and
what the completed state then holds.
-/
namespace Sys2Proof.Machine

open Sys2Proof.Claims

variable {s : State} {i : Instr} {ok : Bool} {rd ra rb : RegIdx} {q : Jac} {a : Aff}

/-! ### Bases in range (30_encoding R71) -/

@[simp] theorem jacBaseOk_iff (b : RegIdx) : jacBaseOk b = true ↔ b.val ≤ 13 := decide_eq_true_iff

@[simp] theorem affBaseOk_iff (b : RegIdx) : affBaseOk b = true ↔ b.val ≤ 14 := decide_eq_true_iff

/-! ### Results of good sources (41_point R100, R102, R107, R109, R110) -/

theorem State.jacSource_eq_some (h : SourceJac s ra q) : s.jacSource ra = some q := by
  obtain ⟨hx, hy, hz⟩ := h
  simp only [State.jacSource, hx.value?, hy.value?, hz.value?]

theorem State.affSource_eq_some (h : SourceAff s ra a) : s.affSource ra = some a := by
  obtain ⟨hx, hy⟩ := h
  simp only [State.affSource, hx.value?, hy.value?]

theorem pdblResult_eq_some (h : SourceJac s ra q) (hq : CanonicalJac q) : pdblResult (s.jacSource ra) = some (pdbl q) := by
  rw [State.jacSource_eq_some h]
  exact if_pos (q.isCanonical_iff.2 hq)

theorem paddResult_eq_some (hq : SourceJac s ra q) (ha : SourceAff s rb a) (hlq : CanonicalJac q) (hla : CanonicalAff a)
    (sign sel zero : Bool) : paddResult sign sel zero (s.jacSource ra) (s.affSource rb) = some (padd sign sel zero q a) := by
  rw [State.jacSource_eq_some hq, State.affSource_eq_some ha]
  exact if_pos (by rw [q.isCanonical_iff.2 hlq, a.isCanonical_iff.2 hla]; rfl)

theorem pj2aResult_eq_some (h : SourceJac s ra q) (hq : CanonicalJac q) (hz : q.z ≠ 0) :
    pj2aResult (s.jacSource ra) = some q.toAff := by
  rw [State.jacSource_eq_some h]
  exact if_pos (by rw [q.isCanonical_iff.2 hq, bne_iff_ne.2 hz]; rfl)

/-! ### No result where a precondition is broken (41_point R100, R109) -/

/-- A latched coordinate that a point command can compute with: written and canonical mod P (41_point R100). -/
def State.GoodCoordinate (s : State) (r : RegIdx) : Prop := (s.source r).written = allWritten ∧ (s.source r).value.toNat < modulus .p

theorem not_goodCoordinate_iff {r : RegIdx} :
    ¬ s.GoodCoordinate r ↔ (s.source r).written ≠ allWritten ∨ modulus .p ≤ (s.source r).value.toNat := by
  rw [State.GoodCoordinate, not_and_or, not_lt]

theorem State.jacGood_iff (b : RegIdx) :
    (s.jacWritten b && (s.jacValue b).isCanonical) = true ↔ ∀ r ∈ jacRegs b, s.GoodCoordinate r := by
  simp only [Bool.and_eq_true, jacWritten, jacValue, Reg.isWritten_iff, Jac.isCanonical_iff, Jac.Below, GoodCoordinate, jacRegs,
    List.forall_mem_cons]
  tauto

theorem State.affGood_iff (b : RegIdx) :
    (s.affWritten b && (s.affValue b).isCanonical) = true ↔ ∀ r ∈ affRegs b, s.GoodCoordinate r := by
  simp only [Bool.and_eq_true, affWritten, affValue, Reg.isWritten_iff, Aff.isCanonical_iff, Aff.Below, GoodCoordinate, affRegs,
    List.forall_mem_cons]
  tauto

theorem pdblResult_eq_none (h : ∃ r ∈ jacRegs ra, ¬ s.GoodCoordinate r) : pdblResult (s.jacSource ra) = none := by
  rw [← Option.not_isSome_iff_eq_none, pdblResult_isSome, State.jacGood_iff]
  intro hgood
  obtain ⟨r, hr, hbad⟩ := h
  exact hbad (hgood r hr)

theorem paddResult_eq_none (h : ∃ r ∈ jacRegs ra ++ affRegs rb, ¬ s.GoodCoordinate r) (sign sel zero : Bool) :
    paddResult sign sel zero (s.jacSource ra) (s.affSource rb) = none := by
  rw [← Option.not_isSome_iff_eq_none, paddResult_isSome]
  simp only [Bool.and_eq_true]
  rintro ⟨⟨⟨hjw, haw⟩, hjc⟩, hac⟩
  have hjac := (State.jacGood_iff ra).1 (Bool.and_eq_true_iff.2 ⟨hjw, hjc⟩)
  have haff := (State.affGood_iff rb).1 (Bool.and_eq_true_iff.2 ⟨haw, hac⟩)
  obtain ⟨r, hr, hbad⟩ := h
  exact hbad ((List.mem_append.1 hr).elim (hjac r) (haff r))

theorem pj2aResult_eq_none (h : (∃ r ∈ jacRegs ra, ¬ s.GoodCoordinate r) ∨ (s.source (ra + 2)).value = 0) :
    pj2aResult (s.jacSource ra) = none := by
  rw [← Option.not_isSome_iff_eq_none, pj2aResult_isSome, Bool.and_eq_true, State.jacGood_iff, bne_iff_ne]
  rintro ⟨hgood, hz⟩
  rcases h with ⟨r, hr, hbad⟩ | hzero
  · exact hbad (hgood r hr)
  · exact hz hzero

theorem State.affSource_eq_none (h : (s.source ra).written ≠ allWritten ∨ (s.source (ra + 1)).written ≠ allWritten) :
    s.affSource ra = none := by
  rw [State.affSource_eq, if_neg]
  rcases h with h | h <;> simp [State.affWritten, h]

/-! ### The completed state of a command with a point as its destination (10_state R23, R38) -/

/-- A command that ends by writing a known Jacobian point completes and holds it. -/
theorem exec_holdsJac {o : Option Jac} (h : exec i s = finish ok (s.writeJac rd o)) (hok : ok = true) (ho : o = some q) :
    ∃ t, exec i s = .next t ∧ HoldsJac t rd q := by
  subst hok ho
  exact ⟨_, h, holds_writeJac s rd q⟩

/-- A command that ends by writing a known affine point completes and holds it. -/
theorem exec_holdsAff {o : Option Aff} (h : exec i s = finish ok (s.writeAff rd o)) (hok : ok = true) (ho : o = some a) :
    ∃ t, exec i s = .next t ∧ HoldsAff t rd a := by
  subst hok ho
  exact ⟨_, h, holds_writeAff s rd a⟩

/-- A command that ends by writing a Jacobian UNSPEC completes and holds three free values (60_exceptions R149). -/
theorem exec_holdsUnspecJac {o : Option Jac} (h : exec i s = finish ok (s.writeJac rd o)) (hok : ok = true) (ho : o = none) :
    ∃ t, exec i s = .next t ∧ HoldsUnspec t rd ∧ HoldsUnspec t (rd + 1) ∧ HoldsUnspec t (rd + 2) ∧ Completed s t := by
  subst hok ho
  obtain ⟨hx, hy, hz⟩ := unspec_writeJac s rd
  exact ⟨_, h, hx, hy, hz, exec_next_completed h⟩

/-- A command that ends by writing an affine UNSPEC completes and holds two free values (60_exceptions R149). -/
theorem exec_holdsUnspecAff {o : Option Aff} (h : exec i s = finish ok (s.writeAff rd o)) (hok : ok = true) (ho : o = none) :
    ∃ t, exec i s = .next t ∧ HoldsUnspec t rd ∧ HoldsUnspec t (rd + 1) ∧ Completed s t := by
  subst hok ho
  obtain ⟨hx, hy⟩ := unspec_writeAff s rd
  exact ⟨_, h, hx, hy, exec_next_completed h⟩

/-- PDBL writes its function's value of a good source. -/
theorem exec_pdbl_holds (hrd : rd.val ≤ 13) (hra : ra.val ≤ 13) (h : SourceJac s ra q) (hq : CanonicalJac q) :
    ∃ t, exec (.pdbl rd ra) s = .next t ∧ HoldsJac t rd (pdbl q) :=
  exec_holdsJac (exec_pdbl rd ra s) (by simp [hrd, hra]) (pdblResult_eq_some h hq)

/-- PADD writes its function's value of good sources. -/
theorem exec_padd_holds (hrd : rd.val ≤ 13) (hra : ra.val ≤ 13) (hrb : rb.val ≤ 14) (hq : SourceJac s ra q) (ha : SourceAff s rb a)
    (hlq : CanonicalJac q) (hla : CanonicalAff a) (sign sel zero : Bool) :
    ∃ t, exec (.padd rd ra rb sign sel zero) s = .next t ∧ HoldsJac t rd (padd sign sel zero q a) :=
  exec_holdsJac (exec_padd rd ra rb sign sel zero s) (by simp [hrd, hra, hrb]) (paddResult_eq_some hq ha hlq hla sign sel zero)

end Sys2Proof.Machine
end

section
/-!
SUPPORT. The values of the point functions in the form the statements of 41_point give them: the selection of PADD, the exceptional inputs, and
the affine points that the results of PDBL and PADD represent.
-/
namespace Sys2Proof.Machine

open Sys2Proof.Claims

variable {q q1 : Jac} {q2 : Aff} {x y : ZMod (modulus .p)}

/-! ### Sign and selection (41_point R104, R106) -/

/-- ONEP is R mod P (40_field R95). -/
theorem onep_eq_ofNat : onep = BitVec.ofNat 256 (2 ^ 256 % modulus .p) :=
  Option.some.inj (constant_eq_constValue 4 (by decide))

/-- The sign-adjusted y is (P − y) mod P when sign = 1. -/
theorem signedY_eq {y : Elem} (h : y.toNat < modulus .p) (sign : Bool) :
    signedY sign y = if sign then BitVec.ofNat 256 ((modulus .p - y.toNat) % modulus .p) else y := by
  cases sign with
  | false => rfl
  | true =>
    refine BitVec.eq_of_toNat_eq ((subm_toNat zero_below h).trans ?_)
    rw [if_pos rfl, toNat_ofNat_of_lt (Nat.mod_lt _ (modulus_pos .p)), show (0 : Elem).toNat = 0 from rfl, Nat.zero_add]

@[simp] theorem padd_sel_false (sign zero : Bool) (q1 : Jac) (q2 : Aff) : padd sign false zero q1 q2 = q1 := rfl

@[simp] theorem padd_zero_false (sign : Bool) (q1 : Jac) (q2 : Aff) :
    padd sign true false q1 q2 = ⟨q2.x, signedY sign q2.y, onep⟩ := rfl

@[simp] theorem padd_sum (sign : Bool) (q1 : Jac) (q2 : Aff) :
    padd sign true true q1 q2 = paddSum q1 ⟨q2.x, signedY sign q2.y⟩ := rfl

/-! ### Exceptional inputs (41_point R107, R108) -/

/-- Equal x-coordinates make Z3 = Z1·H vanish. -/
theorem paddSum_z_eq_zero (h1 : q1.Below) (hx : val .p q2.x * val .p q1.z ^ 2 = val .p q1.x) : (paddSum q1 q2).z = 0 := by
  obtain ⟨-, -, hZ⟩ := val_paddSum h1 q2
  rw [hx, sub_self, mul_zero] at hZ
  exact (val_eq_zero_iff (paddSum_below q1 q2).2.2).1 hZ

/-- Where H and W both vanish, the formulas give (0, 0, 0). -/
theorem paddSum_eq_zero (h1 : q1.Below) (hx : val .p q2.x * val .p q1.z ^ 2 = val .p q1.x)
    (hy : val .p q2.y * val .p q1.z ^ 3 = val .p q1.y) : paddSum q1 q2 = ⟨0, 0, 0⟩ := by
  obtain ⟨hX, hY, -⟩ := val_paddSum h1 q2
  obtain ⟨hltX, hltY, -⟩ := paddSum_below q1 q2
  have hX0 : (paddSum q1 q2).x = 0 := (val_eq_zero_iff hltX).1 (by rw [hX, hx, hy]; ring)
  have hY0 : (paddSum q1 q2).y = 0 := (val_eq_zero_iff hltY).1 (by rw [hY, hx, hy]; ring)
  show (⟨(paddSum q1 q2).x, (paddSum q1 q2).y, (paddSum q1 q2).z⟩ : Jac) = ⟨0, 0, 0⟩
  rw [hX0, hY0, paddSum_z_eq_zero h1 hx]

/-- Adding to the uninitialized accumulator leaves it (41_point R107). -/
theorem paddSum_zero (a : Aff) : paddSum ⟨0, 0, 0⟩ a = ⟨0, 0, 0⟩ :=
  paddSum_eq_zero jacZero_below (by rw [val_zero]; ring) (by rw [val_zero]; ring)

/-- The coordinates of an affine point and of its Jacobian form agree, as Z = ONEP is the residue 1. -/
theorem val_toJac (a : Aff) :
    val .p a.x * val .p a.toJac.z ^ 2 = val .p a.toJac.x ∧ val .p a.y * val .p a.toJac.z ^ 3 = val .p a.toJac.y := by
  simp only [Aff.toJac, val_onep, one_pow, mul_one, and_self]

/-! ### Represented points (41_point R100, R111) -/

/-- Representation in the residues of the formulas. -/
theorem represents_iff :
    Represents q x y ↔ val .p q.z ≠ 0 ∧ x * val .p q.z ^ 2 = val .p q.x ∧ y * val .p q.z ^ 3 = val .p q.y := Iff.rfl

/-- A point with Z ≠ 0 represents (X/Z², Y/Z³). -/
theorem represents_div (hz : val .p q.z ≠ 0) :
    Represents q (val .p q.x * (val .p q.z ^ 2)⁻¹) (val .p q.y * (val .p q.z ^ 3)⁻¹) := by
  have := fact_prime .p
  exact ⟨hz, inv_mul_cancel_right₀ (pow_ne_zero 2 hz) _, inv_mul_cancel_right₀ (pow_ne_zero 3 hz) _⟩

/-- The doubling formulas double the represented point, unless its y is 0. -/
theorem pdbl_represents_tangentSum (hq : q.Below) (h : Represents q x y) (hy : y ≠ 0) :
    ∃ x3 y3, Represents (pdbl q) x3 y3 ∧ TangentSum x y x3 y3 := by
  have := fact_prime .p
  obtain ⟨hz, hxq, hyq⟩ := represents_iff.1 h
  obtain ⟨hX, hY, hZ⟩ := val_pdbl hq
  rw [← hxq, ← hyq] at hX hY
  rw [← hyq] at hZ
  have hz3 : val .p (pdbl q).z ≠ 0 := by
    rw [hZ]
    exact mul_ne_zero (mul_ne_zero two_ne_zero_p (mul_ne_zero hy (pow_ne_zero 3 hz))) hz
  exact ⟨_, _, represents_div hz3, mul_ne_zero two_ne_zero_p hy, Laws.double_is_tangent two_ne_zero_p hz hy hX hY hZ⟩

/-- The mixed-addition formulas add the represented point and one with another x-coordinate. -/
theorem paddSum_represents_chordSum (h1 : q1.Below) (h : Represents q1 x y) (hne : val .p q2.x ≠ x) :
    ∃ x3 y3, Represents (paddSum q1 q2) x3 y3 ∧ ChordSum x y (val .p q2.x) (val .p q2.y) x3 y3 := by
  have := fact_prime .p
  obtain ⟨hz, hxq, hyq⟩ := represents_iff.1 h
  obtain ⟨hX, hY, hZ⟩ := val_paddSum h1 q2
  rw [← hxq, ← hyq] at hX hY
  rw [← hxq] at hZ
  have hd : val .p q2.x - x ≠ 0 := sub_ne_zero.2 hne
  have hz3 : val .p (paddSum q1 q2).z ≠ 0 := by
    rw [hZ, ← sub_mul]
    exact mul_ne_zero hz (mul_ne_zero hd (pow_ne_zero 2 hz))
  exact ⟨_, _, represents_div hz3, hd, Laws.mixed_add_is_chord hz hd hX hY hZ⟩

end Sys2Proof.Machine
end

section
/-!
CERTIFICATES. The statements of 41_point: what each point command writes from good sources, the points its results represent, and UNSPEC from
the others.
-/
namespace Sys2Proof.Machine

open Sys2Proof.Claims

/-- Settles O19: the doubling sequence is canonical and has the residues of the formulas. -/
theorem pdblWritesTheJacobianDoubling : Obligations.PdblWritesTheJacobianDoubling := by
  intro rd ra q s hrd hra h hq
  obtain ⟨t, hexec, hholds⟩ := exec_pdbl_holds hrd hra h hq
  exact ⟨t, _, hexec, hholds, pdbl_below q, val_pdbl hq⟩

/-- Settles O20: the doubling formulas give the tangent's point. -/
theorem pdblDoublesThePoint : Obligations.PdblDoublesThePoint := by
  intro rd ra q x y s hrd hra h hq hrep hy
  obtain ⟨t, hexec, hholds⟩ := exec_pdbl_holds hrd hra h hq
  obtain ⟨x3, y3, hrep3, htangent⟩ := pdbl_represents_tangentSum hq hrep hy
  exact ⟨t, _, x3, y3, hexec, hholds, hrep3, htangent⟩

/-- Settles O21: one case of the selection per clause; the sum has the residues of the formulas. -/
theorem paddWritesTheSelectedPoint : Obligations.PaddWritesTheSelectedPoint := by
  intro rd ra rb sign sel zero q1 q2 s hrd hra hrb h1 h2 hq1 hq2
  obtain ⟨t, hexec, hholds⟩ := exec_padd_holds hrd hra hrb h1 h2 hq1 hq2 sign sel zero
  refine ⟨t, _, hexec, hholds, padd_below hq1 hq2 sign sel zero, ?_, ?_, ?_⟩
  · rintro rfl
    exact padd_sel_false sign zero q1 q2
  · rintro rfl rfl
    rw [padd_zero_false, signedY_eq hq2.2, onep_eq_ofNat]
  · rintro rfl rfl
    rw [padd_sum, signedY_eq hq2.2]
    exact val_paddSum hq1 _

/-- Settles O22: the mixed-addition formulas give the chord's sum with the sign-adjusted second point. -/
theorem paddAddsThePoints : Obligations.PaddAddsThePoints := by
  intro rd ra rb sign q1 q2 x1 y1 s hrd hra hrb h1 h2 hq1 hq2 hrep hne
  obtain ⟨t, hexec, hholds⟩ := exec_padd_holds hrd hra hrb h1 h2 hq1 hq2 sign true true
  obtain ⟨x3, y3, hrep3, hchord⟩ := paddSum_represents_chordSum (q2 := ⟨q2.x, signedY sign q2.y⟩) hq1 hrep hne
  rw [val_signedY hq2.2] at hchord
  exact ⟨t, _, x3, y3, hexec, hholds, hrep3, hchord⟩

/-- Settles O23: (0, 0, 0) makes every term of the formulas 0; equal points make H and W vanish, opposite ones H. -/
theorem exceptionalPointInputsGiveTheFormulaValues : Obligations.ExceptionalPointInputsGiveTheFormulaValues := by
  intro rd ra rb s hrd hra hrb
  refine ⟨fun h => ?_, fun sign q h h2 hq => ?_, fun q h h2 hq => ?_⟩
  · have hdbl : pdbl ⟨0, 0, 0⟩ = ⟨0, 0, 0⟩ := pdbl_zero
    exact hdbl ▸ exec_pdbl_holds hrd hra h jacZero_below
  · exact paddSum_zero ⟨q.x, signedY sign q.y⟩ ▸ exec_padd_holds hrd hra hrb h h2 jacZero_below hq sign true true
  · rw [← onep_eq_ofNat] at h
    have hbelow : q.toJac.Below := Aff.toJac_below hq
    obtain ⟨hx, hy⟩ := val_toJac q
    have hexec := exec_padd_holds hrd hra hrb (q := q.toJac) h h2 hbelow hq
    constructor
    · have hsum : paddSum q.toJac q = ⟨0, 0, 0⟩ := paddSum_eq_zero hbelow hx hy
      exact hsum ▸ hexec false true true
    · obtain ⟨t, hnext, hholds⟩ := hexec true true true
      exact ⟨t, _, hnext, hholds, paddSum_z_eq_zero hbelow hx⟩

/-- Settles O24: the inverse of Z ≠ 0 gives the affine point, canonical as every Montgomery product is. -/
theorem pj2aWritesTheAffinePoint : Obligations.Pj2aWritesTheAffinePoint := by
  intro rd ra q s hrd hra h hq hz
  obtain ⟨t, hexec, hholds⟩ := exec_holdsAff (exec_pj2a rd ra s) (by simp [hrd, hra]) (pj2aResult_eq_some h hq hz)
  have hval : val .p q.z ≠ 0 := mt (val_eq_zero_iff hq.2.2).1 hz
  exact ⟨t, _, hexec, hholds, toAff_below q, val_toAff hval⟩

/-- Settles O26: a broken precondition leaves no result, and no result is written as free values. -/
theorem pointPreconditionViolationsGiveUnspec : Obligations.PointPreconditionViolationsGiveUnspec := by
  intro rd ra rb sign sel zero s unwritten bad unspec3
  have hbad : ∀ {r : RegIdx}, bad r ↔ ¬ s.GoodCoordinate r := not_goodCoordinate_iff.symm
  refine ⟨fun hrd hra h => ?_, fun hrd hra hrb h => ?_, fun hrd hra h => ?_, fun hrd hra h => ?_⟩
  · exact exec_holdsUnspecJac (exec_pdbl rd ra s) (by simp [hrd, hra]) (pdblResult_eq_none (by simpa [jacRegs, hbad] using h))
  · exact exec_holdsUnspecJac (exec_padd rd ra rb sign sel zero s) (by simp [hrd, hra, hrb])
      (paddResult_eq_none (by simpa [jacRegs, affRegs, hbad] using h) sign sel zero)
  · exact exec_holdsUnspecJac (exec_pa2j rd ra s) (by simp [hrd, hra]) (by rw [State.affSource_eq_none h, Option.map_none])
  · exact exec_holdsUnspecAff (exec_pj2a rd ra s) (by simp [hrd, hra])
      (pj2aResult_eq_none (by simpa [jacRegs, hbad, or_assoc] using h))

/-- Settles O25: PA2J's result is its written source with Z = ONEP. -/
theorem pa2jMovesAndSetsZ : Obligations.Pa2jMovesAndSetsZ := by
  intro rd ra q s hrd hra h
  rw [← onep_eq_ofNat]
  exact exec_holdsJac (exec_pa2j rd ra s) (by simp [hrd, hra]) (by rw [State.affSource_eq_some h]; rfl)

end Sys2Proof.Machine
end

section
/-!
SUPPORT. FINV's function of a nonzero canonical value: its Montgomery product with the value is R mod M, and so its plain product is R² mod M
(42_inversion R113, R114).
-/
namespace Sys2Proof.Machine

variable {s : State} {m : Modulus} {ra : RegIdx} {a : Elem}

theorem SourceHolds.inverseResult (ha : SourceHolds s ra a) (hlt : a.toNat < modulus m) (hne : a ≠ 0) :
    inverseResult m (s.source ra) = some (minv m a) := by
  simp only [Machine.inverseResult, ha.canonical? hlt, if_neg hne]

/-- The Montgomery product of a value and its inverse is ONE_M: a canonical value whose residue is 1. -/
theorem mm_minv_toNat (hlt : a.toNat < modulus m) (hne : a ≠ 0) : (mm m (minv m a) a).toNat = 2 ^ 256 % modulus m := by
  have hval : val m (mm m (minv m a) a) = 1 := by rw [val_mm, val_minv (mt (val_eq_zero_iff hlt).1 hne)]
  have hcast : ((mm m (minv m a) a).toNat : ZMod (modulus m)) = ((2 ^ 256 : Nat) : ZMod (modulus m)) := by
    rw [← val_mul_radix, hval, one_mul, Nat.cast_pow, Nat.cast_ofNat]
  rw [← Nat.mod_eq_of_lt (mm_lt m (minv m a) a)]
  exact (ZMod.natCast_eq_natCast_iff' _ _ _).1 hcast

/-- The plain product is R times the Montgomery product. -/
theorem minv_mul_mod (hlt : a.toNat < modulus m) (hne : a ≠ 0) :
    (minv m a).toNat * a.toNat % modulus m = 2 ^ 512 % modulus m := by
  rw [← mm_mul_radix, mm_minv_toNat hlt hne, Nat.mod_mul_mod, Nat.pow_add 2 256 256]

end Sys2Proof.Machine
end

section
/-!
CERTIFICATES. The statement of 42_inversion: what FINV writes from a good source.
-/
namespace Sys2Proof.Machine

open Sys2Proof.Claims

/-- Settles O13: the inverse is canonical, and both its products with the source follow from its residue. -/
theorem finvWritesTheInverse : Obligations.FinvWritesTheInverse := by
  intro m rd ra a s ha hlt hne
  obtain ⟨t, hexec, hholds⟩ := exec_holds (exec_finv m rd ra s) rfl (ha.inverseResult hlt hne)
  exact ⟨t, _, hexec, hholds, minv_lt m a, minv_mul_mod hlt hne, mm_minv_toNat hlt hne⟩

end Sys2Proof.Machine
end

section
/-!
SUPPORT. The base-point table as a store: the scan of the lookup (43_table R126), the entry of a window in range (R121), and the table as every
access leaves it (R124).
-/
namespace Sys2Proof.Machine

open Sys2Proof.Claims

/-! ### The scanned lookup (43_table R126) -/

/-- What the scan for a magnitude makes of one numbered entry of the row. -/
def lookupStep (mag : Nat) (acc : Aff) (numbered : Aff × Nat) : Aff := if mag = numbered.2 + 1 then numbered.1 else acc

theorem ctLookup_eq (row : List Aff) (mag : Nat) : ctLookup row mag = row.zipIdx.foldl (lookupStep mag) ⟨0, 0⟩ := rfl

/-- Entries numbered from the magnitude on are not taken. -/
theorem foldl_lookupStep_of_le {mag : Nat} (row : List Aff) {k : Nat} (h : mag ≤ k) (acc : Aff) :
    (row.zipIdx k).foldl (lookupStep mag) acc = acc := by
  induction row generalizing k with
  | nil => rfl
  | cons q row ih =>
    rw [List.zipIdx_cons, List.foldl_cons, lookupStep, if_neg (by omega)]
    exact ih (by omega)

/-- Scanning a row numbered from `k`, magnitude `k + m + 1` takes entry `m` and no other. -/
theorem foldl_lookupStep_eq_getElem {row : List Aff} {m : Nat} (h : m < row.length) (k : Nat) (acc : Aff) :
    (row.zipIdx k).foldl (lookupStep (k + m + 1)) acc = row[m] := by
  induction row generalizing k m acc with
  | nil => cases h
  | cons q row ih =>
    rw [List.zipIdx_cons, List.foldl_cons]
    cases m with
    | zero => rw [foldl_lookupStep_of_le row (Nat.le_refl _), lookupStep, if_pos rfl, List.getElem_cons_zero]
    | succ m => rw [List.getElem_cons_succ, ← ih (Nat.lt_of_succ_lt_succ h) (k + 1), Nat.add_right_comm k 1 m, Nat.add_assoc k m 1]

/-! ### The entry of a window in range (43_table R121) -/

@[simp] theorem winOk_iff (win : Fin 64) : winOk win = true ↔ win.val ≤ 42 := decide_eq_true_iff

/-- Inside the table an entry is never the default of `entry`. -/
theorem tableEntry_baseTable {win : Fin 64} (ent : Fin 32) (h : win.val ≤ 42) :
    tableEntry baseTable win.val ent.val = some (entry win.val ent.val) := by
  have hsome := tableEntry_isSome (rd := 0) (win := win) ent (by simpa using h)
  obtain ⟨q, hq⟩ := Option.isSome_iff_exists.1 hsome
  rw [tableEntry] at hq
  rw [tableEntry, entry, List.getD_eq_getElem?_getD (l := baseTable.getD win.val []), hq, Option.getD_some]

/-- A command that needs the table finds the base-point table, stored or built (43_table R123). -/
theorem State.ensureTable_eq_baseTable {s : State} (h : s.tblv = true → s.tbl = baseTable) : s.ensureTable.tbl = baseTable := by
  rw [State.ensureTable_tbl]
  split
  · exact h ‹_›
  · rfl

/-- TBLRD writes the entry of its window to a state with the table ready, and completes. -/
theorem exec_tblrd_eq_next {rd : RegIdx} {win : Fin 64} {s : State} (ent : Fin 32) (hrd : rd.val ≤ 14) (hwin : win.val ≤ 42)
    (htable : s.tblv = true → s.tbl = baseTable) :
    exec (.tblrd rd win ent) s = .next (s.ensureTable.writeAff rd (some (entry win.val ent.val))).complete := by
  rw [exec_tblrd, State.ensureTable_eq_baseTable htable, tableEntry_baseTable ent hwin]
  exact finish_eq_next_iff.2 ⟨by simp [hrd, hwin], rfl⟩

/-! ### The table under any access (43_table R124) -/

theorem serveRead_tableKept (s : State) (a : HostAccess) : TableKept s (s.serveRead a) := (inFlightKept_serveRead s a).table

theorem serveWrite_tableKept (s : State) (a : HostAccess) (v : Word32) : TableKept s (s.serveWrite a v) := by
  obtain h | ⟨code, info, -, h⟩ | h | h | ⟨i, -, -, -, -, h⟩ | ⟨i, w, -, -, -, h⟩ := serveWrite_cases s a v <;> rw [h]
  · exact ⟨rfl, rfl⟩
  · exact (inFlightKept_raiseError s code info).table
  · exact ⟨rfl, rfl⟩
  · exact (inFlightKept_writeStatus s v).table
  · exact ⟨rfl, rfl⟩
  · exact ⟨rfl, rfl⟩

theorem serve_tableKept (s : State) (a : HostAccess) : TableKept s (s.serve a) := by
  unfold State.serve
  split
  · exact serveRead_tableKept s a
  · exact serveWrite_tableKept s a _

/-- A command leaves a valid table alone: it does not need it, or finds it built. -/
theorem CommandFrame.table_kept_of_valid {i : Instr} {s t : State} (h : CommandFrame i s t) (hv : s.tblv = true) : TableKept s t := by
  by_cases hn : needsTable i = true
  · obtain ⟨htblv, htbl⟩ := h.table_built hn
    exact ⟨htblv.trans hv.symm, htbl.trans (if_pos hv)⟩
  · exact h.table_kept hn

end Sys2Proof.Machine
end

section
/-!
CERTIFICATES. The statements of 43_table about the store, its commands and the lookup.
-/
namespace Sys2Proof.Machine

open Sys2Proof.Claims

/-- Settles O27: TBLB's meaning is the table made ready, then completion. -/
theorem tblbBuildsOnce : Obligations.TblbBuildsOnce := by
  intro s
  have hexec := exec_tblb s
  obtain ⟨htblv, htbl⟩ := (exec_next_frame hexec).table_built rfl
  exact ⟨_, hexec, exec_next_completed hexec, s.ensureTable_regs, s.ensureTable_drawn, htblv,
    fun h0 => htbl.trans (if_neg (by simp [h0])), fun h1 => htbl.trans (if_pos h1)⟩

/-- Settles O28: the entry of a window in range is read from the base-point table, stored or built. -/
theorem tblrdWritesTheEntry : Obligations.TblrdWritesTheEntry := by
  intro rd win ent s hrd hwin htable
  have hexec := exec_tblrd_eq_next ent hrd hwin htable
  obtain ⟨htblv, htbl⟩ := (exec_next_frame hexec).table_built rfl
  exact ⟨_, hexec, holds_writeAff s.ensureTable rd _, htblv,
    htbl.trans (s.ensureTable_tbl.symm.trans (State.ensureTable_eq_baseTable htable))⟩

/-- Settles O33: the scan takes the entry numbered one below the magnitude, and none for magnitude 0. -/
theorem ctLookupReturnsTheEntry : Obligations.CtLookupReturnsTheEntry := by
  refine fun row => ⟨?_, fun m h => ?_⟩
  · rw [ctLookup_eq, foldl_lookupStep_of_le row (Nat.le_refl 0)]
  · rw [ctLookup_eq, ← foldl_lookupStep_eq_getElem h 0, Nat.zero_add]

/-- Settles O57: by the cases of a step; no access writes the table, and no command a valid one. -/
theorem tableIsImmutableOnceValid : Obligations.TableIsImmutableOnceValid := by
  intro s t hs hv hnoReset
  obtain ⟨htblv, htbl⟩ : TableKept s t := by
    obtain ⟨a, rest, -, rfl⟩ | ⟨rest, -, ⟨-, rfl⟩ | ⟨l, i, -, -, he⟩⟩ | ⟨rest, hp, -⟩ := step_cases hs
    · exact serve_tableKept (s.begin rest) a
    · exact ⟨rfl, rfl⟩
    · exact (exec_next_frame he).table_kept_of_valid hv
    · exact absurd hp (hnoReset rest)
  exact ⟨htblv.trans hv, htbl⟩

end Sys2Proof.Machine
end

section
/-!
SUPPORT. The affine multiples of a point by the group law: where the formulas end with Z ≠ 0 they met no exceptional input, so a row of multiples
holds a tangent double and successive chord sums (44_scalar R134, 41_point R111).
-/
namespace Sys2Proof.Machine

open Sys2Proof.Claims

variable {q j : Jac} {a : Aff} {x y x' y' : ZMod (modulus .p)} {n e : Nat}

/-! ### The represented point is the affine form (41_point R100, R109) -/

theorem represents_toAff (hz : val .p q.z ≠ 0) : Represents q (val .p q.toAff.x) (val .p q.toAff.y) := ⟨hz, val_toAff hz⟩

theorem represents_toJac (a : Aff) : Represents a.toJac (val .p a.x) (val .p a.y) := by
  have := fact_prime .p
  have hz : val .p a.toJac.z ≠ 0 := by rw [Aff.toJac, val_onep]; exact one_ne_zero
  exact ⟨hz, val_toJac a⟩

theorem represents_unique (h : Represents q x y) (h' : Represents q x' y') : x = x' ∧ y = y' := by
  have := fact_prime .p
  obtain ⟨hz, hx, hy⟩ := h
  obtain ⟨-, hx', hy'⟩ := h'
  exact ⟨mul_right_cancel₀ (pow_ne_zero 2 hz) (hx.trans hx'.symm), mul_right_cancel₀ (pow_ne_zero 3 hz) (hy.trans hy'.symm)⟩

/-! ### Z ≠ 0 excludes the exceptional inputs (41_point R102, R107, R108) -/

/-- Z3 = 2·Y·Z. -/
theorem pdbl_z_ne_zero (hq : q.Below) (h : (pdbl q).z ≠ 0) : val .p q.y ≠ 0 ∧ val .p q.z ≠ 0 := by
  have := fact_prime .p
  obtain ⟨-, -, hZ⟩ := val_pdbl hq
  have hz3 := mt (val_eq_zero_iff (pdbl_below q).2.2).1 h
  rw [hZ] at hz3
  exact ⟨right_ne_zero_of_mul (left_ne_zero_of_mul hz3), right_ne_zero_of_mul hz3⟩

/-- A doubling that ends with Z ≠ 0 has the tangent's point as its affine form. -/
theorem pdbl_toAff_tangentSum (hq : q.Below) (h : Represents q x y) (hz : (pdbl q).z ≠ 0) :
    TangentSum x y (val .p (pdbl q).toAff.x) (val .p (pdbl q).toAff.y) := by
  have hy : y ≠ 0 := by
    rintro rfl
    obtain ⟨-, -, hy⟩ := h
    exact (pdbl_z_ne_zero hq hz).1 (hy.symm.trans (zero_mul _))
  obtain ⟨x3, y3, hrep, htangent⟩ := pdbl_represents_tangentSum hq h hy
  obtain ⟨rfl, rfl⟩ := represents_unique hrep (represents_toAff hrep.1)
  exact htangent

/-- A mixed addition that ends with Z ≠ 0 has the chord's sum as its affine form. -/
theorem paddSum_toAff_chordSum (hq : q.Below) (h : Represents q x y) (hz : (paddSum q a).z ≠ 0) :
    ChordSum x y (val .p a.x) (val .p a.y) (val .p (paddSum q a).toAff.x) (val .p (paddSum q a).toAff.y) := by
  have hne : val .p a.x ≠ x := by
    rintro rfl
    obtain ⟨-, hx, -⟩ := h
    exact hz (paddSum_z_eq_zero hq hx)
  obtain ⟨x3, y3, hrep, hchord⟩ := paddSum_represents_chordSum hq h hne
  obtain ⟨rfl, rfl⟩ := represents_unique hrep (represents_toAff hrep.1)
  exact hchord

/-! ### The multiples one by one (44_scalar R134) -/

theorem jacMultiples_length (n : Nat) (a : Aff) : (jacMultiples n a).length = n - 2 + 1 := by
  rw [jacMultiples_eq, List.length_cons, addChain_length]

theorem jacMultiples_getElem?_zero (n : Nat) (a : Aff) : (jacMultiples n a)[0]? = some (pdbl a.toJac) := by
  rw [jacMultiples_eq, List.getElem?_cons_zero]

/-- Each multiple after the double is the one before plus the point. -/
theorem jacMultiples_getElem?_succ (h : e + 2 < n) (hj : (jacMultiples n a)[e]? = some j) :
    (jacMultiples n a)[e + 1]? = some (paddSum j a) := by
  obtain ⟨k, rfl⟩ : ∃ k, n = k + 1 + 2 := ⟨n - 3, by omega⟩
  rw [jacMultiples_eq, Nat.add_sub_cancel] at hj ⊢
  rw [List.getElem?_cons_succ]
  cases e with
  | zero =>
    obtain rfl : pdbl a.toJac = j := Option.some.inj hj
    exact addChain_getElem?_zero a k _
  | succ e =>
    rw [List.getElem?_cons_succ] at hj
    rw [addChain_getElem?_succ a (k + 1) _ e (by omega), hj, Option.map_some]

theorem affMultiples_getD_zero (n : Nat) (a d : Aff) : (affMultiples n a).getD 0 d = a := by
  rw [affMultiples_eq, List.getD_cons_zero]

theorem affMultiples_getD_succ (hj : (jacMultiples n a)[e]? = some j) (d : Aff) : (affMultiples n a).getD (e + 1) d = j.toAff := by
  rw [affMultiples_eq, List.getD_cons_succ, List.getD_eq_getElem?_getD, List.getElem?_map, hj, Option.map_some, Option.getD_some]

/-- Entry 1 of a row of multiples is its entry 0 doubled, if no Z of the row is 0. -/
theorem affMultiples_tangentSum (ha : a.Below) (hz : ∀ j ∈ jacMultiples n a, j.z ≠ 0) (d : Aff) :
    TangentSum (val .p a.x) (val .p a.y) (val .p ((affMultiples n a).getD 1 d).x) (val .p ((affMultiples n a).getD 1 d).y) := by
  have hj := jacMultiples_getElem?_zero n a
  rw [affMultiples_getD_succ hj]
  exact pdbl_toAff_tangentSum (Aff.toJac_below ha) (represents_toJac a) (hz _ (List.mem_of_getElem? hj))

/-- Every later entry is the one before plus entry 0, if no Z of the row is 0. -/
theorem affMultiples_chordSum (hz : ∀ j ∈ jacMultiples n a, j.z ≠ 0) (he : 1 ≤ e) (hn : e + 1 < n) (d : Aff) :
    ChordSum (val .p ((affMultiples n a).getD e d).x) (val .p ((affMultiples n a).getD e d).y) (val .p a.x) (val .p a.y)
      (val .p ((affMultiples n a).getD (e + 1) d).x) (val .p ((affMultiples n a).getD (e + 1) d).y) := by
  obtain ⟨e, rfl⟩ := Nat.exists_eq_add_of_le' he
  obtain ⟨j, hj⟩ : ∃ j, (jacMultiples n a)[e]? = some j :=
    ⟨_, List.getElem?_eq_getElem (by rw [jacMultiples_length]; omega)⟩
  have hsum := jacMultiples_getElem?_succ hn hj
  rw [affMultiples_getD_succ hj, affMultiples_getD_succ hsum]
  have hmem := List.mem_of_getElem? hj
  have hbelow := jacMultiples_below a n j hmem
  have hrep := represents_toAff (mt (val_eq_zero_iff hbelow.2.2).1 (hz j hmem))
  exact paddSum_toAff_chordSum hbelow hrep (hz _ (List.mem_of_getElem? hsum))

end Sys2Proof.Machine
end

section
/-!
SUPPORT. The rows of the base-point table: row i is the row of multiples of its base, the generator doubled 6·i times; and no row's build meets
an exceptional input (43_table R118; log 9).
-/
namespace Sys2Proof.Machine

open Sys2Proof.Claims

variable {i : Nat}

/-- The first point of row `i`: 2^(6i)·G in affine form (43_table R118). -/
def rowBase (i : Nat) : Aff := (nextWeight 6)^[i] generator

theorem rowBase_zero : rowBase 0 = generator := rfl

theorem rowBase_succ (i : Nat) : rowBase (i + 1) = nextWeight 6 (rowBase i) := Function.iterate_succ_apply' ..

theorem rowBase_below : ∀ i, (rowBase i).Below
  | 0 => generator_below
  | i + 1 => rowBase_succ i ▸ nextWeight_below 6 _

theorem tableRows_eq_map (w n k : Nat) (a : Aff) : tableRows w n k a = (List.iterate (nextWeight w) a k).map (affMultiples n) := by
  induction k generalizing a with
  | zero => rfl
  | succ k ih => rw [tableRows_succ, ih, List.iterate, List.map_cons]

/-- Row `i` of the table is the row of multiples of its base. -/
theorem entry_eq_affMultiples (h : i < 43) (e : Nat) : entry i e = (affMultiples 32 (rowBase i)).getD e ⟨0, 0⟩ := by
  have hrow : baseTable[i]? = some (affMultiples 32 (rowBase i)) := by
    rw [baseTable, Config.nwG, tableRows_eq_map, List.getElem?_map, List.getElem?_iterate _ _ _ _ h]
    rfl
  rw [entry, List.getD_eq_getElem?_getD (l := baseTable), hrow, Option.getD_some]

/-- No doubling or addition in the build of the row of `a` and of the next row's base is exceptional, and five doublings come to the row's
last entry, 32·a. -/
abbrev RegularRow (a : Aff) : Prop :=
  (∀ j ∈ jacMultiples 32 a, j.z ≠ 0) ∧ (pdblN 6 a.toJac).z ≠ 0 ∧ (pdblN 5 a.toJac).toAff = (affMultiples 32 a).getD 31 ⟨0, 0⟩

/-- The build of the table, run row by row. -/
theorem regularRow_of_mem : ∀ a ∈ List.iterate (nextWeight 6) generator 43, RegularRow a := by decide +kernel

theorem regularRow_rowBase (h : i < 43) : RegularRow (rowBase i) := regularRow_of_mem _ (List.mem_iterate.2 ⟨i, h, rfl⟩)

/-- The generator's coordinates are those of G in Montgomery form (40_field R95). -/
theorem val_generator : val .p generator.x = (Config.gx : ZMod (modulus .p)) ∧ val .p generator.y = (Config.gy : ZMod (modulus .p)) := by
  have hx : generator.x = toMont .p (BitVec.ofNat 256 Config.gx) := by decide +kernel
  have hy : generator.y = toMont .p (BitVec.ofNat 256 Config.gy) := by decide +kernel
  rw [hx, hy, val_toMont, val_toMont]
  exact ⟨rfl, rfl⟩

/-- The next row's base is the last entry of a regular row doubled. -/
theorem nextWeight_tangentSum {a : Aff} (h : RegularRow a) :
    TangentSum (val .p ((affMultiples 32 a).getD 31 ⟨0, 0⟩).x) (val .p ((affMultiples 32 a).getD 31 ⟨0, 0⟩).y)
      (val .p (nextWeight 6 a).x) (val .p (nextWeight 6 a).y) := by
  obtain ⟨-, hz, hlast⟩ := h
  have hbelow : (pdblN 5 a.toJac).Below := pdblN_succ 4 _ ▸ pdbl_below _
  rw [← hlast, nextWeight, pdblN_succ]
  rw [pdblN_succ] at hz
  exact pdbl_toAff_tangentSum hbelow (represents_toAff (pdbl_z_ne_zero hbelow hz).2) hz

end Sys2Proof.Machine
end

section
/-!
CERTIFICATES. The statement of 43_table about the content of the base-point table.
-/
namespace Sys2Proof.Machine

open Sys2Proof.Claims

/-- Settles O30: every row is regular, so its entries and the next row's base follow by tangent and chord. -/
theorem baseTableHoldsTheMultiplesOfTheGenerator : Obligations.BaseTableHoldsTheMultiplesOfTheGenerator := by
  have hbase : ∀ {i}, i < 43 → entry i 0 = rowBase i := fun h => by rw [entry_eq_affMultiples h, affMultiples_getD_zero]
  refine ⟨?_, fun i hi => ?_, fun i hi e he hlast => ?_, fun i hi => ?_⟩
  · rw [hbase (by decide), rowBase_zero]
    exact val_generator
  · obtain ⟨hz, -, -⟩ := regularRow_rowBase hi
    rw [hbase hi, entry_eq_affMultiples hi]
    exact affMultiples_tangentSum (rowBase_below i) hz _
  · obtain ⟨hz, -, -⟩ := regularRow_rowBase hi
    rw [hbase hi, entry_eq_affMultiples hi, entry_eq_affMultiples hi]
    exact affMultiples_chordSum hz he (by omega) _
  · rw [hbase (by omega), rowBase_succ, entry_eq_affMultiples (by omega)]
    exact nextWeight_tangentSum (regularRow_rowBase (by omega))

end Sys2Proof.Machine
end

section
/-!
SUPPORT. Booth recoding: the digit of a window value, and the digits of a scalar as differences of its rounded quotients, so that their weighted
sum telescopes (44_scalar R127 to R129).
-/
namespace Sys2Proof.Machine

open Sys2Proof.Claims

variable {w u i j k' : Nat}

/-! ### The digit of a window value (44_scalar R127) -/

theorem div_two_pow_eq_one (h : 2 ^ w ≤ u) (hu : u < 2 ^ (w + 1)) : u / 2 ^ w = 1 :=
  Nat.div_eq_of_lt_le (by omega) (by omega)

/-- The bit u[w] of a window value. -/
theorem topBit_eq (hu : u < 2 ^ (w + 1)) : u / 2 ^ w % 2 = if 2 ^ w ≤ u then 1 else 0 := by
  split
  case isTrue h => rw [div_two_pow_eq_one h hu]
  case isFalse h => rw [Nat.div_eq_of_lt (Nat.lt_of_not_le h)]

theorem booth_of_lt (h : u < 2 ^ w) : booth w u = ⟨(u + 1) / 2, false⟩ := by
  rw [booth, Nat.div_eq_of_lt h, if_pos rfl]

theorem booth_of_le (h : 2 ^ w ≤ u) (hu : u < 2 ^ (w + 1)) : booth w u = ⟨(2 ^ (w + 1) - u) / 2, true⟩ := by
  rw [booth, div_two_pow_eq_one h hu, if_neg (by decide)]

/-- The digit is the rounded half of the window value, less 2^w if its top bit is set. -/
theorem digitValue_booth (hu : u < 2 ^ (w + 1)) :
    digitValue (booth w u) = ((u + 1) / 2 : Nat) - (if 2 ^ w ≤ u then 2 ^ w else 0) := by
  split
  case isTrue h =>
    have hcast : ((2 ^ w : Nat) : Int) = 2 ^ w := Nat.cast_pow 2 w
    rw [booth_of_le h hu, digitValue, if_pos rfl]
    dsimp only
    omega
  case isFalse h =>
    rw [booth_of_lt (Nat.lt_of_not_le h), digitValue, if_neg Bool.false_ne_true, Int.sub_zero]

theorem booth_mag_le (hw : 1 ≤ w) (hu : u < 2 ^ (w + 1)) : (booth w u).mag ≤ 2 ^ (w - 1) := by
  obtain ⟨w, rfl⟩ := Nat.exists_eq_add_of_le' hw
  rw [Nat.add_sub_cancel]
  by_cases h : 2 ^ (w + 1) ≤ u
  · rw [booth_of_le h hu]
    dsimp only
    omega
  · rw [booth_of_lt (by omega)]
    dsimp only
    omega

theorem booth_sign_iff (hu : u < 2 ^ (w + 1)) : (booth w u).sign = true ↔ 2 ^ w ≤ u := by
  by_cases h : 2 ^ w ≤ u
  · simp [booth_of_le h hu, h]
  · simp [booth_of_lt (Nat.lt_of_not_le h), h]

theorem window_lt (w i k' : Nat) : window w i k' < 2 ^ (w + 1) := Nat.mod_lt _ (Nat.two_pow_pos _)

theorem digitValue_booth_window (w i k' : Nat) : digitValue (booth w (window w i k')) = signedDigit w i k' :=
  digitValue_booth (window_lt w i k')

/-! ### Digits as differences of rounded quotients (44_scalar R129) -/

/-- k' / 2^(w·i) rounded to the nearest integer, halves upward: what the windows from `i` on stand for, in units of window `i`. -/
def roundedQuotient (w i k' : Nat) : Nat := (2 * k' / 2 ^ (w * i) + 1) / 2

theorem roundedQuotient_zero (w k' : Nat) : roundedQuotient w 0 k' = k' := by
  rw [roundedQuotient, Nat.mul_zero, Nat.pow_zero, Nat.div_one]
  omega

theorem roundedQuotient_eq_zero (h : 2 * k' < 2 ^ (w * i)) : roundedQuotient w i k' = 0 := by
  rw [roundedQuotient, Nat.div_eq_of_lt h]

/-- The top bit of a window is the rounding of the next one. -/
theorem signedDigit_eq_sub (w i k' : Nat) :
    signedDigit w i k' = roundedQuotient w i k' - 2 ^ w * (roundedQuotient w (i + 1) k' : Int) := by
  have hnext : 2 * k' / 2 ^ (w * (i + 1)) = 2 * k' / 2 ^ (w * i) / 2 ^ w := by rw [Nat.div_div_eq_div_mul, ← Nat.pow_add, Nat.mul_succ]
  simp only [roundedQuotient, hnext, signedDigit]
  generalize 2 * k' / 2 ^ (w * i) = q
  have hq : 2 ^ w * (2 * (q / 2 ^ (w + 1))) + q % 2 ^ (w + 1) = q := by
    rw [← Nat.mul_assoc, ← Nat.pow_succ, Nat.div_add_mod]
  have hu := Nat.mod_lt q (Nat.two_pow_pos (w + 1))
  generalize q / 2 ^ (w + 1) = h, q % 2 ^ (w + 1) = u at hq hu
  have hhalf : (q + 1) / 2 = 2 ^ w * h + (u + 1) / 2 := by rw [← hq, Nat.mul_left_comm]; omega
  have hdiv : q / 2 ^ w = 2 * h + u / 2 ^ w := by rw [← hq, Nat.mul_add_div (Nat.two_pow_pos w)]
  split
  case isTrue hle =>
    have hround : (q / 2 ^ w + 1) / 2 = h + 1 := by rw [hdiv, div_two_pow_eq_one hle hu]; omega
    rw [hround, hhalf]
    push_cast
    ring
  case isFalse hlt =>
    have hround : (q / 2 ^ w + 1) / 2 = h := by rw [hdiv, Nat.div_eq_of_lt (Nat.lt_of_not_le hlt)]; omega
    rw [hround, hhalf]
    push_cast
    ring

/-- The weighted digits of the first `n` windows telescope. -/
theorem sum_signedDigit (w n k' : Nat) :
    ((List.range n).map (fun i => signedDigit w i k' * 2 ^ (w * i))).sum = k' - 2 ^ (w * n) * (roundedQuotient w n k' : Int) := by
  induction n with
  | zero => rw [roundedQuotient_zero]; simp
  | succ n ih =>
    rw [List.range_succ, List.map_append, List.sum_append, ih, List.map_singleton, List.sum_singleton, signedDigit_eq_sub, Nat.mul_succ,
      pow_add]
    ring

theorem sum_signedDigit_eq_scalar {n : Nat} (h : 2 * k' < 2 ^ (w * n)) :
    ((List.range n).map (fun i => signedDigit w i k' * 2 ^ (w * i))).sum = k' := by
  rw [sum_signedDigit, roundedQuotient_eq_zero h, Nat.cast_zero, mul_zero, sub_zero]

/-- Up to the weight of a scalar j·2^(w·i) nothing is rounded. -/
theorem roundedQuotient_mul_two_pow (w l n j : Nat) : roundedQuotient w l (j * 2 ^ (w * (l + n))) = j * 2 ^ (w * n) := by
  have hsplit : 2 * (j * 2 ^ (w * (l + n))) = 2 * (j * 2 ^ (w * n)) * 2 ^ (w * l) := by rw [Nat.mul_add, Nat.pow_add]; ring
  rw [roundedQuotient, hsplit, Nat.mul_div_cancel _ (Nat.two_pow_pos _)]
  omega

/-- Above the weight of a scalar j·2^(w·i) with j below 2^(w−1) everything is rounded away. -/
theorem roundedQuotient_mul_two_pow_eq_zero {l : Nat} (hj : 2 * j < 2 ^ w) (h : i < l) : roundedQuotient w l (j * 2 ^ (w * i)) = 0 := by
  refine roundedQuotient_eq_zero ?_
  calc 2 * (j * 2 ^ (w * i)) = 2 * j * 2 ^ (w * i) := (Nat.mul_assoc ..).symm
    _ < 2 ^ w * 2 ^ (w * i) := Nat.mul_lt_mul_of_pos_right hj (Nat.two_pow_pos _)
    _ = 2 ^ (w * (i + 1)) := by rw [← Nat.pow_add, Nat.mul_succ, Nat.add_comm]
    _ ≤ 2 ^ (w * l) := Nat.pow_le_pow_right (by decide) (Nat.mul_le_mul_left w h)

/-- A scalar j·2^(w·i) with j below 2^(w−1) has the digit j at window `i` and no other (44_scalar R132). -/
theorem signedDigit_mul_two_pow (hj : 2 * j < 2 ^ w) (l : Nat) : signedDigit w l (j * 2 ^ (w * i)) = if l = i then (j : Int) else 0 := by
  rw [signedDigit_eq_sub]
  rcases Nat.lt_trichotomy l i with h | rfl | h
  · obtain ⟨n, rfl⟩ := Nat.exists_eq_add_of_lt h
    have hnext := roundedQuotient_mul_two_pow w (l + 1) n j
    rw [Nat.add_right_comm] at hnext
    rw [hnext, Nat.add_assoc, roundedQuotient_mul_two_pow, if_neg (by omega)]
    push_cast
    ring
  · have hat := roundedQuotient_mul_two_pow w l 0 j
    rw [Nat.add_zero, Nat.mul_zero, Nat.pow_zero, Nat.mul_one] at hat
    rw [hat, roundedQuotient_mul_two_pow_eq_zero hj (Nat.lt_succ_self l), if_pos rfl, Nat.cast_zero, mul_zero, sub_zero]
  · rw [roundedQuotient_mul_two_pow_eq_zero hj h, roundedQuotient_mul_two_pow_eq_zero hj (Nat.lt_succ_of_lt h), if_neg h.ne', Nat.cast_zero,
      mul_zero, sub_zero]

theorem signedDigit_of_zero (w l : Nat) : signedDigit w l 0 = 0 := by
  simpa using signedDigit_mul_two_pow (i := 0) (j := 0) (Nat.two_pow_pos w) l

/-! ### The reduced scalar (44_scalar R128) -/

theorem reduceScalar_eq_mod (k : Elem) : reduceScalar k = k.toNat % Config.n := by
  have hk := k.isLt
  have hn : 2 ^ 256 < 2 * Config.n := by decide
  rw [reduceScalar]
  split
  case isTrue h => rw [Nat.mod_eq_sub_mod h, Nat.mod_eq_of_lt (by omega)]
  case isFalse h => rw [Nat.mod_eq_of_lt (Nat.lt_of_not_le h)]

/-- Windows of any width that span more than 256 bits hold all of the doubled scalar. -/
theorem two_mul_reduced_lt (k : Elem) {m : Nat} (hm : 256 < m) : 2 * (k.toNat % Config.n) < 2 ^ m := by
  obtain ⟨n, rfl⟩ := Nat.exists_eq_add_of_lt hm
  have hlt : k.toNat % Config.n < 2 ^ (256 + n) := (Nat.mod_lt_of_lt k.isLt).trans_le (Nat.pow_le_pow_right (by decide) (Nat.le_add_right ..))
  rw [Nat.pow_succ']
  exact Nat.mul_lt_mul_of_pos_left hlt (by decide)

end Sys2Proof.Machine
end

section
/-!
SUPPORT. The accumulator of a scalar multiplication against the optional point of the statements: one PADD-step is one digit added, so the loops of
SMULG and SMULP have the values of their window products (44_scalar R130, R131, R135); and those products for scalars with at most one nonzero digit.
-/
namespace Sys2Proof.Machine

open Sys2Proof.Claims

variable {row t : List Aff}

/-! ### One digit (44_scalar R130) -/

/-- The accumulator that holds the point `o`, or none yet. -/
def Acc.ofOption : Option Jac → Acc
  | none => Acc.init
  | some j => ⟨j, true⟩

@[simp] theorem Acc.ofOption_none : Acc.ofOption none = Acc.init := rfl
@[simp] theorem Acc.ofOption_some (j : Jac) : Acc.ofOption (some j) = ⟨j, true⟩ := rfl

theorem Acc.ofOption_point (o : Option Jac) : (Acc.ofOption o).point = o.getD ⟨0, 0, 0⟩ := by cases o <;> rfl

/-- Doubling leaves the uninitialized accumulator as it is (44_scalar R135). -/
theorem Acc.ofOption_map_pdblN (k : Nat) (o : Option Jac) :
    Acc.ofOption (o.map (pdblN k)) = ⟨pdblN k (Acc.ofOption o).point, (Acc.ofOption o).zf⟩ := by
  cases o with
  | none => rw [Option.map_none, Acc.ofOption_none, Acc.init, pdblN_zero]
  | some j => rfl

theorem digitValue_natAbs (d : Digit) : (digitValue d).natAbs = d.mag := by
  unfold digitValue
  split <;> omega

theorem digitValue_eq_zero_iff (d : Digit) : digitValue d = 0 ↔ d.mag = 0 := by rw [← Int.natAbs_eq_zero, digitValue_natAbs]

theorem digitValue_neg_iff {d : Digit} (h : d.mag ≠ 0) : digitValue d < 0 ↔ d.sign = true := by
  unfold digitValue
  cases hs : d.sign
  · simp
  · simpa using Nat.pos_of_ne_zero h

theorem addDigit_zero (row : List Aff) (o : Option Jac) : addDigit row 0 o = o := if_pos rfl

/-- A row that every digit of magnitude up to `n` can be looked up in. -/
def RowFor (n : Nat) (row : List Aff) : Prop := n ≤ row.length ∧ ∀ a ∈ row, a.Below

/-- One PADD-step adds the digit's value: its table entry with the digit's sign is loaded or added, and the digit 0 changes nothing. -/
theorem digitStep_ofOption {d : Digit} (hrow : RowFor d.mag row) (o : Option Jac) :
    digitStep row d (Acc.ofOption o) = Acc.ofOption (addDigit row (digitValue d) o) := by
  by_cases hmag : d.mag = 0
  · rw [(digitValue_eq_zero_iff d).2 hmag, addDigit_zero, digitStep, hmag, bne_self_eq_false, padd_sel_false, Bool.or_false]
  · obtain ⟨hlen, hbelow⟩ := hrow
    have hlt : d.mag - 1 < row.length := by omega
    have hgetD : row.getD (d.mag - 1) ⟨0, 0⟩ = row[d.mag - 1] := List.getD_eq_getElem _ _ hlt
    have hentry : ctLookup row d.mag = row.getD (d.mag - 1) ⟨0, 0⟩ := by
      rw [hgetD, ← (ctLookupReturnsTheEntry row).2 _ hlt, Nat.sub_add_cancel (Nat.pos_of_ne_zero hmag)]
    have hy := signedY_eq (hbelow _ (hgetD ▸ List.getElem_mem hlt)).2 d.sign
    rw [digitStep, hentry, bne_iff_ne.2 hmag, Bool.or_true, addDigit, if_neg (mt (digitValue_eq_zero_iff d).1 hmag), digitValue_natAbs]
    simp only [digitValue_neg_iff hmag, ← hy]
    cases o with
    | none => rw [Acc.ofOption_none, Acc.init, padd_zero_false, onep_eq_ofNat]; rfl
    | some j => rw [Acc.ofOption_some, padd_sum]; rfl

/-- The PADD-step of a Booth window. -/
theorem digitStep_booth_window {w : Nat} (hw : 1 ≤ w) (hrow : RowFor (2 ^ (w - 1)) row) (i k' : Nat) (o : Option Jac) :
    digitStep row (booth w (window w i k')) (Acc.ofOption o) = Acc.ofOption (addDigit row (signedDigit w i k') o) := by
  obtain ⟨hlen, hbelow⟩ := hrow
  rw [digitStep_ofOption ⟨(booth_mag_le hw (window_lt w i k')).trans hlen, hbelow⟩, digitValue_booth_window]

/-! ### The loops (44_scalar R131, R135) -/

theorem rowFor_baseTable {i : Nat} (h : i < 43) : RowFor 32 (baseTable.getD i []) := by
  obtain ⟨hlen, hrows⟩ := baseTableIsCanonicalAndFull
  have hi : i < baseTable.length := hlen ▸ h
  obtain ⟨hrow, hcanonical⟩ := hrows _ (List.getElem_mem hi)
  rw [List.getD_eq_getElem _ _ hi]
  exact ⟨hrow.ge, hcanonical⟩

theorem rowFor_affMultiples {q : Aff} (h : q.Below) : RowFor 16 (affMultiples 16 q) :=
  ⟨(affMultiples_length (by decide) q).ge, affMultiples_below h 16⟩

theorem smulg_baseTable (k : Elem) : smulg baseTable k = tableProduct (k.toNat % Config.n) := by
  rw [← reduceScalar_eq_mod, smulg, tableProduct, ← Acc.ofOption_point]
  refine congrArg Acc.point (List.foldl_rel (r := fun acc o => acc = Acc.ofOption o) Acc.ofOption_none.symm ?_)
  rintro i hi _ o rfl
  exact digitStep_booth_window (by decide) (rowFor_baseTable (List.mem_range.1 hi)) i _ o

/-- Only the first window finds an accumulator that the loop does not double, and that one holds no point. -/
theorem smulpLoop_eq (ht : RowFor 16 t) (k : Elem) : smulpLoop t k = windowProduct t (k.toNat % Config.n) := by
  have hstep := digitStep_booth_window (w := 5) (by decide) ht
  have hrange : (List.range 52).reverse = 51 :: (List.range 51).reverse := rfl
  rw [← reduceScalar_eq_mod, smulpLoop, windowProduct, ← Acc.ofOption_point, Config.nwP, hrange, List.foldl_cons, List.foldl_cons]
  refine congrArg Acc.point (List.foldl_rel (r := fun acc o => acc = Acc.ofOption o) (hstep 51 (reduceScalar k) none) ?_)
  rintro i hi _ o rfl
  have hi : i < 51 := by simpa using hi
  rw [if_neg hi.ne, ← hstep, Acc.ofOption_map_pdblN]
  rfl

/-! ### Scalars with at most one nonzero digit (44_scalar R132, R136) -/

/-- A positive digit loads its entry as it is. -/
theorem addDigit_pos {j : Nat} (h : 1 ≤ j) (row : List Aff) :
    addDigit row j none = some ⟨(row.getD (j - 1) ⟨0, 0⟩).x, (row.getD (j - 1) ⟨0, 0⟩).y, BitVec.ofNat 256 (2 ^ 256 % modulus .p)⟩ := by
  have hne : (j : Int) ≠ 0 := by omega
  have hneg : ¬ (j : Int) < 0 := by omega
  simp only [addDigit, if_neg hne, if_neg hneg, Int.natAbs_natCast]

/-- Windows whose digits are all 0 but one leave what that one loads, once it has been passed. -/
theorem foldl_range_addDigit_single (rows : Nat → List Aff) {d : Nat → Int} {i : Nat} (hd : ∀ l ≠ i, d l = 0) (n : Nat) :
    (List.range n).foldl (fun acc l => addDigit (rows l) (d l) acc) none = if i < n then addDigit (rows i) (d i) none else none := by
  induction n with
  | zero => rfl
  | succ n ih =>
    rw [List.range_succ, List.foldl_append, ih, List.foldl_cons, List.foldl_nil]
    rcases Nat.lt_trichotomy i n with h | rfl | h
    · rw [hd n h.ne', addDigit_zero, if_pos h, if_pos (Nat.lt_succ_of_lt h)]
    · rw [if_neg (Nat.lt_irrefl i), if_pos (Nat.lt_succ_self i)]
    · rw [hd n h.ne, addDigit_zero, if_neg (by omega), if_neg (by omega)]

theorem tableProduct_zero : tableProduct 0 = ⟨0, 0, 0⟩ := by
  rw [tableProduct, List.foldl_fixed' (fun i => by rw [signedDigit_of_zero, addDigit_zero])]
  rfl

theorem tableProduct_mul_two_pow {i j : Nat} (hj : 1 ≤ j) (hj32 : j < 32) (hi : i < 43) :
    tableProduct (j * 2 ^ (6 * i)) = ⟨(entry i (j - 1)).x, (entry i (j - 1)).y, BitVec.ofNat 256 (2 ^ 256 % modulus .p)⟩ := by
  have hdigit : ∀ l, signedDigit 6 l (j * 2 ^ (6 * i)) = if l = i then (j : Int) else 0 := signedDigit_mul_two_pow (by omega)
  rw [tableProduct, foldl_range_addDigit_single (i := i) _ (fun l hl => by rw [hdigit, if_neg hl]), if_pos hi, hdigit, if_pos rfl,
    addDigit_pos hj]
  rfl

theorem windowProduct_zero (t : List Aff) : windowProduct t 0 = ⟨0, 0, 0⟩ := by
  rw [windowProduct, List.foldl_fixed' (fun i => by rw [signedDigit_of_zero, addDigit_zero, Option.map_none])]
  rfl

/-- The one digit of the scalar 1 is the last to be taken. -/
theorem windowProduct_one (t : List Aff) :
    windowProduct t 1 = ⟨(t.getD 0 ⟨0, 0⟩).x, (t.getD 0 ⟨0, 0⟩).y, BitVec.ofNat 256 (2 ^ 256 % modulus .p)⟩ := by
  have hdigit : ∀ l, signedDigit 5 l 1 = if l = 0 then 1 else 0 := signedDigit_mul_two_pow (i := 0) (j := 1) (by decide)
  have hskip : (List.range 51).reverse.foldl (fun acc l => addDigit t (signedDigit 5 l.succ 1) (acc.map (pdblN 5))) none = none :=
    List.foldl_fixed' (fun l => by rw [hdigit, if_neg l.succ_ne_zero, addDigit_zero, Option.map_none]) _
  rw [windowProduct, List.range_succ_eq_map, List.reverse_cons, List.foldl_append, ← List.map_reverse, List.foldl_map, hskip, List.foldl_cons,
    List.foldl_nil, hdigit, if_pos rfl, Option.map_none]
  exact congrArg (Option.getD · _) (addDigit_pos (Nat.le_refl 1) t)

end Sys2Proof.Machine
end

section
/-!
SUPPORT. SMULG and SMULP as commands: the state each completes in, from a table that is ready or not, and the scalars and points SMULP has no result
for (44_scalar R132, R136, R137).
-/
namespace Sys2Proof.Machine

open Sys2Proof.Claims

variable {s : State} {rd ra rb : RegIdx} {k : Elem} {q : Aff}

/-- SMULG makes the table ready, writes its result over the base-point table, and completes. -/
theorem exec_smulg_eq_next (hrd : rd.val ≤ 13) (htable : s.tblv = true → s.tbl = baseTable) (ra : RegIdx) :
    exec (.smulg rd ra) s = .next (s.ensureTable.writeJac rd (smulgResult baseTable (s.source ra))).complete := by
  rw [exec_smulg, State.ensureTable_eq_baseTable htable]
  exact finish_eq_next_iff.2 ⟨by simp [hrd], rfl⟩

/-- After SMULG the table is valid and is the base-point table. -/
theorem smulg_table_ready {t : State} (htable : s.tblv = true → s.tbl = baseTable) (h : exec (.smulg rd ra) s = .next t) :
    t.tblv = true ∧ t.tbl = baseTable := by
  obtain ⟨htblv, htbl⟩ := (exec_next_frame h).table_built rfl
  exact ⟨htblv, htbl.trans (s.ensureTable_tbl.symm.trans (State.ensureTable_eq_baseTable htable))⟩

/-- SMULG of a written scalar writes its table product. -/
theorem exec_smulg_holds (hrd : rd.val ≤ 13) (hk : SourceHolds s ra k) (htable : s.tblv = true → s.tbl = baseTable) :
    ∃ t, exec (.smulg rd ra) s = .next t ∧ HoldsJac t rd (tableProduct (k.toNat % Config.n)) := by
  refine ⟨_, exec_smulg_eq_next hrd htable ra, ?_⟩
  rw [hk.smulgResult, smulg_baseTable]
  exact holds_writeJac s.ensureTable rd _

/-! ### SMULP's result (44_scalar R134 to R137) -/

theorem smallTable_eq_some (h : ∀ j ∈ jacMultiples 16 q, j.z ≠ 0) : smallTable q = some (affMultiples 16 q) :=
  if_pos (List.all_eq_true.2 fun j hj => bne_iff_ne.2 (h j hj))

theorem smallTable_eq_none (h : ∃ j ∈ jacMultiples 16 q, j.z = 0) : smallTable q = none := by
  obtain ⟨j, hj, hz⟩ := h
  exact if_neg fun hall => absurd hz (bne_iff_ne.1 (List.all_eq_true.1 hall j hj))

theorem smulp_eq_some (hq : CanonicalAff q) (h : ∀ j ∈ jacMultiples 16 q, j.z ≠ 0) (k : Elem) :
    smulp k q = some (windowProduct (affMultiples 16 q) (k.toNat % Config.n)) := by
  rw [smulp, if_pos (q.isCanonical_iff.2 hq), smallTable_eq_some h, Option.map_some, smulpLoop_eq (rowFor_affMultiples hq)]

theorem smulp_eq_none (h : CanonicalAff q → ∃ j ∈ jacMultiples 16 q, j.z = 0) (k : Elem) : smulp k q = none := by
  rw [smulp]
  split
  case isTrue hq => rw [smallTable_eq_none (h (q.isCanonical_iff.1 hq)), Option.map_none]
  case isFalse => rfl

theorem sourceHolds_of_isWritten {r : RegIdx} (h : (s.source r).isWritten = true) : SourceHolds s r (s.source r).value := by
  rw [SourceHolds, ← (Reg.isWritten_iff _).1 h]

theorem State.sourceAff_of_affSource (h : s.affSource rb = some q) : SourceAff s rb q := by
  rw [State.affSource_eq, Option.ite_none_right_eq_some] at h
  obtain ⟨hwritten, hq⟩ := h
  obtain ⟨hx, hy⟩ := Bool.and_eq_true_iff.1 hwritten
  obtain rfl := Option.some.inj hq
  exact ⟨sourceHolds_of_isWritten hx, sourceHolds_of_isWritten hy⟩

theorem smulpResult_some (r : Reg) (q : Aff) : smulpResult r (some q) = r.value?.bind (smulp · q) := by
  unfold smulpResult
  cases r.value? <;> rfl

/-- SMULP of an unwritten scalar, or of a point that is unwritten, not canonical or without a small table, has no result. -/
theorem smulpResult_eq_none
    (h : (s.source ra).written ≠ allWritten ∨ ∀ q, SourceAff s rb q → CanonicalAff q → ∃ j ∈ jacMultiples 16 q, j.z = 0) :
    smulpResult (s.source ra) (s.affSource rb) = none := by
  rcases h with hscalar | hpoint
  · exact smulpResult_eq_none_of_scalar hscalar _
  · cases haff : s.affSource rb with
    | none => exact smulpResult_none _
    | some q =>
      rw [smulpResult_some, Option.bind_eq_none_iff]
      exact fun k _ => smulp_eq_none (hpoint q (State.sourceAff_of_affSource haff)) k

/-- SMULP of a written scalar and a written canonical point with a small table writes the window product over it. -/
theorem exec_smulp_holds (hrd : rd.val ≤ 13) (hrb : rb.val ≤ 14) (hk : SourceHolds s ra k) (hq : SourceAff s rb q) (hcanonical : CanonicalAff q)
    (hz : ∀ j ∈ jacMultiples 16 q, j.z ≠ 0) :
    ∃ t, exec (.smulp rd ra rb) s = .next t ∧ HoldsJac t rd (windowProduct (affMultiples 16 q) (k.toNat % Config.n)) :=
  exec_holdsJac (exec_smulp rd ra rb s) (by simp [hrd, hrb])
    (by rw [State.affSource_eq_some hq, hk.smulpResult, smulp_eq_some hcanonical hz])

end Sys2Proof.Machine
end

section
/-!
CERTIFICATES. The statements of 44_scalar: the digits, what SMULG and SMULP write, and the small table.
-/
namespace Sys2Proof.Machine

open Sys2Proof.Claims

/-- Settles O31: the digit by the top bit of the window value. -/
theorem boothDigitIsTheSignedDigit : Obligations.BoothDigitIsTheSignedDigit := by
  intro w u hw hu
  rw [digitValue_booth hu, booth_sign_iff hu, topBit_eq hu]
  refine ⟨?_, booth_mag_le hw hu, ?_⟩
  · split <;> simp
  · split <;> simp [*]

/-- Settles O32: the digits telescope, and nothing is left above the last window of either width. -/
theorem boothDigitsSumToTheScalar : Obligations.BoothDigitsSumToTheScalar := by
  intro k
  simp only [digitValue_booth_window, reduceScalar_eq_mod]
  exact ⟨trivial, sum_signedDigit_eq_scalar (two_mul_reduced_lt k (by decide)), sum_signedDigit_eq_scalar (two_mul_reduced_lt k (by decide))⟩

/-- Settles O34: SMULG's result over the table made ready. -/
theorem smulgWritesTheTableProduct : Obligations.SmulgWritesTheTableProduct := by
  intro rd ra k s hrd hk htable
  obtain ⟨t, hexec, hholds⟩ := exec_smulg_holds hrd hk htable
  exact ⟨t, hexec, hholds, smulg_table_ready htable hexec⟩

/-- Settles O35: no digit, or one digit, of the table product; and no result of an unwritten scalar. -/
theorem smulgOnSpecialScalars : Obligations.SmulgOnSpecialScalars := by
  intro rd ra s hrd htable
  refine ⟨fun k hk hzero => ?_, fun k i j hk hj hj32 hlt hscalar => ?_, fun hunwritten => ?_⟩
  · rw [← tableProduct_zero, ← hzero]
    exact exec_smulg_holds hrd hk htable
  · have hpow : 2 ^ (6 * i) < 2 ^ 256 := (Nat.le_mul_of_pos_left _ hj).trans_lt (hlt.trans (by decide))
    have hwindow : 6 * i < 256 := (Nat.pow_lt_pow_iff_right (by decide)).1 hpow
    have hreduced : k.toNat % Config.n = j * 2 ^ (6 * i) := by rw [hscalar, Nat.mod_eq_of_lt hlt]
    rw [← tableProduct_mul_two_pow hj hj32 (by omega), ← hreduced]
    exact exec_smulg_holds hrd hk htable
  · have hexec := exec_smulg_eq_next hrd htable ra
    rw [smulgResult_eq_none hunwritten] at hexec
    obtain ⟨hx, hy, hz⟩ := unspec_writeJac s.ensureTable rd
    exact ⟨_, hexec, hx, hy, hz, exec_next_completed hexec, smulg_table_ready htable hexec⟩

/-- Settles O36: SMULP's result is its window product, or none. -/
theorem smulpWritesTheProductOrUnspec : Obligations.SmulpWritesTheProductOrUnspec := by
  intro rd ra rb s hrd hrb
  exact ⟨fun k q hk hq hcanonical hz => exec_smulp_holds hrd hrb hk hq hcanonical hz,
    fun h => exec_holdsUnspecJac (exec_smulp rd ra rb s) (by simp [hrd, hrb]) (smulpResult_eq_none h)⟩

/-- Settles O37: the length and the entries of a row of multiples. -/
theorem smallTableHoldsTheMultiples : Obligations.SmallTableHoldsTheMultiples := by
  intro q n hn hq hz
  exact ⟨affMultiples_length hn q, affMultiples_getD_zero n q _, affMultiples_tangentSum hq hz _,
    fun e he hlast => affMultiples_chordSum hz he hlast _⟩

/-- Settles O38: the window products of 0 and 1 over the small table, whose entry 0 is the point. -/
theorem smulpOnZeroAndOne : Obligations.SmulpOnZeroAndOne := by
  intro rd ra rb k q s hrd hrb hk hq hcanonical hz
  have hexec := exec_smulp_holds hrd hrb hk hq hcanonical hz
  constructor
  · intro hzero
    rwa [hzero, windowProduct_zero] at hexec
  · intro hone
    rwa [hone, windowProduct_one, affMultiples_getD_zero] at hexec

end Sys2Proof.Machine
end

section
/-!
SUPPORT. Commands and steps that go on: a command completes exactly when it is well-formed, with its destinations written, and the engine's turn
answers a next state from every state of the invariant.
-/
namespace Sys2Proof.Machine

variable {s : State} {i : Instr}

/-- A meaning's operand check is well-formedness, and the state it completes has every destination written (10_state R25). -/
theorem exec_eq_finish_wellFormed (i : Instr) (s : State) :
    ∃ u, exec i s = finish i.wellFormed u ∧ ∀ r ∈ destinations i, (u.regs[r]).written = allWritten := by
  have hone : ∀ (t : State) (rd : RegIdx) (o : Option Elem), ∀ r ∈ [rd], ((t.writeElem rd o).regs[r]).written = allWritten :=
    fun t rd o r hr => List.eq_of_mem_singleton hr ▸ written_writeElem t rd o
  cases i with
  | nop => exact ⟨_, exec_nop .., nofun⟩
  | fmul => exact ⟨_, exec_fmul .., hone _ _ _⟩
  | fadd => exact ⟨_, exec_fadd .., hone _ _ _⟩
  | fsub => exact ⟨_, exec_fsub .., hone _ _ _⟩
  | fhlv => exact ⟨_, exec_fhlv .., hone _ _ _⟩
  | fsel => exact ⟨_, exec_fsel .., hone _ _ _⟩
  | ftom => exact ⟨_, exec_ftom .., hone _ _ _⟩
  | ffrm => exact ⟨_, exec_ffrm .., hone _ _ _⟩
  | finv => exact ⟨_, exec_finv .., hone _ _ _⟩
  | ldc => exact ⟨_, exec_ldc .., hone _ _ _⟩
  | pdbl => exact ⟨_, exec_pdbl .., written_writeJac _ _ _⟩
  | padd => exact ⟨_, exec_padd .., written_writeJac _ _ _⟩
  | pj2a => exact ⟨_, exec_pj2a .., written_writeAff _ _ _⟩
  | pa2j => exact ⟨_, exec_pa2j .., written_writeJac _ _ _⟩
  | tblb => exact ⟨_, exec_tblb .., nofun⟩
  | tblrd => exact ⟨_, exec_tblrd .., written_writeAff _ _ _⟩
  | smulg => exact ⟨_, exec_smulg .., written_writeJac _ _ _⟩
  | smulp => exact ⟨_, exec_smulp .., written_writeJac _ _ _⟩

theorem exec_next_of_wellFormed (h : i.WellFormed) (s : State) :
    ∃ t, exec i s = .next t ∧ ∀ r ∈ destinations i, (t.regs[r]).written = allWritten := by
  obtain ⟨u, hexec, hwritten⟩ := exec_eq_finish_wellFormed i s
  exact ⟨u.complete, hexec.trans (finish_of_ok h u), hwritten⟩

theorem exec_fault_of_not_wellFormed (h : ¬ i.WellFormed) (s : State) : exec i s = .fault .operandOutOfRange := by
  obtain ⟨u, hexec, -⟩ := exec_eq_finish_wellFormed i s
  rw [hexec, finish, if_neg h]

theorem completeInFlight_of_no_latch (h : s.latch = none) : completeInFlight s = .next s := by
  unfold completeInFlight
  rw [h]

/-- The engine's turn goes on: the latch is empty, or holds an accepted word, which is that of a well-formed command. -/
theorem State.Inv.completeInFlight_next (h : s.Inv) : ∃ t, completeInFlight s = .next t := by
  cases hl : s.latch with
  | none => exact ⟨s, completeInFlight_of_no_latch hl⟩
  | some l =>
    obtain ⟨-, i, hd, -⟩ := h.latch_command l hl
    obtain ⟨t, hexec, -⟩ := exec_next_of_wellFormed (decode_eq_accept_iff.1 hd).2 s
    exact ⟨t, (completeInFlight_of_latch hl hd).trans hexec⟩

theorem step_of_port_nil (h : s.port = []) : step s = completeInFlight (s.begin []) := by
  unfold step advance
  rw [h]

theorem step_of_port_cons {e : PortEvent} {rest : List PortEvent} (h : s.port = e :: rest) : step s = move e (s.begin rest) := by
  unfold step advance
  rw [h]

theorem State.Inv.move_next (h : s.Inv) (e : PortEvent) : ∃ t, move e s = .next t := by
  cases e with
  | access a => exact ⟨s.serve a, rfl⟩
  | complete => exact h.completeInFlight_next
  | reset => exact ⟨s.resetInput, rfl⟩

end Sys2Proof.Machine
end

section
/-!
SUPPORT. The error record: what `raise Error` and a bad access do to the state, what is dropped while BUSY = 1, and that the first error is kept.
-/
namespace Sys2Proof.Machine

open Sys2Proof.Claims

variable {s t : State}

/-! ### Raising an error (60_exceptions R145) -/

theorem onlyError_raiseError (s : State) (code : ErrCode) (info : Word32) : OnlyError code info s (s.raiseError code info) := by
  refine ⟨s.raiseError_err code info, fun h => ?_, fun h => ?_, by simp⟩
  · rw [State.raiseError_of_no_err h]
    exact ⟨rfl, rfl⟩
  · rw [State.raiseError_of_err h]
    exact ⟨rfl, rfl⟩

/-- Raising an error never records another error's code. -/
theorem State.raiseError_errCode_ne {code c : ErrCode} (hne : code ≠ c) {info : Word32} (h : (s.raiseError code info).errCode = c) :
    s.errCode = c := by
  obtain ⟨-, hfirst, hkept, -⟩ := onlyError_raiseError s code info
  cases he : s.err with
  | true => exact (hkept he).1.symm.trans h
  | false => exact absurd ((hfirst he).1.symm.trans h) hne

/-! ### The offset as error information (10_state R35) -/

theorem offsetInfo_eq_ofNat (off : Offset) : offsetInfo off = BitVec.ofNat 32 off.toNat := (BitVec.ofNat_toNat 32 off).symm

theorem regOffset_toNat (i : RegIdx) (t : Fin 8) : (regOffset i t).toNat = 0x100 + 32 * i.val + 4 * t.val := by
  rw [regOffset, BitVec.toNat_ofNat]
  omega

/-! ### Bad accesses (60_exceptions R147) -/

theorem serveRead_of_badAccess {a : HostAccess} (h : BadAccess a) (s : State) :
    s.serveRead a = (s.raiseError .badAcc (offsetInfo a.off)).answer 0 := by
  unfold State.serveRead
  rw [(badAccess_iff_target a).1 h]

theorem serveWrite_of_badAccess {a : HostAccess} (h : BadAccess a) (s : State) (v : Word32) :
    s.serveWrite a v = s.raiseError .badAcc (offsetInfo a.off) := by
  unfold State.serveWrite
  rw [(badAccess_iff_target a).1 h]

theorem onlyError_serve_of_badAccess {a : HostAccess} (h : BadAccess a) (s : State) :
    OnlyError .badAcc (offsetInfo a.off) s (s.serve a) ∧ (a.kind = .read → (s.serve a).reply = some 0) ∧ (s.serve a).port = s.port := by
  have hraise := onlyError_raiseError s .badAcc (offsetInfo a.off)
  obtain ⟨width, off, kind⟩ := a
  cases kind with
  | read =>
    rw [State.serve_read, serveRead_of_badAccess h]
    exact ⟨hraise, fun _ => rfl, s.raiseError_port ..⟩
  | write v =>
    rw [State.serve_write, serveWrite_of_badAccess h]
    exact ⟨hraise, nofun, s.raiseError_port ..⟩

/-- A read records no error but BADACC. -/
theorem serveRead_errCode_ne {a : HostAccess} {c : ErrCode} (hne : .badAcc ≠ c) (h : (s.serveRead a).errCode = c) : s.errCode = c := by
  obtain ⟨-, w, n, hgood⟩ | ⟨-, hbad⟩ := serveRead_cases s a
  · rwa [hgood] at h
  · rw [hbad] at h
    exact State.raiseError_errCode_ne hne h

/-! ### The register window while BUSY = 1 (20_memory R51, 60_exceptions R146) -/

theorem step_regWordWrite_of_busy (hb : s.busy = true) (i : RegIdx) (t : Fin 8) (v : Word32) (rest : List PortEvent) :
    step (arriving s ⟨.bits32, regOffset i t, .write v⟩ rest) =
      .next ((s.begin rest).raiseError .busy (offsetInfo (regOffset i t))) := by
  rw [step_arriving, State.serve_write, serveWrite_regWord, State.writeRegWord, if_pos (c := (s.begin rest).busy = true) hb]

theorem step_regWordRead_of_busy (hb : s.busy = true) (i : RegIdx) (t : Fin 8) (rest : List PortEvent) :
    step (arriving s ⟨.bits32, regOffset i t, .read⟩ rest) = .next ((s.begin rest).answer 0) := by
  rw [step_arriving, State.serve_read, serveRead_regWord, State.readRegWord, if_pos (c := (s.begin rest).busy = true) hb]

/-! ### The first error (60_exceptions R145) -/

/-- The error recorded first still stands, unless the record was cleared. -/
def FirstErrorKept (s t : State) : Prop := t.err = true → t.errCode = s.errCode ∧ t.errInfo = s.errInfo

theorem firstErrorKept_raiseError (h : s.err = true) (code : ErrCode) (info : Word32) : FirstErrorKept s (s.raiseError code info) := by
  rw [State.raiseError_of_err h]
  exact fun _ => ⟨rfl, rfl⟩

/-- A STATUS write leaves ERR = 1 only by not naming it, and then keeps the record (10_state R30). -/
theorem firstErrorKept_writeStatus (s : State) (v : Word32) : FirstErrorKept s (s.writeStatus v) := by
  intro h
  rw [State.writeStatus_err, Bool.and_eq_true] at h
  have hbit : v.getLsbD 2 = false := by simpa using h.2
  rw [State.writeStatus_errCode, State.writeStatus_errInfo, hbit]
  exact ⟨rfl, rfl⟩

theorem firstErrorKept_serveRead (h : s.err = true) (a : HostAccess) : FirstErrorKept s (s.serveRead a) := by
  obtain ⟨-, w, n, hgood⟩ | ⟨-, hbad⟩ := serveRead_cases s a
  · rw [hgood]
    exact fun _ => ⟨rfl, rfl⟩
  · rw [hbad]
    exact fun _ => firstErrorKept_raiseError h .badAcc _ (s.raiseError_err ..)

theorem firstErrorKept_serveWrite (h : s.err = true) (a : HostAccess) (v : Word32) : FirstErrorKept s (s.serveWrite a v) := by
  obtain he | ⟨code, info, -, he⟩ | he | he | ⟨i, -, -, -, -, he⟩ | ⟨i, w, -, -, -, he⟩ := serveWrite_cases s a v <;> rw [he]
  · exact fun _ => ⟨rfl, rfl⟩
  · exact firstErrorKept_raiseError h code info
  · exact fun _ => ⟨rfl, rfl⟩
  · exact firstErrorKept_writeStatus s v
  · exact fun _ => ⟨rfl, rfl⟩
  · exact fun _ => ⟨rfl, rfl⟩

theorem firstErrorKept_serve (h : s.err = true) (a : HostAccess) : FirstErrorKept s (s.serve a) := by
  unfold State.serve
  split
  · exact firstErrorKept_serveRead h a
  · exact firstErrorKept_serveWrite h a _

end Sys2Proof.Machine
end

section
/-!
SUPPORT. Public equality, move by move: two states alike in all but data stay alike, or stop alike, under whatever moves the machine.
-/
namespace Sys2Proof.Machine

open Sys2Proof.Claims

variable {s t : State}

/-! ### The named updates -/

theorem SamePublic.ite {s' t' : State} (c : Prop) [Decidable c] (h' : SamePublic s' t') (h : SamePublic s t) :
    SamePublic (if c then s' else s) (if c then t' else t) := by
  split
  · exact h'
  · exact h

theorem SamePublic.begin (h : SamePublic s t) (rest : List PortEvent) : SamePublic (s.begin rest) (t.begin rest) :=
  { h with port := rfl }

/-- What the port answers and the count of free values are data. -/
theorem SamePublic.of_answered (h : SamePublic s t) (r r' : Option Word32) (n n' : Nat) :
    SamePublic { s with reply := r, drawn := n } { t with reply := r', drawn := n' } := { h with }

theorem SamePublic.setRegWord (h : SamePublic s t) (i : RegIdx) (w : Fin 8) (v : Word32) :
    SamePublic (s.setRegWord i w v) (t.setRegWord i w v) := { h with }

theorem SamePublic.writeCtrl (h : SamePublic s t) (v : Word32) : SamePublic (s.writeCtrl v) (t.writeCtrl v) := { h with ie := rfl }

theorem SamePublic.clearDone (h : SamePublic s t) : SamePublic s.clearDone t.clearDone := { h with done := rfl }

theorem SamePublic.clearErr (h : SamePublic s t) : SamePublic s.clearErr t.clearErr :=
  { h with err := rfl, errCode := rfl, errInfo := rfl }

theorem SamePublic.writeStatus (h : SamePublic s t) (v : Word32) : SamePublic (s.writeStatus v) (t.writeStatus v) :=
  have hdone := SamePublic.ite (v.getLsbD 1 = true) h.clearDone h
  .ite (v.getLsbD 2 = true) hdone.clearErr hdone

/-- ERR is the same in both, so both record the error or both keep the first (60_exceptions R145). -/
theorem SamePublic.raiseError (h : SamePublic s t) (code : ErrCode) (info : Word32) :
    SamePublic (s.raiseError code info) (t.raiseError code info) := by
  unfold State.raiseError
  rw [h.err]
  exact .ite _ h { h with err := rfl, errCode := rfl, errInfo := rfl }

/-- Of a latch only the word is public. -/
theorem SamePublic.accept (h : SamePublic s t) (i : Instr) (w : Word32) : SamePublic (s.accept i w) (t.accept i w) :=
  { h with busy := rfl, cmd := rfl, latchWord := rfl }

theorem SamePublic.resetInput (h : SamePublic s t) : SamePublic s.resetInput t.resetInput :=
  ⟨rfl, rfl, rfl, rfl, rfl, rfl, rfl, rfl, h.port, rfl⟩

/-! ### Host accesses -/

/-- The issue of a word is decided by BUSY and the word. -/
theorem SamePublic.issue (h : SamePublic s t) (w : Word32) : SamePublic (s.issue w) (t.issue w) := by
  unfold State.issue
  rw [h.busy]
  refine .ite _ (h.raiseError .busy w) ?_
  cases decode w with
  | accept i => exact h.accept i w
  | reject e => exact h.raiseError _ w

theorem SamePublic.writeRegWord (h : SamePublic s t) (off : Offset) (i : RegIdx) (w : Fin 8) (v : Word32) :
    SamePublic (s.writeRegWord off i w v) (t.writeRegWord off i w v) := by
  unfold State.writeRegWord
  rw [h.busy]
  exact .ite _ (h.raiseError ..) (h.setRegWord i w v)

theorem SamePublic.serveRead (h : SamePublic s t) (a : HostAccess) : SamePublic (s.serveRead a) (t.serveRead a) := by
  by_cases hbad : BadAccess a
  · rw [serveRead_of_badAccess hbad, serveRead_of_badAccess hbad]
    exact (h.raiseError ..).of_answered ..
  · obtain ⟨w, n, hs⟩ := serveRead_of_not_badAccess hbad s
    obtain ⟨w', n', ht⟩ := serveRead_of_not_badAccess hbad t
    rw [hs, ht]
    exact h.of_answered ..

theorem SamePublic.serveWrite (h : SamePublic s t) (a : HostAccess) (v : Word32) : SamePublic (s.serveWrite a v) (t.serveWrite a v) := by
  unfold State.serveWrite
  cases a.target with
  | id => exact h
  | version => exact h
  | caps => exact h
  | ctrl => exact h.writeCtrl v
  | status => exact h.writeStatus v
  | cmd => exact h.issue v
  | errInfo => exact h
  | regWord i w => exact h.writeRegWord a.off i w v
  | unmapped => exact h.raiseError ..

theorem SamePublic.serve (h : SamePublic s t) (a : HostAccess) : SamePublic (s.serve a) (t.serve a) := by
  unfold State.serve
  cases a.kind with
  | read => exact h.serveRead a
  | write v => exact h.serveWrite a v

/-! ### The engine's turn -/

/-- TBLV after a command is fixed by TBLV before and by whether the command needs the table (43_table R123). -/
theorem CommandFrame.tblv_eq {i : Instr} (h : CommandFrame i s t) : t.tblv = (needsTable i || s.tblv) := by
  cases hn : needsTable i with
  | true => exact (h.table_built hn).1
  | false => exact (h.table_kept (by simp [hn])).1

/-- Two completions of one command are alike: a completion sets the control bits and keeps the rest of the control state. -/
theorem SamePublic.of_completed {i : Instr} {s' t' : State} (h : SamePublic s t) (hs : exec i s = .next s') (ht : exec i t = .next t') :
    SamePublic s' t' := by
  have cs := exec_next_completed hs
  have ct := exec_next_completed ht
  exact {
    ie := by rw [cs.ie, ct.ie, h.ie]
    busy := by rw [cs.busy, ct.busy]
    done := by rw [cs.done, ct.done]
    err := by rw [cs.err, ct.err, h.err]
    tblv := by rw [(exec_next_frame hs).tblv_eq, (exec_next_frame ht).tblv_eq, h.tblv]
    errCode := by rw [cs.errCode, ct.errCode, h.errCode]
    cmd := by rw [cs.cmd, ct.cmd, h.cmd]
    errInfo := by rw [cs.errInfo, ct.errInfo, h.errInfo]
    port := by rw [cs.port, ct.port, h.port]
    latchWord := by rw [cs.latch, ct.latch] }

/-- A command completes or stops by its operands alone. -/
theorem SamePublic.exec (h : SamePublic s t) (i : Instr) : SamePublicOutcome (exec i s) (exec i t) := by
  by_cases hwf : i.WellFormed
  · obtain ⟨s', hs, -⟩ := exec_next_of_wellFormed hwf s
    obtain ⟨t', ht, -⟩ := exec_next_of_wellFormed hwf t
    rw [hs, ht]
    exact h.of_completed hs ht
  · rw [exec_fault_of_not_wellFormed hwf, exec_fault_of_not_wellFormed hwf]
    exact rfl

theorem SamePublic.completeInFlight (h : SamePublic s t) : SamePublicOutcome (completeInFlight s) (completeInFlight t) := by
  have hword := h.latchWord
  unfold Machine.completeInFlight
  cases hs : s.latch with
  | none =>
    cases ht : t.latch with
    | none => exact h
    | some m => rw [hs, ht] at hword; cases hword
  | some l =>
    cases ht : t.latch with
    | none => rw [hs, ht] at hword; cases hword
    | some m =>
      rw [hs, ht, Option.map_some, Option.map_some, Option.some.injEq] at hword
      dsimp only
      rw [hword]
      cases decode m.word with
      | accept i => exact h.exec i
      | reject e => exact rfl

/-! ### Steps -/

theorem SamePublic.move (h : SamePublic s t) (e : PortEvent) : SamePublicOutcome (move e s) (move e t) := by
  cases e with
  | access a => exact h.serve a
  | complete => exact h.completeInFlight
  | reset => exact h.resetInput

end Sys2Proof.Machine
end

section
/-!
SUPPORT. Rejected words: decode of a word, once, by whether a row matches; the errors of the operand checks one by one; and the rows as the list of
30_encoding R79.
-/
namespace Sys2Proof

open Sys2Proof.Machine Sys2Proof.Claims

variable {w : Word32} {i : Instr}

/-! ### Every outcome of decode (30_encoding R72) -/

/-- The word passes the mask check of its opcode's row. -/
def MatchesRow (w : Word32) : Prop := ∃ row, opRow (opField w).toNat = some row ∧ w &&& row.mask = row.mtch

theorem decode_of_not_matchesRow (h : ¬ MatchesRow w) : decode w = .reject .illegal :=
  decode_eq_illegal fun row hrow hmask => h ⟨row, hrow, hmask⟩

/-- A word that matches its row is some command's word, and decode comes down to that command's operand checks. -/
theorem MatchesRow.exists_encode (h : MatchesRow w) : ∃ i, encode i = w ∧ decode w = checkOperands i := by
  obtain ⟨row, hrow, hmask⟩ := h
  exact ⟨row.read w, encode_read hrow hmask, decode_eq_checkOperands hrow hmask⟩

/-! ### The operand checks one by one (30_encoding R72) -/

theorem checkOperands_eq_illegal_iff (i : Instr) : checkOperands i = .reject .illegal ↔ i.cidInRange = false := by
  unfold checkOperands
  split_ifs <;> simp_all

theorem checkOperands_eq_regRange_iff (i : Instr) : checkOperands i = .reject .regRange ↔ i.cidInRange = true ∧ i.regsInRange = false := by
  unfold checkOperands
  split_ifs <;> simp_all

theorem checkOperands_eq_tblRange_iff (i : Instr) :
    checkOperands i = .reject .tblRange ↔ i.cidInRange = true ∧ i.regsInRange = true ∧ i.winInRange = false := by
  unfold checkOperands
  split_ifs <;> simp_all

/-- REG_RANGE for a command's word is its bases' check, when its constant index is defined. -/
theorem decode_encode_eq_regRange_iff (h : i.cidInRange = true) : decode (encode i) = .reject .regRange ↔ i.regsInRange = false := by
  rw [decode_encode_eq_checkOperands, checkOperands_eq_regRange_iff, and_iff_right h]

theorem jacBaseOk_eq_false_iff (b : RegIdx) : jacBaseOk b = false ↔ 13 < b.val := by simp [jacBaseOk]

theorem affBaseOk_eq_false_iff (b : RegIdx) : affBaseOk b = false ↔ 14 < b.val := by simp [affBaseOk]

theorem winOk_eq_false_iff (win : Fin 64) : winOk win = false ↔ 42 < win.val := by simp [winOk]

/-- A range error is that of a command's word, out of range, and no LDC's: LDC has no base and no window. -/
theorem exists_encode_of_range_error (h : decode w = .reject .regRange ∨ decode w = .reject .tblRange) :
    ∃ i : Instr, encode i = w ∧ ¬ i.WellFormed ∧ ∀ rd cid, i ≠ .ldc rd cid := by
  have hmatch : MatchesRow w := by
    by_contra hno
    simp [decode_of_not_matchesRow hno] at h
  obtain ⟨i, hi, hd⟩ := hmatch.exists_encode
  rw [hd] at h
  refine ⟨i, hi, fun hwf => ?_, ?_⟩
  · simp [(checkOperands_eq_accept_iff i).2 hwf] at h
  · rintro rd cid rfl
    simp [checkOperands_eq_regRange_iff, checkOperands_eq_tblRange_iff, Instr.regsInRange, Instr.winInRange] at h

/-! ### LDC of a reserved index (30_encoding R70) -/

theorem cidInRange_eq_false_iff (i : Instr) : i.cidInRange = false ↔ ∃ rd cid, i = .ldc rd cid ∧ 10 < cid.val := by
  cases i <;> simp [Instr.cidInRange, cidOk]

theorem cidField_val (w : Word32) : (cidField w).val = (w &&& 0xF).toNat := by
  change (w.extractLsb 3 0).toNat = _
  rw [BitVec.extractLsb_toNat, BitVec.toNat_and]
  exact (Nat.and_two_pow_sub_one_eq_mod w.toNat 4).symm

/-- The words that pass LDC's mask check are the words of LDC. -/
theorem and_ldcMask_eq_iff (w : Word32) : w &&& 0xFC3FFFF0 = 0x24000000 ↔ ∃ rd, encode (.ldc rd (cidField w)) = w := by
  constructor
  · intro h
    obtain ⟨hop, -⟩ := (and_maskDc_eq_iff w 0x09).1 h
    exact ⟨rdField w, encode_read (row := ⟨0x24000000, 0xFC3FFFF0, fun w => .ldc (rdField w) (cidField w)⟩) (by rw [hop]; rfl) h⟩
  · rintro ⟨rd, h⟩
    obtain ⟨hop, -, hra, hrb, hrc, hres, -⟩ := fields_of_encodeR 0x09 rd 0 0 0 (BitVec.ofFin (cidField w))
    rw [← h]
    exact (and_maskDc_eq_iff _ 0x09).2 ⟨hop, congrArg regBits hra, congrArg regBits hrb, congrArg regBits hrc, hres⟩

theorem cidField_encode_ldc (rd : RegIdx) (cid : Fin 16) : cidField (encode (.ldc rd cid)) = cid := by
  obtain ⟨-, -, -, -, -, -, hf⟩ := fields_of_encodeR 0x09 rd 0 0 0 (BitVec.ofFin cid)
  exact congrArg BitVec.toFin hf

/-- A word is an LDC of a reserved index exactly if it passes LDC's mask check with 11 or more in its low four bits. -/
theorem exists_encode_reserved_ldc_iff (w : Word32) :
    (∃ i, encode i = w ∧ i.cidInRange = false) ↔ w &&& 0xFC3FFFF0 = 0x24000000 ∧ 11 ≤ (w &&& 0xF).toNat := by
  rw [and_ldcMask_eq_iff, ← cidField_val]
  constructor
  · rintro ⟨i, rfl, hi⟩
    obtain ⟨rd, cid, rfl, hcid⟩ := (cidInRange_eq_false_iff i).1 hi
    rw [cidField_encode_ldc]
    exact ⟨⟨rd, rfl⟩, hcid⟩
  · rintro ⟨⟨rd, h⟩, hcid⟩
    exact ⟨_, h, (cidInRange_eq_false_iff _).2 ⟨rd, _, rfl, hcid⟩⟩

/-! ### The rows of 30_encoding R79 -/

/-- MATCH and MASK of a row. -/
def OpRow.bits (row : OpRow) : Word32 × Word32 := (row.mtch, row.mask)

/-- The spec's list is the opcode table in the order of its opcodes. -/
theorem specRows_eq : specRows = (List.range 64).filterMap fun op => (opRow op).map OpRow.bits := by decide

/-- A row of the spec's list is the row of its MATCH's opcode, and its MASK has all bits of the opcode field. -/
theorem opRow_of_mem_specRows :
    ∀ bits ∈ specRows, (opRow (opField bits.1).toNat).map OpRow.bits = some bits ∧ opField bits.2 = BitVec.allOnes 6 := by
  simp [specRows, opRow, opField, OpRow.bits]

theorem opField_and (v w : Word32) : opField (v &&& w) = opField v &&& opField w := BitVec.extractLsb_and

/-- A word matches a row of the spec's list exactly if it matches its opcode's row. -/
theorem matchesRow_iff (w : Word32) : MatchesRow w ↔ ∃ bits ∈ specRows, w &&& bits.2 = bits.1 := by
  constructor
  · rintro ⟨row, hrow, hmask⟩
    refine ⟨row.bits, ?_, hmask⟩
    rw [specRows_eq, List.mem_filterMap]
    exact ⟨_, List.mem_range.2 (opField w).isLt, by rw [hrow]; rfl⟩
  · rintro ⟨bits, hmem, hmask⟩
    obtain ⟨hrow, hones⟩ := opRow_of_mem_specRows bits hmem
    have hop : opField bits.1 = opField w := by rw [← hmask, opField_and, hones, BitVec.and_allOnes]
    rw [hop, Option.map_eq_some_iff] at hrow
    obtain ⟨row, hrow, rfl⟩ := hrow
    exact ⟨row, hrow, hmask⟩

end Sys2Proof
end

section
/-!
CERTIFICATES. The statements of 60_exceptions: which words are rejected and how, what raises an error and what it changes, that nothing stops the
machine, and that control state never depends on data.
-/
namespace Sys2Proof.Machine

open Sys2Proof.Claims

/-- Settles O60: the port is the same in both, so the same event moves both, and every move keeps public equality. -/
theorem controlStateIsIndependentOfData : Obligations.ControlStateIsIndependentOfData := by
  intro s t h
  cases hs : s.port with
  | nil =>
    rw [step_of_port_nil hs, step_of_port_nil (h.port ▸ hs)]
    exact (h.begin []).completeInFlight
  | cons e rest =>
    rw [step_of_port_cons hs, step_of_port_cons (h.port ▸ hs)]
    exact (h.begin rest).move e

/-- Settles O4: a rejected word matches no row, or is the word of a command whose constant index is reserved. -/
theorem illegalWordsAreThoseOfNoRow : Obligations.IllegalWordsAreThoseOfNoRow := by
  intro w
  have hrows : (∀ row ∈ specRows, w &&& row.2 ≠ row.1) ↔ ¬ MatchesRow w := by
    simp only [matchesRow_iff, not_exists, not_and, ne_eq]
  rw [hrows, ← exists_encode_reserved_ldc_iff]
  constructor
  · intro hd
    by_cases hmatch : MatchesRow w
    · obtain ⟨i, hi, hcheck⟩ := hmatch.exists_encode
      exact .inr ⟨i, hi, (checkOperands_eq_illegal_iff i).1 (hcheck.symm.trans hd)⟩
    · exact .inl hmatch
  · rintro (hmatch | ⟨i, rfl, hi⟩)
    · exact decode_of_not_matchesRow hmatch
    · rw [decode_encode_eq_checkOperands, checkOperands_eq_illegal_iff, hi]

/-- Settles O5: decode of a command's word is its operand checks, of which REG_RANGE is the bases' and TBL_RANGE the window's. -/
theorem rangeErrorsAreThoseOfBasesAndWindows : Obligations.RangeErrorsAreThoseOfBasesAndWindows := by
  refine ⟨fun rd ra => ?pdbl, fun rd ra rb sign sel zero => ?padd, fun rd ra => ?pj2a, fun rd ra => ?pa2j, fun rd ra => ?smulg,
    fun rd ra rb => ?smulp, fun rd win ent => ?tblrdBase, fun rd win ent => ?tblrdWindow, fun w => exists_encode_of_range_error⟩
  case tblrdWindow =>
    rw [decode_encode_eq_checkOperands, checkOperands_eq_tblRange_iff]
    simp [Instr.cidInRange, Instr.regsInRange, Instr.winInRange, winOk_eq_false_iff]
  all_goals
    rw [decode_encode_eq_regRange_iff rfl]
    simp only [Instr.regsInRange, Bool.and_eq_false_iff, jacBaseOk_eq_false_iff, affBaseOk_eq_false_iff, or_assoc]

/-- Settles O17: a well-formed command's operand check passes, and its meaning has written every destination. -/
theorem everyCommandCompletes : Obligations.EveryCommandCompletes := by
  intro i s hwf
  obtain ⟨t, hexec, hwritten⟩ := exec_next_of_wellFormed hwf s
  exact ⟨t, hexec, exec_next_completed hexec, hwritten⟩

/-- Settles O44: every event moves the machine, and so does the empty port. -/
theorem noStepStops : Obligations.NoStepStops := by
  intro s h
  cases hp : s.port with
  | nil => rw [step_of_port_nil hp]; exact (h.begin []).completeInFlight_next
  | cons e rest => rw [step_of_port_cons hp]; exact (h.begin rest).move_next e

/-- Settles O47: the write raises the error decode names, at the state with the access taken from the port. -/
theorem cmdWriteRejectsOtherWords : Obligations.CmdWriteRejectsOtherWords := by
  intro s w e rest hb hd
  have hstep := step_cmdWrite s w rest
  rw [issue_of_reject (s := s.begin rest) hb hd] at hstep
  refine ⟨_, hstep, State.raiseError_port .., ?_⟩
  cases e <;> exact onlyError_raiseError (s.begin rest) _ w

/-- Settles O48: the writes to CMD and the register window raise BUSY, and no read does. -/
theorem busyDropsWrites : Obligations.BusyDropsWrites := by
  intro s v i t rest hb off
  refine ⟨⟨_, step_cmdWrite s v rest, ?_⟩, ⟨_, step_regWordWrite_of_busy hb i t v rest, ?_⟩,
    ⟨_, step_regWordRead_of_busy hb i t rest, rfl, nothingChanged_begin s rest⟩, ⟨_, step_ctrlWrite s v rest, rfl, rfl, rfl, rfl⟩,
    ⟨_, step_statusWrite s v rest, fun h => by simp [h]⟩, fun a hread => ⟨_, step_arriving s a rest, ?_⟩⟩
  · rw [issue_of_busy (s := s.begin rest) hb]
    exact onlyError_raiseError (s.begin rest) .busy v
  · rw [offsetInfo_eq_ofNat, regOffset_toNat]
    exact onlyError_raiseError (s.begin rest) .busy _
  · rw [State.serve_of_read hread]
    exact ⟨serveRead_errCode_ne (s := s.begin rest) (by simp), serveRead_regs (s.begin rest) a⟩

/-- Settles O49: a bad access reaches nothing and raises BADACC, whatever its kind. -/
theorem badAccessesRaiseBadacc : Obligations.BadAccessesRaiseBadacc := by
  intro s a rest hbad
  rw [← offsetInfo_eq_ofNat]
  exact ⟨_, step_arriving s a rest, onlyError_serve_of_badAccess hbad (s.begin rest)⟩

/-- Settles O56: by the cases of a step; an access keeps the first error, a completion the whole record, and a reset leaves ERR = 0. -/
theorem firstErrorIsKept : Obligations.FirstErrorIsKept := by
  intro s t hs herr
  obtain ⟨a, rest, -, rfl⟩ | ⟨rest, -, ⟨-, rfl⟩ | ⟨l, i, -, -, he⟩⟩ | ⟨rest, -, rfl⟩ := step_cases hs
  · exact firstErrorKept_serve (s := s.begin rest) herr a
  · exact fun _ => ⟨rfl, rfl⟩
  · have hc := exec_next_completed he
    exact fun _ => ⟨hc.errCode, hc.errInfo⟩
  · exact nofun

end Sys2Proof.Machine
end

section
/-!
SUPPORT. The engine's turn with a command in flight, which completes it; the step of the reset input, and the registers after reset.
-/
namespace Sys2Proof.Machine

variable {s : State}

theorem State.Inv.latch_of_busy (h : s.Inv) (hb : s.busy = true) : ∃ l, s.latch = some l :=
  Option.isSome_iff_exists.1 (h.latch_busy.trans hb)

/-- The latched word is a command's, so the engine's turn is that command's meaning, and every meaning ends in a completion (10_state R38). -/
theorem State.Inv.completeInFlight_completed (h : s.Inv) (hb : s.busy = true) : ∃ t, completeInFlight s = .next t ∧ Completed s t := by
  obtain ⟨l, hl⟩ := h.latch_of_busy hb
  obtain ⟨-, i, hd, -⟩ := h.latch_command l hl
  obtain ⟨t, hturn⟩ := h.completeInFlight_next
  exact ⟨t, hturn, exec_next_completed ((completeInFlight_of_latch hl hd).symm.trans hturn)⟩

theorem step_of_reset {rest : List PortEvent} (h : s.port = .reset :: rest) : step s = .next (s.begin rest).resetInput :=
  step_of_port_cons h

theorem State.reset_regs (r : RegIdx) : State.reset.regs[r] = Reg.unwritten := by
  simp [State.reset]

end Sys2Proof.Machine
end

section
/-!
CERTIFICATES. The statements of 70_reset_and_hazards: the engine's turn completes a command in flight, and the reset input clears the machine.
-/
namespace Sys2Proof.Machine

/-- Settles O45: the engine's turn, with the port empty or at its head, finds the command of the latch and completes it. -/
theorem commandInFlightCompletes : Obligations.CommandInFlightCompletes := by
  intro s rest h hb hp
  have hturn : ∀ left, ∃ t, completeInFlight (s.begin left) = .next t ∧ t.busy = false ∧ t.done = true ∧ t.latch = none := by
    intro left
    obtain ⟨t, hnext, hc⟩ := (h.begin left).completeInFlight_completed hb
    exact ⟨t, hnext, hc.busy, hc.done, hc.latch⟩
  obtain hp | hp := hp
  · rw [step_of_port_nil hp]
    exact hturn []
  · rw [step_of_port_cons hp]
    exact hturn rest

/-- Settles O39: the reset input gives the reset state, but for the model's own port and its count of free values, which `cleared` does not read. -/
theorem resetInputClearsTheMachine : Obligations.ResetInputClearsTheMachine := by
  unfold Obligations.ResetInputClearsTheMachine
  intro cleared
  have hreset : cleared State.reset := by
    refine ⟨rfl, rfl, rfl, rfl, rfl, rfl, rfl, rfl, rfl, State.irq_of_idle rfl rfl, fun r => ?_⟩
    rw [State.reset_regs]
    rfl
  exact ⟨hreset, fun s rest => ⟨_, step_of_reset rfl, hreset, rfl⟩⟩

end Sys2Proof.Machine
end
